-- ==== Sys2Proof/Word.lean ====
section
/-! DEFINITION. The widths of the block: registers (R23), octets (R8), 16-bit fields (R41) and window offsets (R60). -/

namespace Sys2Proof

/-- A register or a word of the window: 32 bits (R23, R63). -/
abbrev Word := BitVec 32

/-- An octet of a buffer or of an octet string (R8). -/
abbrev Octet := BitVec 8

/-- The implemented bits of DISCRIMINATOR, VID and PID (R41 to R43). -/
abbrev Half := BitVec 16

/-- A window offset `o`, `0 ≤ o < 4096` (R60). -/
abbrev Offset := BitVec 12

end Sys2Proof
end

