-- ==== Sys2Proof/Syntax.lean ====
section
/-! DEFINITION. The commands (R92), the names of the window (R23, R46 to R52), the host's transactions (R63, R97) and the
program notation (R97, R98). -/

namespace Sys2Proof

/-- The commands: one constructor per row of spec/opcode_table.json (R92). No command carries an operand (R91). -/
inductive Instr where
  /-- NOP, 0x00000000 (R118). -/
  | nop
  /-- DERIVE_VERIFIER, 0x00000001 (R204). -/
  | deriveVerifier
  /-- PBKDF2, 0x00000002 (R148). -/
  | pbkdf2
  /-- SCALAR_MUL_G, 0x00000003 (R181). -/
  | scalarMulG
  /-- POINT_CHECK, 0x00000004 (R182). -/
  | pointCheck
  /-- ENCODE_MANUAL_CODE, 0x00000005 (R228). -/
  | encodeManualCode
  /-- VERHOEFF_CHECK_DIGIT, 0x00000006 (R244). -/
  | verhoeffCheckDigit
deriving DecidableEq, Repr

/-- The registers of the window, by name (R9, R23). -/
inductive Register where
  | id | ctrl | cmd | status | irqEn | result | resultLen
  | passcode | iterations | saltLen | pwdLen | dkLen | discriminator | vid | pid | digitsLen
deriving DecidableEq, Repr

/-- The buffers of the window, by name (R46 to R52). -/
inductive Buffer where
  | salt | pwd | scalar | point | digit | out | b64
deriving DecidableEq, Repr

/-- The width of a bus access. Only a 32-bit one is admitted (R63). -/
inductive AccessSize where
  | bits8 | bits16 | bits32 | bits64 | burst
deriving DecidableEq, Repr

/-- A host bus transaction: the triple (direction, window offset, data) of R97, with the width R63 speaks of. The data of
a refused write is of no effect, so 32 bits of it are enough (log 21). -/
inductive Transaction where
  /-- `MemRead(BASE + offset, size)`. -/
  | read (offset : Offset) (size : AccessSize)
  /-- `MemWrite(BASE + offset, size, data)`. -/
  | write (offset : Offset) (size : AccessSize) (data : Word)
deriving DecidableEq, Repr

/-- One line of a host program: the forms of R97 and the pseudo-instructions of R98. -/
inductive HostLine where
  /-- `WR REG, v`. -/
  | wr (r : Register) (v : Word)
  /-- `RD REG`. -/
  | rd (r : Register)
  /-- `WRW BUF, j, v`. -/
  | wrw (b : Buffer) (j : Nat) (v : Word)
  /-- `RDW BUF, j`. -/
  | rdw (b : Buffer) (j : Nat)
  /-- `POLL REG, m, v`: repeat `RD REG` until `(data & m) = v`. -/
  | poll (r : Register) (m v : Word)
  /-- `ISSUE MNEMONIC`. -/
  | issue (i : Instr)
  /-- `WAIT`. -/
  | wait
  /-- `RUN MNEMONIC`. -/
  | run (i : Instr)
  /-- `LOADBUF BUF, h0 h1 ...`. -/
  | loadBuf (b : Buffer) (octets : List Octet)
  /-- `ACK`. -/
  | ack
deriving DecidableEq, Repr

end Sys2Proof
end

