-- ==== Sys2Proof/Decode.lean ====
section
/-! DEFINITION. Decoding a command word (R90 to R95, R116) and, after it, encoding (R92). -/

namespace Sys2Proof

/-- Why a word, or a string of octets, is no legal command. -/
inductive DecodeError where
  /-- RSV is not zero (R93). -/
  | reservedBits
  /-- RSV is zero and OP lies in 0x07 to 0xFF (R93). -/
  | reservedOpcode
  /-- The octets given are not one 32-bit word (R95). -/
  | notOneWord
deriving DecidableEq, Repr

/-- OP, bits [7:0] of a command word (R90). -/
def opField (w : Word) : Octet := w.extractLsb' 0 8

/-- RSV, bits [31:8] of a command word (R90). -/
def rsvField (w : Word) : BitVec 24 := w.extractLsb' 8 24

/-- The command a word stands for: "a command is legal exactly when its word equals one of these values, RSV = 0"
(R92); every other word is refused by name (R93). -/
def decode (w : Word) : Except DecodeError Instr :=
  if rsvField w ≠ 0 then .error .reservedBits
  else match (opField w).toNat with
    | 0x00 => .ok .nop
    | 0x01 => .ok .deriveVerifier
    | 0x02 => .ok .pbkdf2
    | 0x03 => .ok .scalarMulG
    | 0x04 => .ok .pointCheck
    | 0x05 => .ok .encodeManualCode
    | 0x06 => .ok .verhoeffCheckDigit
    | _ => .error .reservedOpcode

/-- The word whose octet k is bits [8k+7 : 8k] (R65): octet 0 first. -/
def wordOfOctets (a b c d : Octet) : Word := d ++ c ++ b ++ a

/-- The four octets of a word, octet 0 (its least significant) first (R65); `le_4` of R8. -/
def octetsOfWord (w : Word) : List Octet :=
  [w.extractLsb' 0 8, w.extractLsb' 8 8, w.extractLsb' 16 8, w.extractLsb' 24 8]

/-- The decoder on octets as the window stores them: a command is always one 32-bit word (R95). Log 14. -/
def decodeOctets (s : List Octet) : Except DecodeError Instr :=
  match s with
  | [a, b, c, d] => decode (wordOfOctets a b c d)
  | _ => .error .notOneWord

/-- The command read from an instruction whose `nbits` table bits are `w`, the bits above them zero, laid out as the four
octets of the command word. -/
def decodeTableWord (nbits w : Nat) : Option Instr :=
  (decodeOctets (octetsOfWord (BitVec.ofNat 32 (w % 2 ^ nbits)))).toOption

/-- The word of a command (R92). -/
def encode (i : Instr) : Word :=
  match i with
  | .nop => 0x00000000#32
  | .deriveVerifier => 0x00000001#32
  | .pbkdf2 => 0x00000002#32
  | .scalarMulG => 0x00000003#32
  | .pointCheck => 0x00000004#32
  | .encodeManualCode => 0x00000005#32
  | .verhoeffCheckDigit => 0x00000006#32

end Sys2Proof
end

