-- ==== Sys2Proof/Machine/State.lean ====
section
/-! DEFINITION. The state of the block (R20 to R54), of the world the model puts around it, and the ways a step can stop. -/

namespace Sys2Proof.Machine

open Sys2Proof

/-- The engine's sequencer state (R21). -/
inductive Phase where
  | idle
  | busy
deriving DecidableEq, Repr

/-- The octets of the buffers by window offset (R46 to R52, R65), as a list of cells: offsets strictly rising, no octet
0x00. An unlisted octet reads 0x00, its reset value (R291). Log 7. -/
abbrev Memory := List Host.Cell

/-- The canonical form of a memory. -/
abbrev Memory.wf (m : Memory) : Prop := m.Pairwise (fun c d => c.1 < d.1) ∧ ∀ c ∈ m, c.2 ≠ 0

/-- How the block answers a transaction: an OKAY response or a bus error (R63, R64). -/
inductive BusStatus where
  | okay
  | busError
deriving DecidableEq, Repr

/-- The response to one transaction; a write's data is 0. Log 5. -/
structure Response where
  status : BusStatus
  data : Word
deriving DecidableEq, Repr

/-- Whose move is next (R13, R70, R290). Log 1. -/
inductive Turn where
  /-- The bus delivers a host's transaction (R70). -/
  | host (t : Transaction)
  /-- The engine gets to make its step, the completion (R113, R117). -/
  | engine
  /-- The hardware reset input `rst` is asserted (R290). Log 16. -/
  | rst
deriving DecidableEq, Repr

/-- The model's own fields, not the spec's: the world around the block. No reset of the block changes them. -/
structure World where
  /-- The turns still to come, first one first. Log 1. -/
  agenda : List Turn
  /-- The response to the last transaction served, if any was. Log 5. -/
  response : Option Response
  /-- How many free values R72 has drawn so far. Log 4. -/
  draws : Nat
deriving DecidableEq, Repr

/-- The state of the machine. Every field but `env` is the spec's (R20). ID and CTRL hold no state of their own (R24, R25),
STATUS.BUSY is `phase = busy` (R27), and `irq` is computed (R54). -/
structure State where
  /-- The engine phase (R21). -/
  phase : Phase
  /-- CMD, the last command word stored (R26). -/
  cmd : Word
  /-- STATUS.DONE (R28). -/
  done : Bool
  /-- STATUS.ERR (R29). -/
  err : Bool
  /-- STATUS.WBUSY (R30). -/
  wbusy : Bool
  /-- STATUS.ERRCODE (R31). -/
  errcode : Octet
  /-- IRQ_EN: bit 0 DONE_IE, bit 1 ERR_IE, bit 2 WBUSY_IE (R33). -/
  irqEn : BitVec 3
  /-- RESULT (R34). -/
  result : Word
  /-- RESULT_LEN (R35). -/
  resultLen : Word
  /-- PASSCODE (R36). -/
  passcode : Word
  /-- ITERATIONS (R37). -/
  iterations : Word
  /-- SALT_LEN (R38). -/
  saltLen : Word
  /-- PWD_LEN (R39). -/
  pwdLen : Word
  /-- DK_LEN (R40). -/
  dkLen : Word
  /-- DISCRIMINATOR, bits [15:0] (R41). -/
  discriminator : Half
  /-- VID, bits [15:0] (R42). -/
  vid : Half
  /-- PID, bits [15:0] (R43). -/
  pid : Half
  /-- DIGITS_LEN (R44). -/
  digitsLen : Word
  /-- The octets of the seven buffers (R46 to R52). -/
  mem : Memory
  /-- The in-flight command latch (R53). -/
  latch : Option Word
  /-- The world around the block: the model's own. -/
  env : World
deriving DecidableEq, Repr

/-- Why the machine stops with a fault. Nothing the spec describes does: engine errors are completions (R115) and bus
errors are responses (R63). -/
inductive Fault where
  /-- Raised by the engine's step when the phase is BUSY and no command is latched, for which R113 gives no outcome. No
  run reaches such a state (R53, R111), so stopping there is safe. Log 10. -/
  | nothingLatched
deriving DecidableEq, Repr

/-- Why the machine refuses a step. -/
inductive Refusal where
  /-- Raised by `exec` for a command that has no meaning yet; no arm does so. Safe. -/
  | notModelled (mnemonic : String)
deriving DecidableEq, Repr

/-- The state after reset (R291): phase IDLE, every register and octet 0, the latch empty. The world's three fields start
empty (DESIGN CHOICE, logs 1, 4 and 5). -/
def State.reset : State where
  phase := .idle
  cmd := 0#32
  done := false
  err := false
  wbusy := false
  errcode := 0#8
  irqEn := 0#3
  result := 0#32
  resultLen := 0#32
  passcode := 0#32
  iterations := 0#32
  saltLen := 0#32
  pwdLen := 0#32
  dkLen := 0#32
  discriminator := 0#16
  vid := 0#16
  pid := 0#16
  digitsLen := 0#32
  mem := []
  latch := none
  env := ⟨[], none, 0⟩

end Sys2Proof.Machine
end

