-- ==== Sys2Proof/Machine/Flags.lean ====
section
/-! DEFINITION. STATUS and its flags (R27 to R32, R55), IRQ_EN (R33) and the interrupt output (R54, R275, R276). -/

namespace Sys2Proof.Machine

open Sys2Proof

/-- STATUS.BUSY "Reads 1 exactly when `phase = BUSY`" (R27). -/
def State.isBusy (s : State) : Bool := s.phase == .busy

/-- The STATUS register as a word: ERRCODE in [15:8], WBUSY, ERR, DONE and BUSY in bits 3 to 0, the rest 0
(R27 to R32). -/
def State.statusWord (s : State) : Word :=
  0#16 ++ s.errcode ++ 0#4 ++ BitVec.ofBool s.wbusy ++ BitVec.ofBool s.err ++ BitVec.ofBool s.done
    ++ BitVec.ofBool s.isBusy

/-- A write of `v` to STATUS: each W1C flag whose bit is 1 is cleared; ERRCODE, BUSY and reserved bits ignore the write
(R28 to R32). This is how a host acknowledges a completion (R273): the block's nearest thing to a return from an exception. -/
def State.acknowledge (s : State) (v : Word) : State :=
  { s with
    done := s.done && !v.getLsbD 1
    err := s.err && !v.getLsbD 2
    wbusy := s.wbusy && !v.getLsbD 3 }

/-- A dropped write sets the sticky flag WBUSY and nothing else (R30, R71, R112, R271). -/
def State.noteDropped (s : State) : State := { s with wbusy := true }

/-- A write of `v` to IRQ_EN keeps bits [2:0] (R33). -/
def State.enableIrq (s : State) (v : Word) : State := { s with irqEn := v.setWidth 3 }

/-- The interrupt output, a level, active high (R54). -/
def State.irq (s : State) : Bool :=
  (s.done && s.irqEn.getLsbD 0) || (s.err && s.irqEn.getLsbD 1) || (s.wbusy && s.irqEn.getLsbD 2)

end Sys2Proof.Machine
end

