-- ==== Sys2Proof/Machine/Octets.lean ====
section
/-! DEFINITION. Octet strings (R8): integers to octets and back, decimal digits, octet-wise xor. -/

namespace Sys2Proof.Machine

open Sys2Proof

/-- `int_be(s)`: the integer whose big-endian base-256 digits are `s` (R8). -/
def intBE (s : List Octet) : Nat := s.foldl (fun v o => 256 * v + o.toNat) 0

/-- `be_N(v)`: the `n`-octet big-endian encoding of `v` (R8), which requires `v < 256^n`; a larger `v` keeps its low `n`
octets (no command gives one, log 25). -/
def octetsBE (n v : Nat) : List Octet :=
  match n with
  | 0 => []
  | n + 1 => octetsBE n (v / 256) ++ [BitVec.ofNat 8 v]

/-- `ascii(d)` for a digit `d` in 0..9: the octet `0x30 + d` (R8). -/
def asciiDigit (d : Nat) : Octet := BitVec.ofNat 8 (0x30 + d)

/-- `Dec(v, w)`: the `w` ASCII digits of `v` in base 10, most significant first, left-padded with `0` (R226). -/
def decDigits (v w : Nat) : List Octet :=
  match w with
  | 0 => []
  | w + 1 => decDigits (v / 10) w ++ [asciiDigit (v % 10)]

/-- `s xor t` of two octet strings of equal length, octet-wise (R145). -/
def xorOctets (s t : List Octet) : List Octet := List.zipWith (· ^^^ ·) s t

end Sys2Proof.Machine
end

