-- ==== Sys2Proof/Config.lean ====
section
/-! DEFINITION. What the spec leaves OPEN or unspecified: constants with no body, so that no proof can rest on their value. -/

namespace Sys2Proof

/-- The number of the 4096-octet page of the host's address space in which the window lies; BASE is OPEN but
4096-aligned (R6, R60, D1). Log 8. -/
opaque Config.windowPage : Nat

/-- The word a read of OUT_BUF or B64_BUF returns while BUSY: "an unspecified 32-bit value (a free draw each read)"
(R72, D11, S1). The argument is the number of draws made before this one. Log 4. -/
opaque Config.freeRead : Nat → Word

/-- `BASE`, the physical address of the window (R60). -/
def Config.base : Nat := 4096 * Config.windowPage

end Sys2Proof
end

