-- ==== Sys2Proof/Machine/WindowMap.lean ====
section
/-! DEFINITION. The window map (R23, R45, R62), the sizes and access types of the buffers (R46 to R52) and the fixed
parameters of R6. -/

namespace Sys2Proof

/-- `SALT_MAX` (R6). -/
def saltMax : Nat := 64

/-- `PWD_MAX` (R6). -/
def pwdMax : Nat := 64

/-- `DK_MAX` (R6). -/
def dkMax : Nat := 256

/-- `DIGITS_MAX` (R6). -/
def digitsMax : Nat := 64

/-- IDVAL, the constant of the ID register (R2, R24). -/
def idValue : Word := 0x4D434531#32

/-- The window offset of a register (R23). -/
def Register.offset (r : Register) : Nat :=
  match r with
  | .id => 0x000
  | .ctrl => 0x004
  | .cmd => 0x008
  | .status => 0x00C
  | .irqEn => 0x010
  | .result => 0x014
  | .resultLen => 0x018
  | .passcode => 0x020
  | .iterations => 0x024
  | .saltLen => 0x028
  | .pwdLen => 0x02C
  | .dkLen => 0x030
  | .discriminator => 0x034
  | .vid => 0x038
  | .pid => 0x03C
  | .digitsLen => 0x040

/-- Every register, in the order of the map (R23). -/
def Register.all : List Register :=
  [.id, .ctrl, .cmd, .status, .irqEn, .result, .resultLen, .passcode, .iterations, .saltLen, .pwdLen, .dkLen,
    .discriminator, .vid, .pid, .digitsLen]

/-- The window offset of a buffer's first octet (R62). -/
def Buffer.base (b : Buffer) : Nat :=
  match b with
  | .salt => 0x100
  | .pwd => 0x140
  | .scalar => 0x180
  | .point => 0x1C0
  | .digit => 0x240
  | .out => 0x300
  | .b64 => 0x400

/-- The number of octets of a buffer (R46 to R52). -/
def Buffer.size (b : Buffer) : Nat :=
  match b with
  | .salt => 64
  | .pwd => 64
  | .scalar => 32
  | .point => 68
  | .digit => 64
  | .out => 256
  | .b64 => 132

/-- Whether the engine writes the buffer and the host only reads it: OUT_BUF and B64_BUF are RO, the others RW
(R46 to R52). -/
def Buffer.isOutput (b : Buffer) : Bool :=
  match b with
  | .out | .b64 => true
  | .salt | .pwd | .scalar | .point | .digit => false

/-- Every buffer, in the order of the map (R62). -/
def Buffer.all : List Buffer := [.salt, .pwd, .scalar, .point, .digit, .out, .b64]

/-- The octet at window offset `a` belongs to the buffer. -/
def Buffer.holds (b : Buffer) (a : Nat) : Bool := b.base ≤ a && a < b.base + b.size

/-- The buffer, if any, that the octet at window offset `a` belongs to. -/
def bufferAt (a : Nat) : Option Buffer := Buffer.all.find? fun b => b.holds a

/-- The register, if any, at window offset `o`. -/
def registerAt (o : Nat) : Option Register := Register.all.find? fun r => r.offset == o

/-- What a 4-aligned window offset names (R23, R45, R62). -/
inductive Target where
  /-- A register (R23). -/
  | register (r : Register)
  /-- Word `j` of a buffer (R65). -/
  | bufferWord (b : Buffer) (j : Nat)
  /-- A reserved offset (R45). -/
  | reserved
deriving DecidableEq, Repr

/-- The target of a 4-aligned window offset; "every other offset reserved" (R62). -/
def targetAt (o : Nat) : Target :=
  match registerAt o with
  | some r => .register r
  | none =>
    match bufferAt o with
    | some b => .bufferWord b ((o - b.base) / 4)
    | none => .reserved

/-- The bus address of a window offset, `BASE + o` (R60). -/
def busAddress (o : Offset) : Nat := Config.base + o.toNat

/-- The window offset of a bus address, if the address lies in the window (R60). -/
def windowOffset? (addr : Nat) : Option Offset :=
  if Config.base ≤ addr ∧ addr < Config.base + 4096 then some (BitVec.ofNat 12 (addr - Config.base)) else none

end Sys2Proof
end

