-- ==== Sys2Proof/Machine/Ops.lean ====
section
/-! DEFINITION. The operations every command and transaction shares: memory, the start of a command (R111), its completion,
successful or with an error (R113 to R115), and the reset (R291). -/

namespace Sys2Proof.Machine

open Sys2Proof

/-! ### Memory -/

/-- The octet at window offset `a`; an unlisted octet reads its reset value 0x00 (R291). -/
def Memory.read (m : Memory) (a : Nat) : Octet :=
  match m with
  | [] => 0#8
  | c :: rest => if c.1 = a then c.2 else Memory.read rest a

/-- The memory with a cell added in its place. -/
def Memory.insertCell (m : Memory) (a : Nat) (v : Octet) : Memory :=
  match m with
  | [] => [(a, v)]
  | c :: rest => if c.1 < a then c :: Memory.insertCell rest a v else (a, v) :: c :: rest

/-- The memory with octet `v` at window offset `a`: the old cell is taken out, and the new one is listed unless it is what
an unlisted octet reads. -/
def Memory.write (m : Memory) (a : Nat) (v : Octet) : Memory :=
  let others := m.filter fun c => c.1 != a
  if v = 0#8 then others else Memory.insertCell others a v

/-- The memory with the octets of `s` at `a`, `a + 1`, and so on. -/
def Memory.writeOctets (m : Memory) (a : Nat) (s : List Octet) : Memory :=
  match s with
  | [] => m
  | o :: rest => Memory.writeOctets (Memory.write m a o) (a + 1) rest

/-- The `n` octets from window offset `a` on. -/
def Memory.readOctets (m : Memory) (a n : Nat) : List Octet := (List.range n).map fun i => Memory.read m (a + i)

/-- The memory with 0x00 in the `n` octets from window offset `a` on. -/
def Memory.zeroFill (m : Memory) (a n : Nat) : Memory := m.filter fun c => !(a ≤ c.1 && c.1 < a + n)

/-- `BUF[0 .. n-1]` (R9). -/
def State.bufOctets (s : State) (b : Buffer) (n : Nat) : List Octet := Memory.readOctets s.mem b.base n

/-- `BufWordRead(B, j)` (R65). -/
def State.bufWord (s : State) (b : Buffer) (j : Nat) : Word :=
  wordOfOctets (Memory.read s.mem (b.base + 4 * j)) (Memory.read s.mem (b.base + 4 * j + 1))
    (Memory.read s.mem (b.base + 4 * j + 2)) (Memory.read s.mem (b.base + 4 * j + 3))

/-- `BufWordWrite(B, j, v)` (R65): the four octets at once. -/
def State.setBufWord (s : State) (b : Buffer) (j : Nat) (v : Word) : State :=
  { s with mem := Memory.writeOctets s.mem (b.base + 4 * j) (octetsOfWord v) }

/-! ### Issue and completion -/

/-- The start actions of an accepted issue of word `v`, all in one atomic transaction (R111). WBUSY and IRQ_EN are not
changed. -/
def State.start (s : State) (v : Word) : State :=
  { s with
    cmd := v
    done := false
    err := false
    errcode := 0#8
    result := 0#32
    resultLen := 0#32
    mem := Memory.zeroFill (Memory.zeroFill s.mem Buffer.out.base Buffer.out.size) Buffer.b64.base Buffer.b64.size
    latch := some v
    phase := .busy }

/-- Why a command ends without its result: `raise EngineError(code)` (R9, R260). -/
inductive EngineError where
  /-- RSV ≠ 0 or OP ≥ 0x07 (R261). -/
  | illegalCmd
  /-- A length register outside its legal range (R262). -/
  | badLength
  /-- ITERATIONS = 0 (R263). -/
  | badIterations
  /-- A DIGIT_BUF octet not in 0x30..0x39 (R264). -/
  | badDigit
  /-- A chunk of the manual code wider than its digit group (R265). -/
  | fieldOverflow
  /-- The scalar is 0 modulo n (R266). -/
  | pointAtInfinity
deriving DecidableEq, Repr

/-- The code an error completion reports in STATUS.ERRCODE (R260). -/
def EngineError.code (e : EngineError) : Octet :=
  match e with
  | .illegalCmd => 0x01#8
  | .badLength => 0x02#8
  | .badIterations => 0x03#8
  | .badDigit => 0x04#8
  | .fieldOverflow => 0x05#8
  | .pointAtInfinity => 0x06#8

/-- What a successful command writes: `Ok(writes)` (R96, R113). -/
structure Results where
  /-- The octets written at the start of OUT_BUF. -/
  out : List Octet
  /-- The octets written at the start of B64_BUF. -/
  b64 : List Octet
  /-- RESULT. -/
  result : Nat
  /-- RESULT_LEN. -/
  resultLen : Nat
deriving DecidableEq, Repr

/-- The successful completion (R113, R114): the listed outputs are written, DONE is set, the latch is emptied (R53) and the
phase becomes IDLE. -/
def State.completeOk (s : State) (r : Results) : State :=
  { s with
    mem := Memory.writeOctets (Memory.writeOctets s.mem Buffer.out.base r.out) Buffer.b64.base r.b64
    result := BitVec.ofNat 32 r.result
    resultLen := BitVec.ofNat 32 r.resultLen
    done := true
    latch := none
    phase := .idle }

/-- The error completion (R113, R115, R269): ERR and ERRCODE are set, DONE is set, no output is written, the latch is
emptied and the phase becomes IDLE. The block's nearest thing to taking an exception (R272). -/
def State.completeError (s : State) (e : EngineError) : State :=
  { s with
    err := true
    errcode := e.code
    done := true
    latch := none
    phase := .idle }

/-- The completion, by what `Exec` answered (R113). -/
def State.complete (s : State) (outcome : Except EngineError Results) : State :=
  match outcome with
  | .ok r => s.completeOk r
  | .error e => s.completeError e

/-! ### Reset -/

/-- A reset of the block, from either source (R290, R291): every piece of the spec's state at its reset value in one atomic
step. The world around the block stays. -/
def State.resetBlock (s : State) : State := { State.reset with env := s.env }

end Sys2Proof.Machine
end

