-- ==== Sys2Proof/WellFormed.lean ====
section
/-! DEFINITION. The checks on what the machine is given: commands, command words, bus accesses and program lines. -/

namespace Sys2Proof

/-- A command carries no operand (R91), so every command is well formed; the match names each. -/
def Instr.wellFormed (i : Instr) : Bool :=
  match i with
  | .nop | .deriveVerifier | .pbkdf2 | .scalarMulG | .pointCheck | .encodeManualCode | .verhoeffCheckDigit => true

/-- A command word is legal when RSV is zero and OP is below 0x07 (R92, R93). -/
def legalWord (w : Word) : Bool := rsvField w == 0 && (opField w).toNat < 7

/-- The window offset a transaction addresses. -/
def Transaction.offset (t : Transaction) : Offset :=
  match t with
  | .read o _ => o
  | .write o _ _ => o

/-- The width of a transaction. -/
def Transaction.size (t : Transaction) : AccessSize :=
  match t with
  | .read _ n => n
  | .write _ n _ => n

/-- "The only access the block admits is a 32-bit access at an offset that is a multiple of 4" (R63). -/
def Transaction.admitted (t : Transaction) : Bool := t.size == .bits32 && t.offset.toNat % 4 == 0

/-- A program line names a word inside its buffer, and a load fits its buffer (R65, R97, R98). -/
def HostLine.wellFormed (l : HostLine) : Bool :=
  match l with
  | .wr _ _ => true
  | .rd _ => true
  | .wrw b j _ => 4 * j < b.size
  | .rdw b j => 4 * j < b.size
  | .poll _ _ _ => true
  | .issue i => i.wellFormed
  | .wait => true
  | .run i => i.wellFormed
  | .loadBuf b s => s.length ≤ b.size
  | .ack => true

end Sys2Proof
end

