-- ==== Sys2Proof/Machine/Bus.lean ====
section
/-! DEFINITION. The host's transactions on the window (R23 to R52, R63 to R72, R110, R112, R293). -/

namespace Sys2Proof.Machine

open Sys2Proof

/-! ### Reads -/

/-- A read of a register (R24 to R44). While BUSY, RESULT and RESULT_LEN read 0 (R72); CTRL reads 0 (R25). -/
def State.readRegister (s : State) (r : Register) : Word :=
  match r with
  | .id => idValue
  | .ctrl => 0#32
  | .cmd => s.cmd
  | .status => s.statusWord
  | .irqEn => s.irqEn.setWidth 32
  | .result => if s.isBusy then 0#32 else s.result
  | .resultLen => if s.isBusy then 0#32 else s.resultLen
  | .passcode => s.passcode
  | .iterations => s.iterations
  | .saltLen => s.saltLen
  | .pwdLen => s.pwdLen
  | .dkLen => s.dkLen
  | .discriminator => s.discriminator.setWidth 32
  | .vid => s.vid.setWidth 32
  | .pid => s.pid.setWidth 32
  | .digitsLen => s.digitsLen

/-- Whether a read of the target is a free draw: a word of OUT_BUF or B64_BUF while BUSY (R72). -/
def State.drawsFree (s : State) (t : Target) : Bool :=
  match t with
  | .bufferWord b _ => b.isOutput && s.isBusy
  | .register _ => false
  | .reserved => false

/-- The data of a 32-bit read of a target (R45, R65, R72). -/
def State.readTarget (s : State) (t : Target) : Word :=
  if s.drawsFree t then Config.freeRead s.env.draws
  else
    match t with
    | .register r => s.readRegister r
    | .bufferWord b j => s.bufWord b j
    | .reserved => 0#32

/-! ### Writes -/

/-- Store `v`, masked to the implemented bits, in an RW input register (R36 to R44, R71). -/
def State.storeInput (s : State) (r : Register) (v : Word) : State :=
  match r with
  | .passcode => { s with passcode := v }
  | .iterations => { s with iterations := v }
  | .saltLen => { s with saltLen := v }
  | .pwdLen => { s with pwdLen := v }
  | .dkLen => { s with dkLen := v }
  | .discriminator => { s with discriminator := v.setWidth 16 }
  | .vid => { s with vid := v.setWidth 16 }
  | .pid => { s with pid := v.setWidth 16 }
  | .digitsLen => { s with digitsLen := v }
  | .id | .ctrl | .cmd | .status | .irqEn | .result | .resultLen => s

/-- A write to CTRL: bit 0 = 1 is the soft reset at any phase, everything else has no effect (R25, R293). -/
def State.writeCtrl (s : State) (v : Word) : State := if v.getLsbD 0 then s.resetBlock else s

/-- A write to CMD: an accepted issue while IDLE (R110), dropped while BUSY (R112). -/
def State.writeCmd (s : State) (v : Word) : State := if s.isBusy then s.noteDropped else s.start v

/-- A write to an RW input register: stored while IDLE, dropped while BUSY (R71). -/
def State.writeInput (s : State) (r : Register) (v : Word) : State :=
  if s.isBusy then s.noteDropped else s.storeInput r v

/-- A write to a register, by its access type (R23). -/
def State.writeRegister (s : State) (r : Register) (v : Word) : State :=
  match r with
  | .id => s
  | .ctrl => s.writeCtrl v
  | .cmd => s.writeCmd v
  | .status => s.acknowledge v
  | .irqEn => s.enableIrq v
  | .result => s
  | .resultLen => s
  | .passcode => s.writeInput .passcode v
  | .iterations => s.writeInput .iterations v
  | .saltLen => s.writeInput .saltLen v
  | .pwdLen => s.writeInput .pwdLen v
  | .dkLen => s.writeInput .dkLen v
  | .discriminator => s.writeInput .discriminator v
  | .vid => s.writeInput .vid v
  | .pid => s.writeInput .pid v
  | .digitsLen => s.writeInput .digitsLen v

/-- A write to word `j` of a buffer: ignored for OUT_BUF and B64_BUF (R51, R52); for the others stored while IDLE and
dropped while BUSY (R65, R71). -/
def State.writeBuffer (s : State) (b : Buffer) (j : Nat) (v : Word) : State :=
  if b.isOutput then s
  else if s.isBusy then s.noteDropped
  else s.setBufWord b j v

/-- A 32-bit write to a target; a write to a reserved offset is ignored (R45, R64). -/
def State.writeTarget (s : State) (t : Target) (v : Word) : State :=
  match t with
  | .register r => s.writeRegister r v
  | .bufferWord b j => s.writeBuffer b j v
  | .reserved => s

/-! ### Transactions -/

/-- The block's answer to the transaction; only the world's view of the bus changes. -/
def State.respond (s : State) (status : BusStatus) (data : Word) : State :=
  { s with env := { s.env with response := some ⟨status, data⟩ } }

/-- One more free value has been drawn, if `drawn` (log 4). -/
def State.countDraw (s : State) (drawn : Bool) : State :=
  { s with env := { s.env with draws := s.env.draws + if drawn then 1 else 0 } }

/-- An admitted read: the data goes out with an OKAY response and no state of the block changes (R68). -/
def State.serveRead (s : State) (t : Target) : State :=
  (s.respond .okay (s.readTarget t)).countDraw (s.drawsFree t)

/-- An admitted write: its effect, with an OKAY response (R64, R71, R112). -/
def State.serveWrite (s : State) (t : Target) (v : Word) : State := (s.writeTarget t v).respond .okay 0#32

/-- One whole transaction (R70): an access that is not admitted is answered with a bus error, data 0, and changes no state
of the block (R63, R270). -/
def State.serve (s : State) (t : Transaction) : State :=
  if t.admitted then
    match t with
    | .read o _ => s.serveRead (targetAt o.toNat)
    | .write o _ v => s.serveWrite (targetAt o.toNat) v
  else s.respond .busError 0#32

/-- A sequence of whole transactions, first one first (R70). -/
def State.serveAll (s : State) (ts : List Transaction) : State := ts.foldl State.serve s

/-- The transaction is a soft reset: an admitted write to CTRL with bit 0 = 1 (R293). -/
def softResets (t : Transaction) : Bool :=
  match t with
  | .write o _ v => t.admitted && o.toNat == Register.ctrl.offset && v.getLsbD 0
  | .read _ _ => false

/-- The command word the engine runs next: the latched one (R53, R113, R116). -/
def State.fetch (s : State) : Option Word := s.latch

end Sys2Proof.Machine
end

