-- ==== Sys2Proof/Machine/Operands.lean ====
section
/-! DEFINITION. Every operand form a command has (R96): register values as integers and slices of the input buffers. -/

namespace Sys2Proof.Machine

open Sys2Proof

/-- The salt `S = SALT_BUF[0 .. SALT_LEN-1]` (R46, R148, R204). -/
def State.saltOctets (s : State) : List Octet := s.bufOctets .salt s.saltLen.toNat

/-- The password `P = PWD_BUF[0 .. PWD_LEN-1]` of PBKDF2 (R47, R148). -/
def State.pwdOctets (s : State) : List Octet := s.bufOctets .pwd s.pwdLen.toNat

/-- The password of DERIVE_VERIFIER, `le_4(PASSCODE)` (R201). -/
def State.passcodeOctets (s : State) : List Octet := octetsOfWord s.passcode

/-- The scalar `k = int_be(SCALAR_BUF[0..31])` of SCALAR_MUL_G (R48, R181). -/
def State.scalarOperand (s : State) : Nat := intBE (s.bufOctets .scalar 32)

/-- The 65 octets `POINT_BUF[0..64]` of POINT_CHECK (R49, R182). -/
def State.pointOctets (s : State) : List Octet := s.bufOctets .point 65

/-- The string `DIGIT_BUF[0 .. DIGITS_LEN-1]` of VERHOEFF_CHECK_DIGIT (R50, R244). -/
def State.digitOctets (s : State) : List Octet := s.bufOctets .digit s.digitsLen.toNat

end Sys2Proof.Machine
end

