-- ==== Sys2Proof/Machine/Control.lean ====
section
/-! DEFINITION. NOP (R118) and illegal command words (R119). -/

namespace Sys2Proof.Machine

open Sys2Proof

/-- `Exec NOP`: `Ok{ RESULT <- 0 ; RESULT_LEN <- 0 }` (R118). -/
def nopResults : Results := ⟨[], [], 0, 0⟩

/-- NOP (R118): the completion with nothing in the output buffers. -/
def execNop (s : State) : Host.Outcome State Fault Refusal := .next (s.completeOk nopResults)

/-- An illegal command word (R93, R119, R261): the completion with ILLEGAL_CMD, before any operand is examined. -/
def execIllegal (s : State) : Host.Outcome State Fault Refusal := .next (s.completeError .illegalCmd)

end Sys2Proof.Machine
end

