-- ==== Sys2Proof/Machine/Verhoeff.lean ====
section
/-! DEFINITION. The Verhoeff checksum: the tables (R240 to R242), the check digit (R243), validation (R245) and the command
VERHOEFF_CHECK_DIGIT (R244). -/

namespace Sys2Proof.Machine

open Sys2Proof

/-- A decimal digit. -/
abbrev Digit := Fin 10

/-- The entry of a table at row `j` and column `k`. -/
def tableEntry (table : List (List Digit)) (j k : Nat) : Digit := (table.getD j []).getD k 0

/-- The multiplication table `d` of the dihedral group D5 (R240). -/
def verhoeffDTable : List (List Digit) :=
  [[0, 1, 2, 3, 4, 5, 6, 7, 8, 9],
   [1, 2, 3, 4, 0, 6, 7, 8, 9, 5],
   [2, 3, 4, 0, 1, 7, 8, 9, 5, 6],
   [3, 4, 0, 1, 2, 8, 9, 5, 6, 7],
   [4, 0, 1, 2, 3, 9, 5, 6, 7, 8],
   [5, 9, 8, 7, 6, 0, 4, 3, 2, 1],
   [6, 5, 9, 8, 7, 1, 0, 4, 3, 2],
   [7, 6, 5, 9, 8, 2, 1, 0, 4, 3],
   [8, 7, 6, 5, 9, 3, 2, 1, 0, 4],
   [9, 8, 7, 6, 5, 4, 3, 2, 1, 0]]

/-- The permutation table `p` (R241). -/
def verhoeffPTable : List (List Digit) :=
  [[0, 1, 2, 3, 4, 5, 6, 7, 8, 9],
   [1, 5, 7, 6, 2, 8, 3, 0, 9, 4],
   [5, 8, 0, 3, 7, 9, 6, 1, 4, 2],
   [8, 9, 1, 6, 0, 4, 3, 5, 2, 7],
   [9, 4, 5, 3, 1, 2, 6, 8, 7, 0],
   [4, 2, 8, 6, 5, 7, 3, 9, 0, 1],
   [2, 7, 9, 3, 8, 0, 6, 4, 1, 5],
   [7, 0, 4, 6, 9, 1, 3, 2, 5, 8]]

/-- The inverse table `inv` (R242). -/
def verhoeffInvTable : List Digit := [0, 4, 3, 2, 1, 5, 6, 7, 8, 9]

/-- `d[j][k]` (R240). -/
def verhoeffD (j k : Digit) : Digit := tableEntry verhoeffDTable j.val k.val

/-- `p[r mod 8][k]` (R241). -/
def verhoeffP (r : Nat) (k : Digit) : Digit := tableEntry verhoeffPTable (r % 8) k.val

/-- `inv[j]` (R242). -/
def verhoeffInv (j : Digit) : Digit := verhoeffInvTable.getD j.val 0

/-- The octet is an ASCII digit (R244, R264). -/
def isAsciiDigit (o : Octet) : Bool := 0x30 ≤ o.toNat && o.toNat ≤ 0x39

/-- The digit an ASCII octet stands for, `s[j] - 0x30` (R243). An octet that is no ASCII digit never reaches a use of it
(R244, log 25). -/
def digitOf (o : Octet) : Digit := Fin.ofNat 10 (o.toNat - 0x30)

/-- The accumulator after the digits of `rev`, rightmost digit first, the first of them at position `i`; each digit is
permuted by row `i + shift` (R243, R245). -/
def verhoeffFold (shift i : Nat) (c : Digit) (rev : List Octet) : Digit :=
  match rev with
  | [] => c
  | o :: rest => verhoeffFold shift (i + 1) (verhoeffD c (verhoeffP (i + shift) (digitOf o))) rest

/-- `CheckDigit(s)`, most significant digit first (R243). -/
def checkDigit (s : List Octet) : Digit := verhoeffInv (verhoeffFold 1 0 0 s.reverse)

/-- The standard Verhoeff validation of a string that ends with its check digit (R245). -/
def verhoeffValid (t : List Octet) : Bool := verhoeffFold 0 0 0 t.reverse == 0

/-- `Exec VERHOEFF_CHECK_DIGIT` (R244). -/
def verhoeffOutcome (s : State) : Except EngineError Results :=
  if s.digitsLen.toNat > digitsMax then .error .badLength
  else if s.digitOctets.all isAsciiDigit then
    .ok ⟨[asciiDigit (checkDigit s.digitOctets).val], [], (checkDigit s.digitOctets).val, 1⟩
  else .error .badDigit

/-- VERHOEFF_CHECK_DIGIT (R244). -/
def execVerhoeffCheckDigit (s : State) : Host.Outcome State Fault Refusal := .next (s.complete (verhoeffOutcome s))

end Sys2Proof.Machine
end

