-- ==== Sys2Proof/Machine/ManualCode.lean ====
section
/-! DEFINITION. The manual-code bit-packer (R220 to R227), the command ENCODE_MANUAL_CODE (R228) and the host-side fact
ValidPasscode (R230). -/

namespace Sys2Proof.Machine

open Sys2Proof

/-- The short discriminator `sd = disc >> 8` (R221). -/
def shortDiscriminator (disc : Nat) : Nat := disc >>> 8

/-- Chunk 1: version 0, the VID/PID-present flag 1, the top bits of the short discriminator (R222). -/
def chunk1 (disc : Nat) : Nat := (0 <<< 3) ||| (1 <<< 2) ||| (shortDiscriminator disc >>> 2)

/-- Chunk 2: the bottom 2 bits of the short discriminator and the low 14 bits of the passcode (R223). -/
def chunk2 (disc pc : Nat) : Nat := ((shortDiscriminator disc &&& 0x3) <<< 14) ||| (pc &&& 0x3FFF)

/-- Chunk 3: the remaining high bits of the passcode, a logical shift (R224). -/
def chunk3 (pc : Nat) : Nat := pc >>> 14

/-- A chunk does not fit its digit group: "c1 > 9 or c3 > 9999" (R226). -/
def chunkOverflow (disc pc : Nat) : Bool := 9 < chunk1 disc || 9999 < chunk3 pc

/-- The 20 payload digits (R225, R227). -/
def codePayload (disc pc vid pid : Nat) : List Octet :=
  decDigits (chunk1 disc) 1 ++ decDigits (chunk2 disc pc) 5 ++ decDigits (chunk3 pc) 4 ++ decDigits vid 5
    ++ decDigits pid 5

/-- The 21-digit code: the payload and its check digit (R227). -/
def manualCode (disc pc vid pid : Nat) : List Octet :=
  codePayload disc pc vid pid ++ [asciiDigit (checkDigit (codePayload disc pc vid pid)).val]

/-- `Exec ENCODE_MANUAL_CODE` (R228). -/
def manualCodeOutcome (s : State) : Except EngineError Results :=
  let disc := s.discriminator.toNat
  let pc := s.passcode.toNat
  if chunkOverflow disc pc then .error .fieldOverflow
  else .ok ⟨manualCode disc pc s.vid.toNat s.pid.toNat, [],
    (checkDigit (codePayload disc pc s.vid.toNat s.pid.toNat)).val, 21⟩

/-- ENCODE_MANUAL_CODE (R228). -/
def execEncodeManualCode (s : State) : Host.Outcome State Fault Refusal := .next (s.complete (manualCodeOutcome s))

/-- The 12 blacklisted passcodes (R230). -/
def passcodeBlacklist : List Nat :=
  [0, 11111111, 22222222, 33333333, 44444444, 55555555, 66666666, 77777777, 88888888, 99999999, 12345678, 87654321]

/-- `ValidPasscode(pc)`, a precondition a host may assume; "no command tests it" (R230). -/
def validPasscode (pc : Nat) : Bool := 1 ≤ pc && pc ≤ 99999998 && !passcodeBlacklist.contains pc

end Sys2Proof.Machine
end

