-- ==== Sys2Proof/Machine/Curve.lean ====
section
/-! DEFINITION. P-256: the domain parameters (R170 to R173), the group law (R174, R175), scalar multiplication (R176), the
encodings (R177 to R179) and the commands SCALAR_MUL_G (R181) and POINT_CHECK (R182). -/

namespace Sys2Proof.Machine

open Sys2Proof

/-- The field prime `p = 2^256 - 2^224 + 2^192 + 2^96 - 1` (R170). -/
def fieldP : Nat := 0xFFFFFFFF00000001000000000000000000000000FFFFFFFFFFFFFFFFFFFFFFFF

/-- The curve coefficient `a = p - 3` (R171). -/
def curveA : Nat := fieldP - 3

/-- The curve coefficient `b` (R171). -/
def curveB : Nat := 0x5AC635D8AA3A93E7B3EBBD55769886BC651D06B0CC53B0F63BCE3C3E27D2604B

/-- `Gx` (R172). -/
def baseX : Nat := 0x6B17D1F2E12C4247F8BCE6E563A440F277037D812DEB33A0F4A13945D898C296

/-- `Gy` (R172). -/
def baseY : Nat := 0x4FE342E2FE1A7F9B8EE7EB4A7C0F9E162BCE33576B315ECECBB6406837BF51F5

/-- The group order `n` (R173). -/
def groupN : Nat := 0xFFFFFFFF00000000FFFFFFFFFFFFFFFFBCE6FAADA7179E84F3B9CAC2FC632551

/-- A group element: the point at infinity O, or an affine point with coordinates in `[0, p)` (R174). -/
inductive CurvePoint where
  | infinity
  | affine (x y : Nat)
deriving DecidableEq, Repr

/-- The base point G (R172). -/
def basePoint : CurvePoint := .affine baseX baseY

/-- Field subtraction (R170). -/
def fieldSub (u v : Nat) : Nat := (u + (fieldP - v % fieldP)) % fieldP

/-- `z^e mod m` by square and multiply over the low `bits` bits of `e`. -/
def powMod (m bits z e : Nat) : Nat :=
  match bits with
  | 0 => 1
  | bits + 1 =>
    if e % 2 = 1 then z * powMod m bits (z * z % m) (e / 2) % m
    else powMod m bits (z * z % m) (e / 2)

/-- "the inverse of a nonzero `z` is `z^(p-2) mod p`" (R170). -/
def fieldInv (z : Nat) : Nat := powMod fieldP 256 z (fieldP - 2)

/-- `-P` (R174). -/
def CurvePoint.neg (q : CurvePoint) : CurvePoint :=
  match q with
  | .infinity => .infinity
  | .affine x y => .affine x ((fieldP - y) % fieldP)

/-- The third point of the chord or tangent of slope `l` through `(x1, y1)`, from `x1`, `y1` and `x2` (R175). -/
def chordPoint (l x1 y1 x2 : Nat) : CurvePoint :=
  let x3 := fieldSub (fieldSub (l * l) x1) x2
  .affine x3 (fieldSub (l * fieldSub x1 x3) y1)

/-- `Add(P, Q)` (R175). -/
def CurvePoint.add (q r : CurvePoint) : CurvePoint :=
  match q, r with
  | .infinity, r => r
  | q, .infinity => q
  | .affine x1 y1, .affine x2 y2 =>
    if x1 = x2 ∧ (y1 + y2) % fieldP = 0 then .infinity
    else if x1 = x2 ∧ y1 = y2 then
      chordPoint ((3 * (x1 * x1) + curveA) * fieldInv (2 * y1) % fieldP) x1 y1 x2
    else
      chordPoint (fieldSub y2 y1 * fieldInv (fieldSub x2 x1) % fieldP) x1 y1 x2

/-- Double-and-add over the low `bits` bits of `k`. -/
def doubleAndAdd (bits k : Nat) (q : CurvePoint) : CurvePoint :=
  match bits with
  | 0 => .infinity
  | bits + 1 =>
    let rest := doubleAndAdd bits (k / 2) (q.add q)
    if k % 2 = 1 then rest.add q else rest

/-- `k·P` by double-and-add: "Any algorithm giving this value is conformant" (R176). Log 12. -/
def scalarMul (k : Nat) (q : CurvePoint) : CurvePoint := doubleAndAdd (k.log2 + 1) k q

/-- `k·P` by its value: `0·P = O` and `(k+1)·P = Add(k·P, P)` (R176). -/
def repeatedAdd (k : Nat) (q : CurvePoint) : CurvePoint :=
  match k with
  | 0 => .infinity
  | k + 1 => (repeatedAdd k q).add q

/-- `OnCurve(x, y)` (R177). -/
def onCurve (x y : Nat) : Bool :=
  x < fieldP && y < fieldP && y * y % fieldP == (x * x * x + curveA * x + curveB) % fieldP

/-- Group membership: O, or an affine point on the curve (R174). -/
def CurvePoint.valid (q : CurvePoint) : Bool :=
  match q with
  | .infinity => true
  | .affine x y => onCurve x y

/-- `ReduceN(s)` (R178). -/
def reduceN (s : List Octet) : Nat := intBE s % groupN

/-- `EncPoint(P) = 0x04 || be_32(X) || be_32(Y)`; "O has no encoding" (R179). -/
def encPoint (q : CurvePoint) : Option (List Octet) :=
  match q with
  | .infinity => none
  | .affine x y => some ([0x04#8] ++ octetsBE 32 x ++ octetsBE 32 y)

/-- `Exec SCALAR_MUL_G` (R181); a point with no encoding ends with POINT_AT_INFINITY (R266). -/
def scalarMulGOutcome (s : State) : Except EngineError Results :=
  let k := s.scalarOperand % groupN
  if k = 0 then .error .pointAtInfinity
  else
    match encPoint (scalarMul k basePoint) with
    | none => .error .pointAtInfinity
    | some o => .ok ⟨o, [], 0, 65⟩

/-- SCALAR_MUL_G (R181). -/
def execScalarMulG (s : State) : Host.Outcome State Fault Refusal := .next (s.complete (scalarMulGOutcome s))

/-- Whether 65 octets are the uncompressed encoding of a point on the curve (R182). -/
def pointOk (o : List Octet) : Bool :=
  o.getD 0 0 == 0x04#8 && onCurve (intBE ((o.drop 1).take 32)) (intBE ((o.drop 33).take 32))

/-- `Exec POINT_CHECK`: a point off the curve is a result, not an error (R182). -/
def pointCheckResults (s : State) : Results := ⟨[], [], if pointOk s.pointOctets then 1 else 0, 0⟩

/-- POINT_CHECK (R182). -/
def execPointCheck (s : State) : Host.Outcome State Fault Refusal := .next (s.completeOk (pointCheckResults s))

end Sys2Proof.Machine
end

