-- ==== Sys2Proof/Machine/Sha256.lean ====
section
/-! DEFINITION. SHA-256 (R140 to R144), the hash under the PBKDF2 unit. -/

namespace Sys2Proof.Machine

open Sys2Proof

/-- The eight working words `a .. h`, or the eight hash words `H0 .. H7` (R144). -/
structure HashWords where
  a : Word
  b : Word
  c : Word
  d : Word
  e : Word
  f : Word
  g : Word
  h : Word
deriving DecidableEq, Repr

/-- The initial hash value (R140). -/
def shaInit : HashWords where
  a := 0x6a09e667#32
  b := 0xbb67ae85#32
  c := 0x3c6ef372#32
  d := 0xa54ff53a#32
  e := 0x510e527f#32
  f := 0x9b05688c#32
  g := 0x1f83d9ab#32
  h := 0x5be0cd19#32

/-- The round constants `K[0..63]` (R141). -/
def shaK : List Word :=
  [0x428a2f98#32, 0x71374491#32, 0xb5c0fbcf#32, 0xe9b5dba5#32, 0x3956c25b#32, 0x59f111f1#32, 0x923f82a4#32, 0xab1c5ed5#32]
  ++ [0xd807aa98#32, 0x12835b01#32, 0x243185be#32, 0x550c7dc3#32, 0x72be5d74#32, 0x80deb1fe#32, 0x9bdc06a7#32, 0xc19bf174#32]
  ++ [0xe49b69c1#32, 0xefbe4786#32, 0x0fc19dc6#32, 0x240ca1cc#32, 0x2de92c6f#32, 0x4a7484aa#32, 0x5cb0a9dc#32, 0x76f988da#32]
  ++ [0x983e5152#32, 0xa831c66d#32, 0xb00327c8#32, 0xbf597fc7#32, 0xc6e00bf3#32, 0xd5a79147#32, 0x06ca6351#32, 0x14292967#32]
  ++ [0x27b70a85#32, 0x2e1b2138#32, 0x4d2c6dfc#32, 0x53380d13#32, 0x650a7354#32, 0x766a0abb#32, 0x81c2c92e#32, 0x92722c85#32]
  ++ [0xa2bfe8a1#32, 0xa81a664b#32, 0xc24b8b70#32, 0xc76c51a3#32, 0xd192e819#32, 0xd6990624#32, 0xf40e3585#32, 0x106aa070#32]
  ++ [0x19a4c116#32, 0x1e376c08#32, 0x2748774c#32, 0x34b0bcb5#32, 0x391c0cb3#32, 0x4ed8aa4a#32, 0x5b9cca4f#32, 0x682e6ff3#32]
  ++ [0x748f82ee#32, 0x78a5636f#32, 0x84c87814#32, 0x8cc70208#32, 0x90befffa#32, 0xa4506ceb#32, 0xbef9a3f7#32, 0xc67178f2#32]

/-- `Ch(e, f, g)` (R142). -/
def shaCh (e f g : Word) : Word := (e &&& f) ^^^ (~~~e &&& g)

/-- `Maj(a, b, c)` (R142). -/
def shaMaj (a b c : Word) : Word := (a &&& b) ^^^ (a &&& c) ^^^ (b &&& c)

/-- `Σ0(a)` (R142). -/
def shaBigSigma0 (a : Word) : Word := a.rotateRight 2 ^^^ a.rotateRight 13 ^^^ a.rotateRight 22

/-- `Σ1(e)` (R142). -/
def shaBigSigma1 (e : Word) : Word := e.rotateRight 6 ^^^ e.rotateRight 11 ^^^ e.rotateRight 25

/-- `σ0(x)` (R142). -/
def shaSmallSigma0 (x : Word) : Word := x.rotateRight 7 ^^^ x.rotateRight 18 ^^^ (x >>> 3)

/-- `σ1(x)` (R142). -/
def shaSmallSigma1 (x : Word) : Word := x.rotateRight 17 ^^^ x.rotateRight 19 ^^^ (x >>> 10)

/-- The padded message `M || 0x80 || 0x00 * z || be_8(8 * len(M))`, `z = (55 - len(M)) mod 64` (R143). -/
def shaPad (m : List Octet) : List Octet :=
  m ++ [0x80#8] ++ List.replicate ((119 - m.length % 64) % 64) 0x00#8 ++ octetsBE 8 (8 * m.length)

/-- The big-endian words of an octet string whose length is a multiple of 4 (R143). -/
def wordsBE (s : List Octet) : List Word :=
  match s with
  | a :: b :: c :: d :: rest => (a ++ b ++ c ++ d : BitVec 32) :: wordsBE rest
  | _ => []

/-- `n` more words of the message schedule, the newest word first: `W[t] = σ1(W[t-2]) + W[t-7] + σ0(W[t-15]) + W[t-16]`
(R144). -/
def shaExtend (n : Nat) (w : List Word) : List Word :=
  match n with
  | 0 => w
  | n + 1 =>
    shaExtend n ((shaSmallSigma1 (w.getD 1 0) + w.getD 6 0 + shaSmallSigma0 (w.getD 14 0) + w.getD 15 0) :: w)

/-- The message schedule `W[0..63]` of a block of 16 words (R144). -/
def shaSchedule (block : List Word) : List Word := (shaExtend 48 block.reverse).reverse

/-- One round with constant `kw.1 = K[t]` and schedule word `kw.2 = W[t]` (R144). -/
def shaRound (v : HashWords) (kw : Word × Word) : HashWords :=
  let t1 := v.h + shaBigSigma1 v.e + shaCh v.e v.f v.g + kw.1 + kw.2
  let t2 := shaBigSigma0 v.a + shaMaj v.a v.b v.c
  ⟨t1 + t2, v.a, v.b, v.c, v.d + t1, v.e, v.f, v.g⟩

/-- The word-wise sum modulo 2^32 (R144). -/
def HashWords.add (x y : HashWords) : HashWords :=
  ⟨x.a + y.a, x.b + y.b, x.c + y.c, x.d + y.d, x.e + y.e, x.f + y.f, x.g + y.g, x.h + y.h⟩

/-- The compression of one block of 16 words (R144). -/
def shaCompress (hash : HashWords) (block : List Word) : HashWords :=
  hash.add ((shaK.zip (shaSchedule block)).foldl shaRound hash)

/-- The hash after `n` blocks of 16 words, taken in order (R144). -/
def shaBlocks (n : Nat) (hash : HashWords) (words : List Word) : HashWords :=
  match n with
  | 0 => hash
  | n + 1 => shaBlocks n (shaCompress hash (words.take 16)) (words.drop 16)

/-- `be_4(H0) || .. || be_4(H7)` (R144). -/
def HashWords.octets (x : HashWords) : List Octet :=
  [x.a, x.b, x.c, x.d, x.e, x.f, x.g, x.h].flatMap fun w => octetsBE 4 w.toNat

/-- `SHA256(M)`, 32 octets (R144). -/
def sha256 (m : List Octet) : List Octet :=
  (shaBlocks ((shaPad m).length / 64) shaInit (wordsBE (shaPad m))).octets

end Sys2Proof.Machine
end

