-- ==== Sys2Proof/Machine/Kdf.lean ====
section
/-! DEFINITION. HMAC-SHA-256 (R145), PBKDF2 (R146, R147) and the command PBKDF2 (R148). -/

namespace Sys2Proof.Machine

open Sys2Proof

/-- The HMAC key block `K0`: a key longer than 64 octets is hashed first, then padded with 0x00 to 64 octets (R145). -/
def hmacKeyBlock (key : List Octet) : List Octet :=
  let k := if key.length > 64 then sha256 key else key
  k ++ List.replicate (64 - k.length) 0x00#8

/-- `HMAC(K, m)` with SHA-256 (R145). -/
def hmac (key m : List Octet) : List Octet :=
  sha256 (xorOctets (hmacKeyBlock key) (List.replicate 64 0x5c#8)
    ++ sha256 (xorOctets (hmacKeyBlock key) (List.replicate 64 0x36#8) ++ m))

/-- `n` repetitions of `U <- HMAC(P, U) ; T <- T xor U`, answering T (R146). -/
def pbkdf2Iterate (n : Nat) (p u t : List Octet) : List Octet :=
  match n with
  | 0 => t
  | n + 1 =>
    let u' := hmac p u
    pbkdf2Iterate n p u' (xorOctets t u')

/-- `F(P, S, c, i)`, the PBKDF2 block function for `c ≥ 1` and `i ≥ 1`, 32 octets (R146). -/
def pbkdf2Block (p s : List Octet) (c i : Nat) : List Octet :=
  let u := hmac p (s ++ octetsBE 4 i)
  pbkdf2Iterate (c - 1) p u u

/-- `PBKDF2(P, S, c, dkLen)`: the blocks 1 to `ceil(dkLen / 32)`, cut to `dkLen` octets (R147). -/
def pbkdf2 (p s : List Octet) (c dkLen : Nat) : List Octet :=
  ((List.range ((dkLen + 31) / 32)).flatMap fun j => pbkdf2Block p s c (j + 1)).take dkLen

/-- `Exec PBKDF2` (R148). -/
def pbkdf2Outcome (s : State) : Except EngineError Results :=
  if s.pwdLen.toNat > pwdMax ∨ s.saltLen.toNat > saltMax ∨ s.dkLen = 0#32 ∨ s.dkLen.toNat > dkMax then .error .badLength
  else if s.iterations = 0#32 then .error .badIterations
  else .ok ⟨pbkdf2 s.pwdOctets s.saltOctets s.iterations.toNat s.dkLen.toNat, [], 0, s.dkLen.toNat⟩

/-- PBKDF2 (R148). -/
def execPbkdf2 (s : State) : Host.Outcome State Fault Refusal := .next (s.complete (pbkdf2Outcome s))

end Sys2Proof.Machine
end

