-- ==== Sys2Proof/Machine/Verifier.lean ====
section
/-! DEFINITION. Base64 (R202, R203) and the command DERIVE_VERIFIER (R200, R201, R204). -/

namespace Sys2Proof.Machine

open Sys2Proof

/-- `WS_LENGTH = curve_field_byte_length(P-256) + 8 = 40` (R200). -/
def wsLength : Nat := 32 + 8

/-- The character of the standard base64 alphabet for a value in 0..63 (R202). -/
def base64Char (v : Nat) : Octet :=
  if v ≤ 25 then BitVec.ofNat 8 (0x41 + v)
  else if v ≤ 51 then BitVec.ofNat 8 (0x61 + (v - 26))
  else if v ≤ 61 then BitVec.ofNat 8 (0x30 + (v - 52))
  else if v = 62 then 0x2B#8
  else 0x2F#8

/-- The pad character `=` (R202). -/
def base64Pad : Octet := 0x3D#8

/-- The four characters of the 24-bit value of three octets (R203). -/
def base64Group (a b c : Octet) : List Octet :=
  let v := intBE [a, b, c]
  [base64Char (v / 2 ^ 18), base64Char (v / 2 ^ 12 % 64), base64Char (v / 2 ^ 6 % 64), base64Char (v % 64)]

/-- `B64(s)`: groups of three octets, the last one padded (R203). -/
def base64 (s : List Octet) : List Octet :=
  match s with
  | [] => []
  | [a] => (base64Group a 0#8 0#8).take 2 ++ [base64Pad, base64Pad]
  | [a, b] => (base64Group a b 0#8).take 3 ++ [base64Pad]
  | a :: b :: c :: rest => base64Group a b c ++ base64 rest

/-- The 80 octets of PBKDF2 output of the pipeline (R200, R201, R204 steps 1 and 2). -/
def verifierDk (s : State) : List Octet :=
  pbkdf2 s.passcodeOctets s.saltOctets s.iterations.toNat (2 * wsLength)

/-- The scalar w0 (R204 steps 3 and 4). -/
def verifierW0 (s : State) : Nat := reduceN ((verifierDk s).take wsLength)

/-- The scalar w1 (R204 steps 3 and 4). -/
def verifierW1 (s : State) : Nat := reduceN ((verifierDk s).drop wsLength)

/-- `Exec DERIVE_VERIFIER` (R204). PWD_LEN, PWD_BUF and DK_LEN are not read. -/
def deriveVerifierOutcome (s : State) : Except EngineError Results :=
  if s.saltLen.toNat > saltMax then .error .badLength
  else if s.iterations = 0#32 then .error .badIterations
  else if verifierW1 s = 0 then .error .pointAtInfinity
  else
    match encPoint (scalarMul (verifierW1 s) basePoint) with
    | none => .error .pointAtInfinity
    | some o =>
      let raw := octetsBE 32 (verifierW0 s) ++ o
      .ok ⟨raw, base64 raw, 132, 97⟩

/-- DERIVE_VERIFIER (R204). -/
def execDeriveVerifier (s : State) : Host.Outcome State Fault Refusal := .next (s.complete (deriveVerifierOutcome s))

end Sys2Proof.Machine
end

