-- ==== Sys2Proof/Machine/Dispatch.lean ====
section
/-! DEFINITION. One arm per command (R116). -/

namespace Sys2Proof.Machine

open Sys2Proof

def exec (i : Instr) (s : State) : Host.Outcome State Fault Refusal :=
  match i with
  | .nop => Sys2Proof.Machine.execNop s
  | .deriveVerifier => Sys2Proof.Machine.execDeriveVerifier s
  | .pbkdf2 => Sys2Proof.Machine.execPbkdf2 s
  | .scalarMulG => Sys2Proof.Machine.execScalarMulG s
  | .pointCheck => Sys2Proof.Machine.execPointCheck s
  | .encodeManualCode => Sys2Proof.Machine.execEncodeManualCode s
  | .verhoeffCheckDigit => Sys2Proof.Machine.execVerhoeffCheckDigit s

end Sys2Proof.Machine
end

