-- ==== Sys2Proof/Machine/Step.lean ====
section
/-! DEFINITION. One step of the machine: the next turn's transaction, completion or reset (R70, R113, R290). -/

namespace Sys2Proof.Machine

open Sys2Proof

/-- The engine's one step while BUSY, the completion: fetch the latched word, decode it and run it; a word that is no command
completes with ILLEGAL_CMD (R113, R116, R119). -/
def engineStep (s : State) : Host.Outcome State Fault Refusal :=
  match s.fetch with
  | none => .fault .nothingLatched
  | some w =>
    match decode w with
    | .ok i => exec i s
    | .error _ => execIllegal s

/-- The turn's move. The engine has no step while IDLE (R21), so its turn then passes (log 26). -/
def takeTurn (t : Turn) (s : State) : Host.Outcome State Fault Refusal :=
  match t with
  | .host a => .next (s.serve a)
  | .engine => if s.isBusy then engineStep s else .next s
  | .rst => .next s.resetBlock

/-- One step. With turns to come, the first is taken. With none, a BUSY engine completes (R117, log 2) and an IDLE block
waits (R291, log 3). -/
def step (s : State) : Host.Outcome State Fault Refusal :=
  match s.env.agenda with
  | t :: rest => takeTurn t { s with env := { s.env with agenda := rest } }
  | [] => if s.isBusy then engineStep s else .next s

/-- `s` after an accepted issue of the word (R110, R111), with the engine's turn next, so that the very next step is the
completion that runs it (log 9). -/
def State.withFetchWord (s : State) (nbits w : Nat) : State :=
  let t := s.start (BitVec.ofNat 32 (w % 2 ^ nbits))
  { t with env := { t.env with agenda := if t.env.agenda.isEmpty then [] else .engine :: t.env.agenda } }

end Sys2Proof.Machine
end

