-- ==== Sys2Proof/Machine/HostProgram.lean ====
section
/-! DEFINITION. The program notation: what a line stands for, and how a host program runs against the block (R97 to R99). -/

namespace Sys2Proof.Machine

open Sys2Proof

/-- `RD REG` (R97). -/
def rdTransaction (r : Register) : Transaction := .read (BitVec.ofNat 12 r.offset) .bits32

/-- `WR REG, v` (R97). -/
def wrTransaction (r : Register) (v : Word) : Transaction := .write (BitVec.ofNat 12 r.offset) .bits32 v

/-- `RDW BUF, j` (R97). -/
def rdwTransaction (b : Buffer) (j : Nat) : Transaction := .read (BitVec.ofNat 12 (b.base + 4 * j)) .bits32

/-- `WRW BUF, j, v` (R97). -/
def wrwTransaction (b : Buffer) (j : Nat) (v : Word) : Transaction :=
  .write (BitVec.ofNat 12 (b.base + 4 * j)) .bits32 v

/-- The words of `LOADBUF`: "`w_j` packs octets 4j to 4j+3 little-endian and octets beyond n are 0x00" (R98). -/
def packWords (octets : List Octet) : List Word :=
  (List.range ((octets.length + 3) / 4)).map fun j =>
    wordOfOctets (octets.getD (4 * j) 0) (octets.getD (4 * j + 1) 0) (octets.getD (4 * j + 2) 0)
      (octets.getD (4 * j + 3) 0)

/-- The expansion of `LOADBUF` (R98). -/
def loadTransactions (b : Buffer) (octets : List Octet) : List Transaction :=
  (packWords octets).mapIdx fun j w => wrwTransaction b j w

/-- What a host does for one line of R97: a transaction made once, or the loop of `POLL`, "the only control-flow form". -/
inductive HostAction where
  /-- One transaction. -/
  | once (t : Transaction)
  /-- `POLL REG, m, v`: repeat `RD REG` until `(data & m) = v`. -/
  | poll (r : Register) (m v : Word)
deriving DecidableEq, Repr

/-- `ISSUE MNEMONIC` = `WR CMD, <word of MNEMONIC>` (R98). -/
def issueAction (i : Instr) : HostAction := .once (wrTransaction .cmd (encode i))

/-- `WAIT` = `POLL STATUS, 0x1, 0x0` (R98). -/
def waitAction : HostAction := .poll .status 0x1#32 0x0#32

/-- What a line stands for (R97, R98). -/
def HostLine.actions (l : HostLine) : List HostAction :=
  match l with
  | .wr r v => [.once (wrTransaction r v)]
  | .rd r => [.once (rdTransaction r)]
  | .wrw b j v => [.once (wrwTransaction b j v)]
  | .rdw b j => [.once (rdwTransaction b j)]
  | .poll r m v => [.poll r m v]
  | .issue i => [issueAction i]
  | .wait => [waitAction]
  | .run i => [issueAction i, waitAction]
  | .loadBuf b s => (loadTransactions b s).map .once
  | .ack => [.once (wrTransaction .status 0x0000000E#32)]

/-- What a program stands for, one line after the other (R97). -/
def programActions (lines : List HostLine) : List HostAction := lines.flatMap HostLine.actions

/-- The transaction an action makes next; a `POLL` makes the read `RD REG` (R97). -/
def HostAction.transaction (a : HostAction) : Transaction :=
  match a with
  | .once t => t
  | .poll r _ _ => rdTransaction r

/-- Whether a `POLL REG, m, v` ends on the data read: `(data & m) = v` (R97). -/
def pollEnds (m v data : Word) : Bool := data &&& m == v

/-- Whether an action is over once its transaction has been answered: a `POLL` reads again until the data ends it (R97). -/
def HostAction.isOver (a : HostAction) (answer : Option Response) : Bool :=
  match a with
  | .once _ => true
  | .poll _ m v => answer.any fun r => pollEnds m v r.data

/-- A host program under way: what it still has to do, and the block. -/
structure HostRun where
  todo : List HostAction
  block : State
deriving DecidableEq, Repr

/-- Whose move is next while a host program runs: the program's own, or any other turn of the machine (R70). Log 24. -/
inductive HostMove where
  /-- The program makes its next transaction. -/
  | program
  /-- The engine, a reset, or another host's transaction. -/
  | other (t : Turn)
deriving DecidableEq, Repr

/-- The program's own move: the next transaction is served; an action that is not over stays next (R97). -/
def HostRun.advance (c : HostRun) : HostRun :=
  match c.todo with
  | [] => c
  | a :: rest =>
    let t := c.block.serve a.transaction
    ⟨if a.isOver t.env.response then rest else a :: rest, t⟩

/-- One move. -/
def HostRun.move (c : HostRun) (m : HostMove) : Host.Outcome HostRun Fault Refusal :=
  match m with
  | .program => .next c.advance
  | .other turn =>
    match takeTurn turn c.block with
    | .next t => .next { c with block := t }
    | .fault f => .fault f
    | .refused r => .refused r

/-- The moves in order, stopping at the first fault or refusal. -/
def HostRun.moves (c : HostRun) (ms : List HostMove) : Host.Outcome HostRun Fault Refusal :=
  match ms with
  | [] => .next c
  | m :: rest =>
    match c.move m with
    | .next d => d.moves rest
    | .fault f => .fault f
    | .refused r => .refused r

end Sys2Proof.Machine
end

