-- ==== Sys2Proof/Safety.lean ====
section
/-! DEFINITION. What counts as a safe run, the invariant of reachable states, and the relations between states that claims
are stated in. -/

namespace Sys2Proof.Machine

open Sys2Proof

/-- A safe outcome: the machine goes on. -/
def goesOn (o : Host.Outcome State Fault Refusal) : Bool :=
  match o with
  | .next _ => true
  | .fault _ => false
  | .refused _ => false

/-- A run has ended: "the host has performed its last transaction and the block is IDLE" (D38). -/
def State.ended (s : State) : Bool := s.env.agenda.isEmpty && !s.isBusy

/-- The octet of OUT_BUF at index `i` (R51). -/
def State.outAt (s : State) (i : Nat) : Octet := Memory.read s.mem (Buffer.out.base + i)

/-- The octet of B64_BUF at index `i` (R52). -/
def State.b64At (s : State) (i : Nat) : Octet := Memory.read s.mem (Buffer.b64.base + i)

/-- Every output is zero, as an accepted issue leaves it (R111). -/
structure State.OutputsZero (s : State) : Prop where
  result : s.result = 0#32
  resultLen : s.resultLen = 0#32
  out : ∀ i < Buffer.out.size, s.outAt i = 0#8
  b64 : ∀ i < Buffer.b64.size, s.b64At i = 0#8

/-- The invariant of the block: every state a run from reset reaches has it. -/
structure State.Inv (s : State) : Prop where
  /-- The memory is in canonical form. -/
  memWf : Memory.wf s.mem
  /-- Only octets of buffers are listed (R45, R62). -/
  memInBuffers : ∀ c ∈ s.mem, (bufferAt c.1).isSome
  /-- A command is latched exactly while BUSY (R53). -/
  latchedWhileBusy : s.phase = .busy ↔ s.latch.isSome
  /-- The latched command is the one CMD holds (R111, R112). -/
  latchIsCmd : ∀ w, s.latch = some w → s.cmd = w
  /-- While BUSY nothing of an earlier completion is left (R111). -/
  busyClear : s.phase = .busy → s.done = false ∧ s.err = false ∧ s.errcode = 0#8 ∧ s.OutputsZero
  /-- The error code is one the spec lists (R260, R267). -/
  errcodeKnown : s.errcode.toNat ≤ 6
  /-- ERR is never set without a code (R29, R31). -/
  errHasCode : s.err = true → s.errcode ≠ 0#8
  /-- An error completion leaves no output (R115, R269). -/
  errorNoOutput : s.errcode ≠ 0#8 → s.OutputsZero
  /-- OUT_BUF is zero from RESULT_LEN on (R51). -/
  outTailZero : ∀ i, s.resultLen.toNat ≤ i → i < Buffer.out.size → s.outAt i = 0#8
  /-- RESULT_LEN never exceeds OUT_BUF (R35). -/
  resultLenFits : s.resultLen.toNat ≤ Buffer.out.size
  /-- B64_BUF holds text only after a DERIVE_VERIFIER (R52). -/
  b64OnlyVerifier : s.cmd ≠ encode .deriveVerifier → ∀ i < Buffer.b64.size, s.b64At i = 0#8
  /-- An illegal word that has completed reads ILLEGAL_CMD, and no legal one does (R119, R261). -/
  illegalReported : s.phase = .idle → (legalWord s.cmd = false ↔ s.errcode = 0x01#8)

/-- `s` after an error completion with a code: ERR, ERRCODE and DONE set, the latch empty, the block IDLE, everything else
as it was (R113, R115, R269). -/
def State.afterError (s : State) (code : Octet) : State :=
  { s with err := true, errcode := code, done := true, latch := none, phase := .idle }

/-- `s` after a successful completion that left the octets `m` and the given RESULT and RESULT_LEN: DONE set, the latch
empty, the block IDLE, everything else as it was (R113, R114). -/
def State.afterOk (s : State) (m : Memory) (result resultLen : Word) : State :=
  { s with mem := m, result := result, resultLen := resultLen, done := true, latch := none, phase := .idle }

/-- `s` after a transaction that changed nothing of the block and was answered as given. -/
def State.answered (s : State) (status : BusStatus) (data : Word) : State :=
  { s with env := { s.env with response := some ⟨status, data⟩ } }

/-- In `s`, a 32-bit read at offset `o` is answered OKAY with the word `d` and changes nothing of the block. -/
def State.ReadsAs (s : State) (o : Offset) (d : Word) : Prop := s.serve (.read o .bits32) = s.answered .okay d

/-- The two states hold the same inputs: every RW input register and every octet outside OUT_BUF and B64_BUF (R71). -/
structure SameInputs (s t : State) : Prop where
  passcode : t.passcode = s.passcode
  iterations : t.iterations = s.iterations
  saltLen : t.saltLen = s.saltLen
  pwdLen : t.pwdLen = s.pwdLen
  dkLen : t.dkLen = s.dkLen
  discriminator : t.discriminator = s.discriminator
  vid : t.vid = s.vid
  pid : t.pid = s.pid
  digitsLen : t.digitsLen = s.digitsLen
  octets : ∀ a, Buffer.out.holds a = false → Buffer.b64.holds a = false → Memory.read t.mem a = Memory.read s.mem a

/-- The two states report the same completion: flags, code, results and the octets of the output buffers. -/
structure SameOutputs (s t : State) : Prop where
  done : t.done = s.done
  err : t.err = s.err
  errcode : t.errcode = s.errcode
  result : t.result = s.result
  resultLen : t.resultLen = s.resultLen
  out : ∀ i < Buffer.out.size, t.outAt i = s.outAt i
  b64 : ∀ i < Buffer.b64.size, t.b64At i = s.b64At i

/-- The two buffers' first `n` octets are equal. -/
def SameOctets (b : Buffer) (n : Nat) (s t : State) : Prop :=
  ∀ i < n, Memory.read t.mem (b.base + i) = Memory.read s.mem (b.base + i)

/-- The two states agree on what the command reads, and on nothing more (R96): the registers, and of each buffer the operative
octets, none beyond the buffer's own. -/
def SameReads (i : Instr) (s t : State) : Prop :=
  match i with
  | .nop => True
  | .deriveVerifier =>
    t.passcode = s.passcode ∧ t.iterations = s.iterations ∧ t.saltLen = s.saltLen ∧
      SameOctets .salt (min s.saltLen.toNat saltMax) s t
  | .pbkdf2 =>
    t.pwdLen = s.pwdLen ∧ SameOctets .pwd (min s.pwdLen.toNat pwdMax) s t ∧ t.saltLen = s.saltLen ∧
      SameOctets .salt (min s.saltLen.toNat saltMax) s t ∧ t.iterations = s.iterations ∧ t.dkLen = s.dkLen
  | .scalarMulG => SameOctets .scalar 32 s t
  | .pointCheck => SameOctets .point 65 s t
  | .encodeManualCode =>
    t.discriminator = s.discriminator ∧ t.passcode = s.passcode ∧ t.vid = s.vid ∧ t.pid = s.pid
  | .verhoeffCheckDigit => t.digitsLen = s.digitsLen ∧ SameOctets .digit (min s.digitsLen.toNat digitsMax) s t

/-- The base64 value of a character of the standard alphabet (R202). -/
def base64Value (o : Octet) : Nat :=
  let v := o.toNat
  if 0x41 ≤ v ∧ v ≤ 0x5A then v - 0x41
  else if 0x61 ≤ v ∧ v ≤ 0x7A then v - 0x61 + 26
  else if 0x30 ≤ v ∧ v ≤ 0x39 then v - 0x30 + 52
  else if v = 0x2B then 62
  else 63

/-- What a base64 text decodes to: the reading of R203 backwards, for R205's "B64_BUF decoded". -/
def base64Decode (text : List Octet) : List Octet :=
  match text with
  | a :: b :: c :: d :: rest =>
    let v := base64Value a * 2 ^ 18 + base64Value b * 2 ^ 12
    let group :=
      if c = base64Pad then (octetsBE 3 v).take 1
      else if d = base64Pad then (octetsBE 3 (v + base64Value c * 2 ^ 6)).take 2
      else octetsBE 3 (v + base64Value c * 2 ^ 6 + base64Value d)
    group ++ base64Decode rest
  | _ => []

end Sys2Proof.Machine
end

