-- ==== Sys2Proof/Certificates/Slice0/Obligations.lean ====
section
/-! DEFINITION. The statements for the provers. -/

open Sys2Proof Sys2Proof.Machine

/-! ### Encoding -/

/-- R92: the word of each command, and no other word, decodes to it. -/
def Obligations.CommandWordsAreTheListedOnes : Prop :=
  ∀ w : Word,
    (decode w = .ok .nop ↔ w = 0x00000000#32) ∧
    (decode w = .ok .deriveVerifier ↔ w = 0x00000001#32) ∧
    (decode w = .ok .pbkdf2 ↔ w = 0x00000002#32) ∧
    (decode w = .ok .scalarMulG ↔ w = 0x00000003#32) ∧
    (decode w = .ok .pointCheck ↔ w = 0x00000004#32) ∧
    (decode w = .ok .encodeManualCode ↔ w = 0x00000005#32) ∧
    (decode w = .ok .verhoeffCheckDigit ↔ w = 0x00000006#32)

/-- R90, R95: the octets of every word decode as the word does, and decoding and encoding are inverse to each other on the
legal words. -/
def Obligations.DecodeAndEncodeAgree : Prop :=
  (∀ i : Instr, decodeOctets (octetsOfWord (encode i)) = .ok i) ∧
  (∀ w : Word, decodeOctets (octetsOfWord w) = decode w) ∧
  (∀ (w : Word) (i : Instr), decode w = .ok i → encode i = w) ∧
  (∀ w : Word, legalWord w = true ↔ ∃ i : Instr, encode i = w)

/-- R92: a few words of the table, as the table numbers their bits. -/
def Obligations.SampleTableWordsDecode : Prop :=
  decodeTableWord 32 0x00000000 = some .nop ∧ decodeTableWord 32 0x00000001 = some .deriveVerifier ∧
  decodeTableWord 32 0x00000002 = some .pbkdf2 ∧ decodeTableWord 32 0x00000003 = some .scalarMulG ∧
  decodeTableWord 32 0x00000004 = some .pointCheck ∧ decodeTableWord 32 0x00000005 = some .encodeManualCode ∧
  decodeTableWord 32 0x00000006 = some .verhoeffCheckDigit ∧ decodeTableWord 32 0x00000007 = none ∧
  decodeTableWord 32 0x00000100 = none ∧ decodeTableWord 32 0xFFFFFFFF = none

/-! ### Issue -/

/-- R110, R111: a CMD write while IDLE stores the word and performs the start actions, and nothing else starts a command. -/
def Obligations.AcceptedIssueStartsTheCommand : Prop :=
  (∀ (s : State) (v : Word), s.phase = .idle →
    ∃ m : Memory,
      s.serve (.write 0x008#12 .bits32 v) =
        { s.answered .okay 0#32 with
          cmd := v, done := false, err := false, errcode := 0x00#8, result := 0#32, resultLen := 0#32, mem := m,
          latch := some v, phase := .busy } ∧
      (∀ a, 0x300 ≤ a → a < 0x400 → Memory.read m a = 0x00#8) ∧
      (∀ a, 0x400 ≤ a → a < 0x484 → Memory.read m a = 0x00#8) ∧
      (∀ a, a < 0x300 ∨ 0x484 ≤ a → Memory.read m a = Memory.read s.mem a)) ∧
  (∀ (s t : State) (turn : Turn), s.phase = .idle → takeTurn turn s = .next t → t.phase = .busy →
    ∃ v : Word, turn = .host (.write 0x008#12 .bits32 v))

/-- R112: a CMD write while BUSY is dropped: only WBUSY is set, with an OKAY response. -/
def Obligations.IssueWhileBusyIsDropped : Prop :=
  ∀ (s : State) (v : Word), s.phase = .busy →
    s.serve (.write 0x008#12 .bits32 v) = { s.answered .okay 0#32 with wbusy := true }

/-- R93, R119, R261: a word with RSV ≠ 0 or OP ≥ 0x07 is issued like any other while IDLE and completes with ILLEGAL_CMD;
while BUSY it is dropped. -/
def Obligations.IllegalWordsCompleteWithIllegalCmd : Prop :=
  ∀ (s : State) (v : Word), v.extractLsb' 8 24 ≠ 0#24 ∨ 0x07 ≤ (v.extractLsb' 0 8).toNat →
    (s.phase = .idle →
      ∃ t : State, s.serve (.write 0x008#12 .bits32 v) = t ∧ t.cmd = v ∧ t.latch = some v ∧ t.phase = .busy ∧
        engineStep t = .next (t.afterError 0x01#8) ∧ (t.afterError 0x01#8).OutputsZero ∧
        (t.afterError 0x01#8).readRegister .cmd = v ∧
        (s.wbusy = false → (t.afterError 0x01#8).readRegister .status = 0x00000106#32)) ∧
    (s.phase = .busy → s.serve (.write 0x008#12 .bits32 v) = { s.answered .okay 0#32 with wbusy := true })

/-! ### Transactions -/

/-- R63, R270: an access that is not a 32-bit one at a multiple of 4 is answered with a bus error and data 0 and changes
nothing of the block; every other access is answered OKAY. -/
def Obligations.OnlyAlignedWordAccessesAreAdmitted : Prop :=
  ∀ (s : State) (t : Transaction),
    (t.size ≠ .bits32 ∨ t.offset.toNat % 4 ≠ 0 → s.serve t = s.answered .busError 0#32) ∧
    (t.size = .bits32 → t.offset.toNat % 4 = 0 →
      ∃ d : Word, (s.serve t).env.response = some ⟨.okay, d⟩)

/-- R68: no read changes anything of the block, at any offset, width or phase. -/
def Obligations.ReadsHaveNoSideEffect : Prop :=
  ∀ (s : State) (o : Offset) (size : AccessSize),
    ∃ (r : Response) (n : Nat),
      s.serve (.read o size) = { s with env := { s.env with response := some r, draws := n } }

/-- R24: ID reads 0x4D434531 in every state, and a write to it is ignored at any phase without setting WBUSY. -/
def Obligations.IdIsHardwired : Prop :=
  ∀ (s : State) (v : Word),
    s.serve (.read 0x000#12 .bits32) = s.answered .okay 0x4D434531#32 ∧
    s.serve (.write 0x000#12 .bits32 v) = s.answered .okay 0#32

/-- R45, R64: every offset the map does not name reads 0 and ignores writes, with an OKAY response. -/
def Obligations.ReservedOffsetsReadZeroAndIgnoreWrites : Prop :=
  ∀ (s : State) (o : Offset) (v : Word), o.toNat % 4 = 0 →
    (o.toNat = 0x01C ∨ (0x044 ≤ o.toNat ∧ o.toNat < 0x100) ∨ (0x1A0 ≤ o.toNat ∧ o.toNat < 0x1C0) ∨
      (0x204 ≤ o.toNat ∧ o.toNat < 0x240) ∨ (0x280 ≤ o.toNat ∧ o.toNat < 0x300) ∨ 0x484 ≤ o.toNat) →
    s.serve (.read o .bits32) = s.answered .okay 0#32 ∧ s.serve (.write o .bits32 v) = s.answered .okay 0#32

/-- R71: while BUSY a write to an RW input is dropped and sets WBUSY, while IDLE it is stored in the register's implemented
bits or in the four octets of the buffer's word; RO offsets ignore writes at any phase. -/
def Obligations.InputWritesAreStoredOrDropped : Prop :=
  ∀ (s : State) (v : Word),
    (s.phase = .busy →
      (∀ r ∈ [Register.passcode, .iterations, .saltLen, .pwdLen, .dkLen, .discriminator, .vid, .pid, .digitsLen],
        s.serve (.write (BitVec.ofNat 12 r.offset) .bits32 v) = { s.answered .okay 0#32 with wbusy := true }) ∧
      (∀ b ∈ [Buffer.salt, .pwd, .scalar, .point, .digit], ∀ j, 4 * j < b.size →
        s.serve (.write (BitVec.ofNat 12 (b.base + 4 * j)) .bits32 v) =
          { s.answered .okay 0#32 with wbusy := true })) ∧
    (s.phase = .idle →
      s.serve (.write 0x020#12 .bits32 v) = { s.answered .okay 0#32 with passcode := v } ∧
      s.serve (.write 0x024#12 .bits32 v) = { s.answered .okay 0#32 with iterations := v } ∧
      s.serve (.write 0x028#12 .bits32 v) = { s.answered .okay 0#32 with saltLen := v } ∧
      s.serve (.write 0x02C#12 .bits32 v) = { s.answered .okay 0#32 with pwdLen := v } ∧
      s.serve (.write 0x030#12 .bits32 v) = { s.answered .okay 0#32 with dkLen := v } ∧
      s.serve (.write 0x034#12 .bits32 v) = { s.answered .okay 0#32 with discriminator := v.extractLsb' 0 16 } ∧
      s.serve (.write 0x038#12 .bits32 v) = { s.answered .okay 0#32 with vid := v.extractLsb' 0 16 } ∧
      s.serve (.write 0x03C#12 .bits32 v) = { s.answered .okay 0#32 with pid := v.extractLsb' 0 16 } ∧
      s.serve (.write 0x040#12 .bits32 v) = { s.answered .okay 0#32 with digitsLen := v } ∧
      (∀ b ∈ [Buffer.salt, .pwd, .scalar, .point, .digit], ∀ j, 4 * j < b.size →
        ∃ m : Memory,
          s.serve (.write (BitVec.ofNat 12 (b.base + 4 * j)) .bits32 v) = { s.answered .okay 0#32 with mem := m } ∧
          (∀ k < 4, Memory.read m (b.base + 4 * j + k) = v.extractLsb' (8 * k) 8) ∧
          (∀ a, a < b.base + 4 * j ∨ b.base + 4 * j + 4 ≤ a → Memory.read m a = Memory.read s.mem a))) ∧
    (∀ r ∈ [Register.id, .result, .resultLen],
      s.serve (.write (BitVec.ofNat 12 r.offset) .bits32 v) = s.answered .okay 0#32) ∧
    (∀ b ∈ [Buffer.out, .b64], ∀ j, 4 * j < b.size →
      s.serve (.write (BitVec.ofNat 12 (b.base + 4 * j)) .bits32 v) = s.answered .okay 0#32)

/-- R65: octet i of a buffer is bits [8(i mod 4)+7 : 8(i mod 4)] of the word at `B + 4(i div 4)`, as a read of that word
returns it whenever the read is no free draw. -/
def Obligations.BufferOctetsArePackedLittleEndian : Prop :=
  ∀ (s : State) (b : Buffer) (i : Nat), i < b.size → (s.phase = .idle ∨ b.isOutput = false) →
    ∃ d : Word,
      s.serve (.read (BitVec.ofNat 12 (b.base + 4 * (i / 4))) .bits32) = s.answered .okay d ∧
      d.extractLsb' (8 * (i % 4)) 8 = Memory.read s.mem (b.base + i)

/-- R24 to R44, R65, R72: what each read returns. In every phase a register reads its own field, with its reserved bits 0 (ID its
constant, CTRL 0), but that RESULT and RESULT_LEN read 0 while BUSY. A word of a buffer reads its four octets, but that while
BUSY each read of OUT_BUF or B64_BUF is a draw of its own, of a value nothing fixes; that the draws are numbered by a count
which each one advances is the model's (log 4). No transaction but an accepted issue or a soft reset changes an octet of the
output buffers. -/
def Obligations.OutputReadsWhileBusyAreFreeDraws : Prop :=
  (∀ s : State,
    (s.ReadsAs 0x000#12 0x4D434531#32 ∧ s.ReadsAs 0x004#12 0#32 ∧ s.ReadsAs 0x008#12 s.cmd ∧
      s.ReadsAs 0x00C#12 (0#16 ++ s.errcode ++ 0#4 ++ BitVec.ofBool s.wbusy ++ BitVec.ofBool s.err ++
        BitVec.ofBool s.done ++ BitVec.ofBool (s.phase == .busy)) ∧
      s.ReadsAs 0x010#12 (s.irqEn.setWidth 32) ∧
      s.ReadsAs 0x020#12 s.passcode ∧ s.ReadsAs 0x024#12 s.iterations ∧ s.ReadsAs 0x028#12 s.saltLen ∧
      s.ReadsAs 0x02C#12 s.pwdLen ∧ s.ReadsAs 0x030#12 s.dkLen ∧ s.ReadsAs 0x034#12 (s.discriminator.setWidth 32) ∧
      s.ReadsAs 0x038#12 (s.vid.setWidth 32) ∧ s.ReadsAs 0x03C#12 (s.pid.setWidth 32) ∧ s.ReadsAs 0x040#12 s.digitsLen) ∧
    (s.phase = .idle → s.ReadsAs 0x014#12 s.result ∧ s.ReadsAs 0x018#12 s.resultLen) ∧
    (s.phase = .busy → s.ReadsAs 0x014#12 0#32 ∧ s.ReadsAs 0x018#12 0#32) ∧
    (∀ (b : Buffer) (j : Nat), 4 * j < b.size → (s.phase = .idle ∨ b ∈ [Buffer.salt, .pwd, .scalar, .point, .digit]) →
      ∃ d : Word, s.ReadsAs (BitVec.ofNat 12 (b.base + 4 * j)) d ∧
        ∀ k < 4, d.extractLsb' (8 * k) 8 = Memory.read s.mem (b.base + 4 * j + k)) ∧
    (s.phase = .busy → ∀ b ∈ [Buffer.out, .b64], ∀ j, 4 * j < b.size →
      s.serve (.read (BitVec.ofNat 12 (b.base + 4 * j)) .bits32) =
        { s with env := { s.env with
            response := some ⟨.okay, Config.freeRead s.env.draws⟩, draws := s.env.draws + 1 } })) ∧
  (∀ (s : State) (t : Transaction), softResets t = false →
    (s.phase = .idle → ∀ v : Word, t ≠ .write 0x008#12 .bits32 v) →
    (∀ i < Buffer.out.size, (s.serve t).outAt i = s.outAt i) ∧
    (∀ i < Buffer.b64.size, (s.serve t).b64At i = s.b64At i))

/-! ### STATUS and the interrupt -/

/-- R27 to R32, R273: a write to STATUS clears the W1C flags whose bits are 1 and nothing else, at any phase; a read returns
the flags at their bits. -/
def Obligations.StatusWritesClearTheirFlags : Prop :=
  ∀ (s : State) (v : Word),
    s.serve (.write 0x00C#12 .bits32 v) =
      { s.answered .okay 0#32 with
        done := if v.getLsbD 1 then false else s.done
        err := if v.getLsbD 2 then false else s.err
        wbusy := if v.getLsbD 3 then false else s.wbusy } ∧
    ∃ d : Word, s.serve (.read 0x00C#12 .bits32) = s.answered .okay d ∧
      (d.getLsbD 0 = true ↔ s.phase = .busy) ∧ d.getLsbD 1 = s.done ∧ d.getLsbD 2 = s.err ∧ d.getLsbD 3 = s.wbusy ∧
      d.extractLsb' 4 4 = 0#4 ∧ d.extractLsb' 8 8 = s.errcode ∧ d.extractLsb' 16 16 = 0#16

/-- R54, R276: the interrupt is raised exactly while an enabled flag is set, and is low after reset; masking every source lowers it and keeps the
flags; a STATUS write lowers it exactly when it clears every enabled flag that is set. -/
def Obligations.InterruptFollowsEnabledFlags : Prop :=
  State.reset.irq = false ∧
  ∀ (s : State) (v : Word),
    (s.irq = true ↔ (s.done = true ∧ s.irqEn.getLsbD 0 = true) ∨ (s.err = true ∧ s.irqEn.getLsbD 1 = true) ∨
      (s.wbusy = true ∧ s.irqEn.getLsbD 2 = true)) ∧
    s.serve (.write 0x010#12 .bits32 v) = { s.answered .okay 0#32 with irqEn := v.extractLsb' 0 3 } ∧
    (s.serve (.write 0x010#12 .bits32 0#32)).irq = false ∧
    ((s.serve (.write 0x00C#12 .bits32 v)).irq = false ↔
      (s.done = true → s.irqEn.getLsbD 0 = true → v.getLsbD 1 = true) ∧
      (s.err = true → s.irqEn.getLsbD 1 = true → v.getLsbD 2 = true) ∧
      (s.wbusy = true → s.irqEn.getLsbD 2 = true → v.getLsbD 3 = true))

/-! ### Reset -/

/-- R291: after a reset every register reads its reset value, every octet is 0, the block is IDLE with nothing latched and
the interrupt is low. -/
def Obligations.ResetStateReadsAsListed : Prop :=
  State.reset.phase = .idle ∧ State.reset.latch = none ∧ State.reset.irq = false ∧
  State.reset.readRegister .id = 0x4D434531#32 ∧
  (∀ r : Register, r ≠ .id → State.reset.readRegister r = 0#32) ∧
  (∀ a, Memory.read State.reset.mem a = 0x00#8)

/-- R293: a CTRL write with bit 0 set performs the reset at any phase; with bit 0 clear it has no effect. -/
def Obligations.SoftResetIsAFullReset : Prop :=
  ∀ (s : State) (v : Word),
    (v.getLsbD 0 = true →
      s.serve (.write 0x004#12 .bits32 v) =
        { State.reset with env := { s.env with response := some ⟨.okay, 0#32⟩ } }) ∧
    (v.getLsbD 0 = false → s.serve (.write 0x004#12 .bits32 v) = s.answered .okay 0#32)

/-- R292: a reset, from either source, ends a command in flight without completing it, and nothing else does: every other
move leaves the block BUSY with the same command, or is the completion, which sets DONE. -/
def Obligations.OnlyAResetAbortsACommand : Prop :=
  ∀ (s t : State) (turn : Turn), s.phase = .busy → takeTurn turn s = .next t →
    (turn = .rst → t = { State.reset with env := s.env }) ∧
    (∀ a : Transaction, turn = .host a → softResets a = true → t = { State.reset with env := t.env }) ∧
    (∀ a : Transaction, turn = .host a → softResets a = false →
      t.phase = .busy ∧ t.latch = s.latch ∧ t.cmd = s.cmd) ∧
    (turn = .engine → t.phase = .idle ∧ t.latch = none ∧ t.done = true ∧ t.cmd = s.cmd)

/-! ### The step -/

/-- R113, R116: while BUSY with a latched word that decodes to i, the engine's step is exec of i: at the state itself when no
turn is left, and with its turn taken off the agenda when the engine's turn is next. Two parts of this are the model's own and
no rule's: that turns come from an agenda (log 1), and that the completion comes when no turn is left (log 2, read from the
fairness of R117). -/
def Obligations.StepRunsTheDecodedCommand : Prop :=
  ∀ (s : State) (w : Word) (i : Instr), s.phase = .busy → s.fetch = some w → decode w = .ok i → i.wellFormed = true →
    (s.env.agenda = [] → step s = exec i s) ∧
    (∀ rest : List Turn, s.env.agenda = .engine :: rest →
      step s = exec i { s with env := { s.env with agenda := rest } })

/-- Log 9: where the model places a word, the very next step runs it, on the state an accepted issue of it leaves. That it does so
with no turn left rests on log 2. -/
def Obligations.PlacedWordRunsNext : Prop :=
  ∀ (s : State) (w : Nat) (i : Instr), decodeTableWord 32 w = some i →
    ∃ t : State, step (s.withFetchWord 32 w) = .next t ∧
      exec i { s.start (BitVec.ofNat 32 w) with env := s.env } = .next t

/-- The invariant holds at reset. -/
def Obligations.InvariantHoldsAtReset : Prop := State.reset.Inv

/-- Every step keeps the invariant (R31, R34, R35, R51 to R53, R111 to R115, R267, R269). -/
def Obligations.EveryStepKeepsTheInvariant : Prop :=
  ∀ s t : State, s.Inv → step s = .next t → t.Inv

/-- The machine never stops: from a state with the invariant, every step answers a next state (R269). -/
def Obligations.StepNeverStops : Prop := ∀ s : State, s.Inv → ∃ t : State, step s = .next t

/-- R117, logs 1 and 2: once every turn of the agenda is served, at most one step more leaves the block IDLE: no command stays
in flight. -/
def Obligations.EveryRunEndsIdle : Prop :=
  ∀ s : State, s.Inv →
    ∃ t : State, Sys2Proof.core.run (s.env.agenda.length + 1) s = .next t ∧ t.ended = true

/-- R110, R113: a host's CMD write of a command's word to an IDLE block, with nothing else to come, is run by the second
step. That the write is the one turn of an agenda is the model's (log 1), and so is that the completion is the next step once
no turn is left (log 2, read from the fairness of R117). -/
def Obligations.IssueThenCompletionRunsTheCommand : Prop :=
  ∀ (s : State) (i : Instr), s.phase = .idle → s.env.agenda = [.host (.write 0x008#12 .bits32 (encode i))] →
    ∃ u t : State, step s = .next u ∧ u.latch = some (encode i) ∧ u.OutputsZero ∧ SameInputs s u ∧
      exec i u = .next t ∧ step u = .next t

/-! ### Completion -/

/-- R113 to R115, R55: every command ends in a completion that sets DONE, empties the latch and makes the block IDLE; it leaves
every input, CMD, WBUSY and IRQ_EN as they were; an error completion writes no output. -/
def Obligations.EveryCommandCompletes : Prop :=
  ∀ (i : Instr) (s : State),
    ∃ t : State, exec i s = .next t ∧ t.phase = .idle ∧ t.latch = none ∧ t.done = true ∧
      SameInputs s t ∧ t.cmd = s.cmd ∧ t.wbusy = s.wbusy ∧ t.irqEn = s.irqEn ∧ t.env = s.env ∧
      ((t.err = s.err ∧ t.errcode = s.errcode) ∨
        ∃ e : EngineError, e ≠ .illegalCmd ∧ t = s.afterError e.code)

/-- R96, R121, D36: what a command reports depends on nothing but the registers and the octets R96 lists for it. -/
def Obligations.CommandsDependOnlyOnTheirOperands : Prop :=
  ∀ (i : Instr) (s s' t t' : State), SameReads i s s' → SameOutputs s s' →
    exec i s = .next t → exec i s' = .next t' → SameOutputs t t'

/-- R73: whatever transactions but a soft reset arrive while a command is in flight, the command, its inputs and what its
completion reports are as at its issue. -/
def Obligations.BusyTransactionsCannotChangeTheResult : Prop :=
  ∀ (s : State) (ts : List Transaction), s.Inv → s.phase = .busy → (∀ t ∈ ts, softResets t = false) →
    (s.serveAll ts).phase = .busy ∧ (s.serveAll ts).latch = s.latch ∧ (s.serveAll ts).cmd = s.cmd ∧
    SameInputs s (s.serveAll ts) ∧
    ∃ t t' : State, engineStep s = .next t ∧ engineStep (s.serveAll ts) = .next t' ∧ SameOutputs t t'

/-! ### NOP -/

/-- R118: NOP writes RESULT and RESULT_LEN zero and completes; issued to an IDLE block it leaves every output zero and STATUS
0x00000002 if WBUSY was 0; written while BUSY it is dropped. -/
def Obligations.NopClearsTheOutputs : Prop :=
  (∀ s : State, exec .nop s = .next (s.afterOk s.mem 0#32 0#32)) ∧
  (∀ s : State, s.phase = .idle →
    ∃ t : State, engineStep (s.serve (.write 0x008#12 .bits32 0x00000000#32)) = .next t ∧ t.OutputsZero ∧
      SameInputs s t ∧ (s.wbusy = false → t.readRegister .status = 0x00000002#32)) ∧
  (∀ s : State, s.phase = .busy →
    s.serve (.write 0x008#12 .bits32 0x00000000#32) = { s.answered .okay 0#32 with wbusy := true })

/-! ### PBKDF2 -/

/-- R148: with legal lengths and at least one iteration, PBKDF2 writes the derived key to OUT_BUF[0 .. DK_LEN-1], RESULT 0 and
RESULT_LEN = DK_LEN, and leaves everything else. -/
def Obligations.PbkdfWritesTheDerivedKey : Prop :=
  ∀ s : State, s.pwdLen.toNat ≤ 64 → s.saltLen.toNat ≤ 64 → s.dkLen ≠ 0#32 → s.dkLen.toNat ≤ 256 → s.iterations ≠ 0#32 →
    ∃ m : Memory,
      exec .pbkdf2 s = .next (s.afterOk m 0#32 s.dkLen) ∧
      Memory.readOctets m 0x300 s.dkLen.toNat =
        pbkdf2 (Memory.readOctets s.mem 0x140 s.pwdLen.toNat) (Memory.readOctets s.mem 0x100 s.saltLen.toNat)
          s.iterations.toNat s.dkLen.toNat ∧
      (∀ a, a < 0x300 ∨ 0x300 + s.dkLen.toNat ≤ a → Memory.read m a = Memory.read s.mem a)

/-- R146: with one iteration F is `HMAC(P, S || be_4(i))`; each further one xors in the next value U, which is HMAC applied once
more to the value before. R147: the derived key is F(1), F(2), ... in order, cut to exactly the length asked for, so that a
shorter key is the start of a longer one. -/
def Obligations.DerivedKeyHasTheLengthAskedFor : Prop :=
  (∀ (p s : List Octet) (i : Nat), pbkdf2Block p s 1 i = hmac p (s ++ octetsBE 4 i)) ∧
  (∀ (p s : List Octet) (c i : Nat), 1 ≤ c →
    pbkdf2Block p s (c + 1) i =
      List.zipWith (· ^^^ ·) (pbkdf2Block p s c i) ((hmac p)^[c] (hmac p (s ++ octetsBE 4 i)))) ∧
  ∀ (p s : List Octet) (c n : Nat),
    (pbkdf2 p s c n).length = n ∧
    (∀ k < n, (pbkdf2 p s c n)[k]? = (pbkdf2Block p s c (k / 32 + 1))[k % 32]?) ∧
    (∀ i, (pbkdf2Block p s c i).length = 32) ∧
    ∀ m, n ≤ m → pbkdf2 p s c n = (pbkdf2 p s c m).take n

/-- R143, R144: the padded message starts with the message and 0x80, ends with its bit length, has only 0x00 between, and is
the shortest such string of whole 64-octet blocks; the hash is 32 octets. -/
def Obligations.ShaPaddingFillsWholeBlocks : Prop :=
  ∀ m : List Octet, m.length < 2 ^ 61 →
    ∃ z, shaPad m = m ++ [0x80#8] ++ List.replicate z 0x00#8 ++ octetsBE 8 (8 * m.length) ∧ z < 64 ∧
      (shaPad m).length % 64 = 0 ∧ intBE ((shaPad m).drop ((shaPad m).length - 8)) = 8 * m.length ∧
      (sha256 m).length = 32

/-- R145: HMAC is two SHA-256 hashes, inner over `(K0 xor 0x36*64) || m` and outer over `(K0 xor 0x5c*64)` and the inner one,
where K0 is the key, hashed first if longer than 64 octets, with 0x00 up to 64 octets. Zero octets at the end of a short key so
change nothing, and the empty key equals 64 zero octets. -/
def Obligations.HmacKeysArePaddedWithZeros : Prop :=
  (∀ key m : List Octet, ∃ k0 : List Octet, k0.length = 64 ∧
    (key.length ≤ 64 → k0 = key ++ List.replicate (64 - key.length) 0x00#8) ∧
    (64 < key.length → k0 = sha256 key ++ List.replicate 32 0x00#8) ∧
    hmac key m = sha256 (k0.map (· ^^^ 0x5c#8) ++ sha256 (k0.map (· ^^^ 0x36#8) ++ m))) ∧
  ∀ (key m : List Octet) (z : Nat), key.length + z ≤ 64 → hmac (key ++ List.replicate z 0x00#8) m = hmac key m

/-- R262: BAD_LENGTH is reported exactly for the lengths listed, by each command that reports it. -/
def Obligations.BadLengthIsReported : Prop :=
  ∀ s : State,
    (s.pwdLen.toNat > 64 ∨ s.saltLen.toNat > 64 ∨ s.dkLen = 0#32 ∨ s.dkLen.toNat > 256 →
      exec .pbkdf2 s = .next (s.afterError 0x02#8)) ∧
    (s.saltLen.toNat > 64 → exec .deriveVerifier s = .next (s.afterError 0x02#8)) ∧
    (s.digitsLen.toNat > 64 → exec .verhoeffCheckDigit s = .next (s.afterError 0x02#8)) ∧
    (∀ (i : Instr) (t : State), s.errcode = 0x00#8 → exec i s = .next t → t.errcode = 0x02#8 →
      (i = .pbkdf2 ∧ (s.pwdLen.toNat > 64 ∨ s.saltLen.toNat > 64 ∨ s.dkLen = 0#32 ∨ s.dkLen.toNat > 256)) ∨
      (i = .deriveVerifier ∧ s.saltLen.toNat > 64) ∨ (i = .verhoeffCheckDigit ∧ s.digitsLen.toNat > 64))

/-- R263, R268: ITERATIONS = 0 is reported by PBKDF2 and DERIVE_VERIFIER when no length is bad, and BAD_ITERATIONS by no other
command and in no other case. -/
def Obligations.ZeroIterationsAreReported : Prop :=
  (∀ s : State, s.iterations = 0#32 → s.saltLen.toNat ≤ 64 →
    (s.pwdLen.toNat ≤ 64 → s.dkLen ≠ 0#32 → s.dkLen.toNat ≤ 256 → exec .pbkdf2 s = .next (s.afterError 0x03#8)) ∧
    exec .deriveVerifier s = .next (s.afterError 0x03#8)) ∧
  (∀ (i : Instr) (s t : State), s.errcode = 0x00#8 → exec i s = .next t → t.errcode = 0x03#8 →
    s.iterations = 0#32 ∧ s.saltLen.toNat ≤ 64 ∧
    ((i = .pbkdf2 ∧ s.pwdLen.toNat ≤ 64 ∧ s.dkLen ≠ 0#32 ∧ s.dkLen.toNat ≤ 256) ∨ i = .deriveVerifier))

/-! ### P-256 -/

/-- R170: `z^(p-2) mod p` is the inverse of z modulo the prime p. -/
def Obligations.FieldInverseInverts : Prop :=
  Nat.Prime fieldP ∧ fieldP = 2 ^ 256 - 2 ^ 224 + 2 ^ 192 + 2 ^ 96 - 1 ∧
  ∀ z : Nat, fieldInv z = z ^ (fieldP - 2) % fieldP ∧ (z % fieldP ≠ 0 → z * fieldInv z % fieldP = 1)

/-- R174, R175: addition keeps the curve and makes its points a commutative group with identity O and inverse -P. -/
def Obligations.CurveAdditionIsAGroupLaw : Prop :=
  ∀ q r t : CurvePoint, q.valid = true → r.valid = true → t.valid = true →
    (q.add r).valid = true ∧ q.neg.valid = true ∧ q.add .infinity = q ∧ CurvePoint.infinity.add q = q ∧
    q.add q.neg = .infinity ∧ q.add r = r.add q ∧ (q.add r).add t = q.add (r.add t)

/-- R176: the block's multiplication has the value R176 defines: `0·P = O` and `(k+1)·P = Add(k·P, P)`. -/
def Obligations.ScalarMulHasTheDefinedValue : Prop :=
  ∀ q : CurvePoint, q.valid = true →
    scalarMul 0 q = .infinity ∧ ∀ k : Nat, scalarMul (k + 1) q = (scalarMul k q).add q

/-- R173: n is prime, `k·G = (k mod n)·G`, and `k·G` is O exactly for the multiples of n. -/
def Obligations.BasePointHasPrimeOrder : Prop :=
  Nat.Prime groupN ∧ basePoint.valid = true ∧
  ∀ k : Nat, repeatedAdd k basePoint = repeatedAdd (k % groupN) basePoint ∧
    (repeatedAdd k basePoint = .infinity ↔ groupN ∣ k)

/-- R178: ReduceN is the big-endian integer modulo n; of 40 octets the integer is below 2^320, the result lies in [0, n), and
every value there is possible. -/
def Obligations.ReduceNCoversTheScalars : Prop :=
  (∀ s : List Octet, reduceN s = intBE s % groupN ∧ reduceN s < groupN ∧ (s.length = 40 → intBE s < 2 ^ 320)) ∧
  (∀ w < groupN, ∃ s : List Octet, s.length = 40 ∧ reduceN s = w)

/-- R8: big-endian encoding and decoding are inverse to each other. -/
def Obligations.BigEndianRoundTrip : Prop :=
  (∀ n v : Nat, v < 256 ^ n → (octetsBE n v).length = n ∧ intBE (octetsBE n v) = v) ∧
  (∀ s : List Octet, octetsBE s.length (intBE s) = s)

/-- R181: for a scalar that is not 0 modulo n, SCALAR_MUL_G writes `0x04 || be_32(X) || be_32(Y)` of the point
`(k mod n)·G` of R176 to OUT_BUF[0..64], RESULT 0 and RESULT_LEN 65, and leaves everything else. -/
def Obligations.ScalarMulWritesThePoint : Prop :=
  ∀ s : State, intBE (Memory.readOctets s.mem 0x180 32) % groupN ≠ 0 →
    ∃ (x y : Nat) (m : Memory),
      repeatedAdd (intBE (Memory.readOctets s.mem 0x180 32) % groupN) basePoint = .affine x y ∧
      exec .scalarMulG s = .next (s.afterOk m 0#32 65#32) ∧
      Memory.readOctets m 0x300 65 = [0x04#8] ++ octetsBE 32 x ++ octetsBE 32 y ∧
      (∀ a, a < 0x300 ∨ 0x341 ≤ a → Memory.read m a = Memory.read s.mem a)

/-- R182, R177: POINT_CHECK answers 1 exactly for the prefix 0x04 and coordinates below p that satisfy the curve equation, and
0 otherwise; it writes no octet and never errs. -/
def Obligations.PointCheckTestsTheCurveEquation : Prop :=
  ∀ s : State,
    ∃ r : Word, exec .pointCheck s = .next (s.afterOk s.mem r 0#32) ∧ (r = 0#32 ∨ r = 1#32) ∧
      (r = 1#32 ↔
        Memory.read s.mem 0x1C0 = 0x04#8 ∧
        intBE (Memory.readOctets s.mem 0x1C1 32) < fieldP ∧ intBE (Memory.readOctets s.mem 0x1E1 32) < fieldP ∧
        ((intBE (Memory.readOctets s.mem 0x1E1 32) : Int) ^ 2 - (intBE (Memory.readOctets s.mem 0x1C1 32) : Int) ^ 3
          - (curveA : Int) * (intBE (Memory.readOctets s.mem 0x1C1 32) : Int) - (curveB : Int)) % (fieldP : Int) = 0)

/-- R180: every multiple of G that is not O is an affine point on the curve, and passes POINT_CHECK when its encoding stands in
POINT_BUF; so does what SCALAR_MUL_G wrote, copied there octet by octet. -/
def Obligations.EncodedPointsPassThePointCheck : Prop :=
  (∀ k : Nat, k % groupN ≠ 0 → ∃ x y : Nat, repeatedAdd k basePoint = .affine x y ∧ onCurve x y = true ∧
    ∀ u : State, Memory.readOctets u.mem 0x1C0 65 = [0x04#8] ++ octetsBE 32 x ++ octetsBE 32 y →
      exec .pointCheck u = .next (u.afterOk u.mem 1#32 0#32)) ∧
  (∀ s : State, intBE (Memory.readOctets s.mem 0x180 32) % groupN ≠ 0 →
    ∃ t : State, exec .scalarMulG s = .next t ∧
      ∀ u : State, Memory.readOctets u.mem 0x1C0 65 = Memory.readOctets t.mem 0x300 65 →
        exec .pointCheck u = .next (u.afterOk u.mem 1#32 0#32))

/-- R266: POINT_AT_INFINITY is reported by SCALAR_MUL_G exactly for a scalar that is 0 modulo n, by DERIVE_VERIFIER, when its
inputs are legal, exactly when w1 = 0, and by no other command and in no other case. -/
def Obligations.PointAtInfinityIsReported : Prop :=
  (∀ s : State, s.errcode = 0x00#8 →
    (∃ t : State, exec .scalarMulG s = .next t ∧
      (t = s.afterError 0x06#8 ↔ intBE (Memory.readOctets s.mem 0x180 32) % groupN = 0)) ∧
    (s.saltLen.toNat ≤ 64 → s.iterations ≠ 0#32 →
      ∃ t : State, exec .deriveVerifier s = .next t ∧ (t = s.afterError 0x06#8 ↔ verifierW1 s = 0))) ∧
  (∀ (i : Instr) (s t : State), s.errcode = 0x00#8 → exec i s = .next t → t.errcode = 0x06#8 →
    (i = .scalarMulG ∧ intBE (Memory.readOctets s.mem 0x180 32) % groupN = 0) ∨
    (i = .deriveVerifier ∧ s.saltLen.toNat ≤ 64 ∧ s.iterations ≠ 0#32 ∧ verifierW1 s = 0))

/-! ### DERIVE_VERIFIER -/

/-- R204: with a legal salt length, at least one iteration and w1 ≠ 0, DERIVE_VERIFIER writes
`be_32(w0) || 0x04 || be_32(X) || be_32(Y)` of the point w1·G of R176 to OUT_BUF[0..96], its base64 text to B64_BUF[0..131],
RESULT 132 and RESULT_LEN 97, and leaves everything else. -/
def Obligations.DeriveVerifierWritesTheVerifier : Prop :=
  ∀ s : State, s.saltLen.toNat ≤ 64 → s.iterations ≠ 0#32 →
    let dk := pbkdf2 (octetsOfWord s.passcode) (Memory.readOctets s.mem 0x100 s.saltLen.toNat) s.iterations.toNat 80
    intBE (dk.drop 40) % groupN ≠ 0 →
    ∃ (x y : Nat) (m : Memory),
      repeatedAdd (intBE (dk.drop 40) % groupN) basePoint = .affine x y ∧
      exec .deriveVerifier s = .next (s.afterOk m 132#32 97#32) ∧
      Memory.readOctets m 0x300 97 =
        octetsBE 32 (intBE (dk.take 40) % groupN) ++ [0x04#8] ++ octetsBE 32 x ++ octetsBE 32 y ∧
      Memory.readOctets m 0x400 132 = base64 (Memory.readOctets m 0x300 97) ∧
      (∀ a, a < 0x300 ∨ (0x361 ≤ a ∧ a < 0x400) ∨ 0x484 ≤ a → Memory.read m a = Memory.read s.mem a)

/-- R205: after a successful DERIVE_VERIFIER the text in B64_BUF ends with `==` and decodes to the 97 octets of OUT_BUF, octet 32
is 0x04, and OUT_BUF[32..96] passes POINT_CHECK. -/
def Obligations.VerifierTextDecodesToTheVerifier : Prop :=
  ∀ s : State, s.saltLen.toNat ≤ 64 → s.iterations ≠ 0#32 → verifierW1 s ≠ 0 →
    ∃ t : State, exec .deriveVerifier s = .next t ∧ t.resultLen = 97#32 ∧ t.result = 132#32 ∧
      base64Decode (Memory.readOctets t.mem 0x400 132) = Memory.readOctets t.mem 0x300 97 ∧
      Memory.read t.mem 0x320 = 0x04#8 ∧ Memory.read t.mem 0x482 = 0x3D#8 ∧ Memory.read t.mem 0x483 = 0x3D#8 ∧
      ∀ u : State, Memory.readOctets u.mem 0x1C0 65 = Memory.readOctets t.mem 0x320 65 →
        exec .pointCheck u = .next (u.afterOk u.mem 1#32 0#32)

/-- R202, R203: base64 gives 4 characters for every 3 octets begun, each in the alphabet or the pad character, and decodes to the
octets again. -/
def Obligations.BaseSixtyFourRoundTrip : Prop :=
  ∀ s : List Octet,
    (base64 s).length = 4 * ((s.length + 2) / 3) ∧ base64Decode (base64 s) = s ∧
    ∀ c ∈ base64 s, (0x41 ≤ c.toNat ∧ c.toNat ≤ 0x5A) ∨ (0x61 ≤ c.toNat ∧ c.toNat ≤ 0x7A) ∨
      (0x30 ≤ c.toNat ∧ c.toNat ≤ 0x39) ∨ c = 0x2B#8 ∨ c = 0x2F#8 ∨ c = 0x3D#8

/-! ### ENCODE_MANUAL_CODE -/

/-- R228, R231: for DISCRIMINATOR < 8192 and PASSCODE < 163,840,000, ENCODE_MANUAL_CODE writes the 20 payload digits of the five
chunks and the check digit to OUT_BUF[0..20], RESULT the check digit and RESULT_LEN 21, and leaves everything else; only bits
[11:8] of the discriminator reach the code. -/
def Obligations.ManualCodeWritesTwentyOneDigits : Prop :=
  ∀ s : State, s.discriminator.toNat < 8192 → s.passcode.toNat < 163840000 →
    let payload :=
      decDigits (4 + s.discriminator.toNat / 1024 % 4) 1 ++
      decDigits (s.discriminator.toNat / 256 % 4 * 16384 + s.passcode.toNat % 16384) 5 ++
      decDigits (s.passcode.toNat / 16384) 4 ++ decDigits s.vid.toNat 5 ++ decDigits s.pid.toNat 5
    ∃ m : Memory,
      exec .encodeManualCode s = .next (s.afterOk m (BitVec.ofNat 32 (checkDigit payload).val) 21#32) ∧
      payload.length = 20 ∧
      Memory.readOctets m 0x300 21 = payload ++ [asciiDigit (checkDigit payload).val] ∧
      (∀ a, a < 0x300 ∨ 0x315 ≤ a → Memory.read m a = Memory.read s.mem a)

/-- R231: the wrap-around consequences. (a) A discriminator in [4096, 8191] encodes as `disc - 4096`; (b) below 4096 only bits
[11:8] reach the code; (c) adding multiples of 16384 to the passcode changes only the four payload digits of c3; (d) every valid
input succeeds with 21 digits. -/
def Obligations.ManualCodeWrapsAround : Prop :=
  (∀ disc pc vid pid : Nat, 4096 ≤ disc → disc ≤ 8191 →
    4 ≤ shortDiscriminator disc / 4 ∧ shortDiscriminator disc / 4 ≤ 7 ∧
    4 ||| (shortDiscriminator disc / 4) = 4 ||| (shortDiscriminator disc / 4 % 4) ∧
    shortDiscriminator disc % 4 = shortDiscriminator (disc - 4096) % 4 ∧
    manualCode disc pc vid pid = manualCode (disc - 4096) pc vid pid) ∧
  (∀ disc pc vid pid : Nat, disc < 4096 → manualCode disc pc vid pid = manualCode (disc / 256 % 16 * 256) pc vid pid) ∧
  (∀ disc pc vid pid k : Nat,
    (codePayload disc (pc + 16384 * k) vid pid).take 6 = (codePayload disc pc vid pid).take 6 ∧
    (codePayload disc (pc + 16384 * k) vid pid).drop 10 = (codePayload disc pc vid pid).drop 10 ∧
    chunk3 (pc + 16384 * k) = chunk3 pc + k) ∧
  (∀ s : State, s.discriminator.toNat ≤ 4095 → validPasscode s.passcode.toNat = true →
    ∃ t : State, exec .encodeManualCode s = .next t ∧ t.resultLen = 21#32 ∧ t.err = s.err ∧ t.errcode = s.errcode)

/-- R265: FIELD_OVERFLOW is reported exactly when DISCRIMINATOR ≥ 8192 or PASSCODE ≥ 163,840,000. -/
def Obligations.FieldOverflowIsReportedExactly : Prop :=
  ∀ s : State,
    (8192 ≤ s.discriminator.toNat ∨ 163840000 ≤ s.passcode.toNat →
      exec .encodeManualCode s = .next (s.afterError 0x05#8)) ∧
    (∀ (i : Instr) (t : State), s.errcode = 0x00#8 → exec i s = .next t → t.errcode = 0x05#8 →
      i = .encodeManualCode ∧ (8192 ≤ s.discriminator.toNat ∨ 163840000 ≤ s.passcode.toNat))

/-- R226: for `v < 10^w`, Dec(v, w) is the w ASCII digits of v: the one at index i is `v / 10^(w-1-i) mod 10`, and read as a
decimal number they give v back. That for a larger v, for which R226 gives no digits, the function has the low w digits is the
model's (log 25). -/
def Obligations.DecimalDigitsAreZeroPadded : Prop :=
  ∀ v w : Nat, (decDigits v w).length = w ∧
    (∀ i < w, (decDigits v w)[i]? = some (BitVec.ofNat 8 (0x30 + v / 10 ^ (w - 1 - i) % 10))) ∧
    (v < 10 ^ w → (decDigits v w).foldl (fun n o => 10 * n + (o.toNat - 0x30)) 0 = v)

/-! ### VERHOEFF_CHECK_DIGIT -/

/-- R244: for at most 64 octets that are all ASCII digits, VERHOEFF_CHECK_DIGIT writes the check digit in ASCII to OUT_BUF[0], the
digit to RESULT and 1 to RESULT_LEN, and leaves everything else; for no digits it is 0. -/
def Obligations.VerhoeffWritesTheCheckDigit : Prop :=
  ∀ s : State, s.digitsLen.toNat ≤ 64 →
    (∀ o ∈ Memory.readOctets s.mem 0x240 s.digitsLen.toNat, 0x30 ≤ o.toNat ∧ o.toNat ≤ 0x39) →
    ∃ (m : Memory) (d : Nat),
      exec .verhoeffCheckDigit s = .next (s.afterOk m (BitVec.ofNat 32 d) 1#32) ∧
      d = (checkDigit (Memory.readOctets s.mem 0x240 s.digitsLen.toNat)).val ∧ d < 10 ∧
      (s.digitsLen = 0#32 → d = 0) ∧
      Memory.read m 0x300 = BitVec.ofNat 8 (0x30 + d) ∧
      (∀ a, a ≠ 0x300 → Memory.read m a = Memory.read s.mem a)

/-- R264, R268: an octet that is no ASCII digit among the first DIGITS_LEN ≤ 64 is reported as BAD_DIGIT, and BAD_DIGIT by no
other command and in no other case. -/
def Obligations.BadDigitIsReported : Prop :=
  (∀ (s : State) (j : Nat), s.digitsLen.toNat ≤ 64 → j < s.digitsLen.toNat →
    (Memory.read s.mem (0x240 + j)).toNat < 0x30 ∨ 0x39 < (Memory.read s.mem (0x240 + j)).toNat →
    exec .verhoeffCheckDigit s = .next (s.afterError 0x04#8)) ∧
  (∀ (i : Instr) (s t : State), s.errcode = 0x00#8 → exec i s = .next t → t.errcode = 0x04#8 →
    i = .verhoeffCheckDigit ∧ s.digitsLen.toNat ≤ 64 ∧
    ∃ j < s.digitsLen.toNat,
      (Memory.read s.mem (0x240 + j)).toNat < 0x30 ∨ 0x39 < (Memory.read s.mem (0x240 + j)).toNat)

/-- R241, R242: row r+1 of p is row 1 applied after row r, row 8 is row 0, and inv is the right inverse of d. -/
def Obligations.VerhoeffTablesAreConsistent : Prop :=
  (∀ k : Digit, verhoeffP 0 k = k) ∧
  (∀ (r : Nat) (k : Digit), verhoeffP (r + 1) k = verhoeffP 1 (verhoeffP r k)) ∧
  (∀ (r : Nat) (k : Digit), verhoeffP (r + 8) k = verhoeffP r k) ∧
  (∀ j : Digit, verhoeffD j (verhoeffInv j) = 0)

/-- R245: a digit string followed by its check digit validates, and its check digit is the only digit that does. -/
def Obligations.CheckDigitValidates : Prop :=
  ∀ s : List Octet, s.all isAsciiDigit = true →
    verhoeffValid (s ++ [asciiDigit (checkDigit s).val]) = true ∧
    ∀ d < 10, verhoeffValid (s ++ [asciiDigit d]) = true → d = (checkDigit s).val

/-- R11, R245: the checksum detects every single-digit error: a valid digit string with one digit changed is not valid. -/
def Obligations.SingleDigitErrorsAreDetected : Prop :=
  ∀ (s t : List Octet) (o o' : Octet), (s ++ o :: t).all isAsciiDigit = true → isAsciiDigit o' = true → o ≠ o' →
    verhoeffValid (s ++ o :: t) = true → verhoeffValid (s ++ o' :: t) = false

/-- R228, R244, R245: VERHOEFF_CHECK_DIGIT over the first 20 digits of a manual code gives the 21st. -/
def Obligations.ManualCodeCheckDigitIsReproduced : Prop :=
  ∀ s : State, s.discriminator.toNat < 8192 → s.passcode.toNat < 163840000 →
    ∃ t : State, exec .encodeManualCode s = .next t ∧
      verhoeffValid (Memory.readOctets t.mem 0x300 21) = true ∧
      ∀ u : State, u.digitsLen = 20#32 → Memory.readOctets u.mem 0x240 20 = Memory.readOctets t.mem 0x300 20 →
        ∃ v : State, exec .verhoeffCheckDigit u = .next v ∧ v.result = t.result ∧
          Memory.read v.mem 0x300 = Memory.read t.mem 0x314

/-! ### The host's view -/

/-- R98: `LOADBUF` on an IDLE block stores the octets from the buffer's first octet on, zero octets up to the end of the last word,
and changes nothing else. -/
def Obligations.LoadBufStoresTheOctets : Prop :=
  ∀ (s : State) (b : Buffer) (octets : List Octet), s.phase = .idle → b.isOutput = false → octets.length ≤ b.size →
    ∃ m : Memory,
      (s.serveAll (loadTransactions b octets) = { s with mem := m, env := (s.serveAll (loadTransactions b octets)).env }) ∧
      (∀ i, i < 4 * ((octets.length + 3) / 4) → Memory.read m (b.base + i) = octets.getD i 0x00#8) ∧
      (∀ a, a < b.base ∨ b.base + 4 * ((octets.length + 3) / 4) ≤ a → Memory.read m a = Memory.read s.mem a)

/-- R60: bus address `BASE + o` is window offset o for every offset, BASE is a multiple of 4096, and no other address lies in
the window. -/
def Obligations.WindowIsAnAlignedPage : Prop :=
  Config.base % 4096 = 0 ∧ (∀ o : Offset, windowOffset? (busAddress o) = some o) ∧
  ∀ (addr : Nat) (o : Offset), windowOffset? addr = some o → addr = busAddress o
end

