-- ==== Sys2Proof/Laws/Primes.lean ====
section
/-! SUPPORT. Modular powers by square and multiply, and the primality of p (R170) and n (R173). -/

namespace Sys2Proof.Machine

/-- Square and multiply gives the power, for an exponent of at most `bits` bits. -/
theorem powMod_eq (m bits z e : Nat) (hm : 1 < m) (he : e < 2 ^ bits) : powMod m bits z e = z ^ e % m := by
  induction bits generalizing z e with
  | zero =>
    obtain rfl : e = 0 := by simpa using he
    simp [powMod, Nat.mod_eq_of_lt hm]
  | succ bits ih =>
    have ih := ih (z * z % m) (e / 2) (by omega)
    have sq : (z * z % m) ^ (e / 2) % m = z ^ (2 * (e / 2)) % m := by
      rw [← Nat.pow_mod, pow_mul, pow_two]
    simp only [powMod, ih, sq]
    split
    · rename_i h
      have hz : z ^ e = z * z ^ (2 * (e / 2)) := by
        rw [← pow_succ']
        congr 1
        omega
      rw [hz, Nat.mul_mod, Nat.mod_mod, ← Nat.mul_mod]
    · rw [Nat.mul_div_cancel' (by omega)]

/-- Lucas' test with the factors of `q - 1` given as a list. -/
theorem prime_of_lucas (q bits a : Nat) (factors : List Nat) (hq : 1 < q) (hb : q - 1 < 2 ^ bits)
    (hprod : factors.prod = q - 1) (hprime : ∀ r ∈ factors, Nat.Prime r) (hone : powMod q bits a (q - 1) = 1)
    (hne : ∀ r ∈ factors, powMod q bits a ((q - 1) / r) ≠ 1) : Nat.Prime q := by
  refine lucas_primality q (a : ZMod q) ?_ fun r hr hdvd => ?_
  · rw [powMod_eq q bits a _ hq hb] at hone
    have h : ((a ^ (q - 1) : Nat) : ZMod q) = ((1 : Nat) : ZMod q) := by
      rw [ZMod.natCast_eq_natCast_iff, Nat.ModEq, hone, Nat.mod_eq_of_lt hq]
    exact_mod_cast h
  · have hmem : r ∈ factors := by
      rw [← hprod] at hdvd
      obtain ⟨t, ht, hrt⟩ := (Nat.Prime.prime hr).dvd_prod_iff.mp hdvd
      rwa [(Nat.prime_dvd_prime_iff_eq hr (hprime t ht)).mp hrt]
    intro h
    refine hne r hmem ?_
    have h' : ((a ^ ((q - 1) / r) : Nat) : ZMod q) = ((1 : Nat) : ZMod q) := by exact_mod_cast h
    rw [ZMod.natCast_eq_natCast_iff, Nat.ModEq, Nat.mod_eq_of_lt hq] at h'
    rw [powMod_eq q bits a _ hq (lt_of_le_of_lt (Nat.div_le_self _ _) hb), h']

theorem prime_490463 : Nat.Prime 490463 := by
  refine prime_of_lucas 490463 19 14 [2, 7, 53, 661] (by decide) (by decide +kernel) (by decide +kernel)
    (fun r hr => ?_) (by decide +kernel) (by decide +kernel)
  simp only [List.mem_cons, List.not_mem_nil, or_false] at hr
  rcases hr with rfl | rfl | rfl | rfl
  · norm_num
  · norm_num
  · norm_num
  · norm_num

theorem prime_6700417 : Nat.Prime 6700417 := by
  refine prime_of_lucas 6700417 23 5 [2, 2, 2, 2, 2, 2, 2, 3, 17449] (by decide) (by decide +kernel) (by decide +kernel)
    (fun r hr => ?_) (by decide +kernel) (by decide +kernel)
  simp only [List.mem_cons, List.not_mem_nil, or_false] at hr
  rcases hr with rfl | rfl | rfl | rfl | rfl | rfl | rfl | rfl | rfl
  · norm_num
  · norm_num
  · norm_num
  · norm_num
  · norm_num
  · norm_num
  · norm_num
  · norm_num
  · norm_num

theorem prime_204061199 : Nat.Prime 204061199 := by
  refine prime_of_lucas 204061199 28 11 [2, 11, 23, 107, 3769] (by decide) (by decide +kernel) (by decide +kernel)
    (fun r hr => ?_) (by decide +kernel) (by decide +kernel)
  simp only [List.mem_cons, List.not_mem_nil, or_false] at hr
  rcases hr with rfl | rfl | rfl | rfl | rfl
  · norm_num
  · norm_num
  · norm_num
  · norm_num
  · norm_num

theorem prime_34282281433 : Nat.Prime 34282281433 := by
  refine prime_of_lucas 34282281433 35 17 [2, 2, 2, 3, 7, 204061199] (by decide) (by decide +kernel) (by decide +kernel)
    (fun r hr => ?_) (by decide +kernel) (by decide +kernel)
  simp only [List.mem_cons, List.not_mem_nil, or_false] at hr
  rcases hr with rfl | rfl | rfl | rfl | rfl | rfl
  · norm_num
  · norm_num
  · norm_num
  · norm_num
  · norm_num
  · exact prime_204061199

theorem prime_66417393611 : Nat.Prime 66417393611 := by
  refine prime_of_lucas 66417393611 36 6 [2, 5, 53, 173, 197, 3677] (by decide) (by decide +kernel) (by decide +kernel)
    (fun r hr => ?_) (by decide +kernel) (by decide +kernel)
  simp only [List.mem_cons, List.not_mem_nil, or_false] at hr
  rcases hr with rfl | rfl | rfl | rfl | rfl | rfl
  · norm_num
  · norm_num
  · norm_num
  · norm_num
  · norm_num
  · norm_num

theorem prime_11290956913871 : Nat.Prime 11290956913871 := by
  refine prime_of_lucas 11290956913871 44 13 [2, 5, 17, 66417393611] (by decide) (by decide +kernel) (by decide +kernel)
    (fun r hr => ?_) (by decide +kernel) (by decide +kernel)
  simp only [List.mem_cons, List.not_mem_nil, or_false] at hr
  rcases hr with rfl | rfl | rfl | rfl
  · norm_num
  · norm_num
  · norm_num
  · exact prime_66417393611

theorem prime_704251 : Nat.Prime 704251 := by
  refine prime_of_lucas 704251 20 2 [2, 3, 3, 5, 5, 5, 313] (by decide) (by decide +kernel) (by decide +kernel)
    (fun r hr => ?_) (by decide +kernel) (by decide +kernel)
  simp only [List.mem_cons, List.not_mem_nil, or_false] at hr
  rcases hr with rfl | rfl | rfl | rfl | rfl | rfl | rfl
  · norm_num
  · norm_num
  · norm_num
  · norm_num
  · norm_num
  · norm_num
  · norm_num

theorem prime_46076956964474543 : Nat.Prime 46076956964474543 := by
  refine prime_of_lucas 46076956964474543 56 5 [2, 23, 18169, 78283, 704251] (by decide) (by decide +kernel) (by decide +kernel)
    (fun r hr => ?_) (by decide +kernel) (by decide +kernel)
  simp only [List.mem_cons, List.not_mem_nil, or_false] at hr
  rcases hr with rfl | rfl | rfl | rfl | rfl
  · norm_num
  · norm_num
  · norm_num
  · norm_num
  · exact prime_704251

theorem prime_774023187263532362759620327192479577272145303 : Nat.Prime 774023187263532362759620327192479577272145303 := by
  refine prime_of_lucas 774023187263532362759620327192479577272145303 150 3 [2, 3, 3, 2411, 34282281433, 11290956913871, 46076956964474543] (by decide) (by decide +kernel) (by decide +kernel)
    (fun r hr => ?_) (by decide +kernel) (by decide +kernel)
  simp only [List.mem_cons, List.not_mem_nil, or_false] at hr
  rcases hr with rfl | rfl | rfl | rfl | rfl | rfl | rfl
  · norm_num
  · norm_num
  · norm_num
  · norm_num
  · exact prime_34282281433
  · exact prime_11290956913871
  · exact prime_46076956964474543

theorem prime_835945042244614951780389953367877943453916927241 : Nat.Prime 835945042244614951780389953367877943453916927241 := by
  refine prime_of_lucas 835945042244614951780389953367877943453916927241 160 11 [2, 2, 2, 3, 3, 3, 5, 774023187263532362759620327192479577272145303] (by decide) (by decide +kernel) (by decide +kernel)
    (fun r hr => ?_) (by decide +kernel) (by decide +kernel)
  simp only [List.mem_cons, List.not_mem_nil, or_false] at hr
  rcases hr with rfl | rfl | rfl | rfl | rfl | rfl | rfl | rfl
  · norm_num
  · norm_num
  · norm_num
  · norm_num
  · norm_num
  · norm_num
  · norm_num
  · exact prime_774023187263532362759620327192479577272145303

theorem prime_fieldP : Nat.Prime fieldP := by
  refine prime_of_lucas fieldP 256 6 [2, 3, 5, 5, 17, 257, 641, 1531, 65537, 490463, 6700417, 835945042244614951780389953367877943453916927241] (by decide) (by decide +kernel) (by decide +kernel)
    (fun r hr => ?_) (by decide +kernel) (by decide +kernel)
  simp only [List.mem_cons, List.not_mem_nil, or_false] at hr
  rcases hr with rfl | rfl | rfl | rfl | rfl | rfl | rfl | rfl | rfl | rfl | rfl | rfl
  · norm_num
  · norm_num
  · norm_num
  · norm_num
  · norm_num
  · norm_num
  · norm_num
  · norm_num
  · norm_num
  · exact prime_490463
  · exact prime_6700417
  · exact prime_835945042244614951780389953367877943453916927241

theorem prime_9350987 : Nat.Prime 9350987 := by
  refine prime_of_lucas 9350987 24 2 [2, 17, 229, 1201] (by decide) (by decide +kernel) (by decide +kernel)
    (fun r hr => ?_) (by decide +kernel) (by decide +kernel)
  simp only [List.mem_cons, List.not_mem_nil, or_false] at hr
  rcases hr with rfl | rfl | rfl | rfl
  · norm_num
  · norm_num
  · norm_num
  · norm_num

theorem prime_187019741 : Nat.Prime 187019741 := by
  refine prime_of_lucas 187019741 28 2 [2, 2, 5, 9350987] (by decide) (by decide +kernel) (by decide +kernel)
    (fun r hr => ?_) (by decide +kernel) (by decide +kernel)
  simp only [List.mem_cons, List.not_mem_nil, or_false] at hr
  rcases hr with rfl | rfl | rfl | rfl
  · norm_num
  · norm_num
  · norm_num
  · exact prime_9350987

theorem prime_311245691 : Nat.Prime 311245691 := by
  refine prime_of_lucas 311245691 29 2 [2, 5, 7, 17, 29, 29, 311] (by decide) (by decide +kernel) (by decide +kernel)
    (fun r hr => ?_) (by decide +kernel) (by decide +kernel)
  simp only [List.mem_cons, List.not_mem_nil, or_false] at hr
  rcases hr with rfl | rfl | rfl | rfl | rfl | rfl | rfl
  · norm_num
  · norm_num
  · norm_num
  · norm_num
  · norm_num
  · norm_num
  · norm_num

theorem prime_622491383 : Nat.Prime 622491383 := by
  refine prime_of_lucas 622491383 30 5 [2, 311245691] (by decide) (by decide +kernel) (by decide +kernel)
    (fun r hr => ?_) (by decide +kernel) (by decide +kernel)
  simp only [List.mem_cons, List.not_mem_nil, or_false] at hr
  rcases hr with rfl | rfl
  · norm_num
  · exact prime_311245691

theorem prime_126241 : Nat.Prime 126241 := by
  refine prime_of_lucas 126241 17 7 [2, 2, 2, 2, 2, 3, 5, 263] (by decide) (by decide +kernel) (by decide +kernel)
    (fun r hr => ?_) (by decide +kernel) (by decide +kernel)
  simp only [List.mem_cons, List.not_mem_nil, or_false] at hr
  rcases hr with rfl | rfl | rfl | rfl | rfl | rfl | rfl | rfl
  · norm_num
  · norm_num
  · norm_num
  · norm_num
  · norm_num
  · norm_num
  · norm_num
  · norm_num

theorem prime_104471 : Nat.Prime 104471 := by
  refine prime_of_lucas 104471 17 11 [2, 5, 31, 337] (by decide) (by decide +kernel) (by decide +kernel)
    (fun r hr => ?_) (by decide +kernel) (by decide +kernel)
  simp only [List.mem_cons, List.not_mem_nil, or_false] at hr
  rcases hr with rfl | rfl | rfl | rfl
  · norm_num
  · norm_num
  · norm_num
  · norm_num

theorem prime_3969899 : Nat.Prime 3969899 := by
  refine prime_of_lucas 3969899 22 2 [2, 19, 104471] (by decide) (by decide +kernel) (by decide +kernel)
    (fun r hr => ?_) (by decide +kernel) (by decide +kernel)
  simp only [List.mem_cons, List.not_mem_nil, or_false] at hr
  rcases hr with rfl | rfl | rfl
  · norm_num
  · norm_num
  · exact prime_104471

theorem prime_1002328039319 : Nat.Prime 1002328039319 := by
  refine prime_of_lucas 1002328039319 40 19 [2, 126241, 3969899] (by decide) (by decide +kernel) (by decide +kernel)
    (fun r hr => ?_) (by decide +kernel) (by decide +kernel)
  simp only [List.mem_cons, List.not_mem_nil, or_false] at hr
  rcases hr with rfl | rfl | rfl
  · norm_num
  · exact prime_126241
  · exact prime_3969899

theorem prime_155317 : Nat.Prime 155317 := by
  refine prime_of_lucas 155317 18 5 [2, 2, 3, 7, 43, 43] (by decide) (by decide +kernel) (by decide +kernel)
    (fun r hr => ?_) (by decide +kernel) (by decide +kernel)
  simp only [List.mem_cons, List.not_mem_nil, or_false] at hr
  rcases hr with rfl | rfl | rfl | rfl | rfl | rfl
  · norm_num
  · norm_num
  · norm_num
  · norm_num
  · norm_num
  · norm_num

theorem prime_191039911 : Nat.Prime 191039911 := by
  refine prime_of_lucas 191039911 28 3 [2, 3, 5, 41, 155317] (by decide) (by decide +kernel) (by decide +kernel)
    (fun r hr => ?_) (by decide +kernel) (by decide +kernel)
  simp only [List.mem_cons, List.not_mem_nil, or_false] at hr
  rcases hr with rfl | rfl | rfl | rfl | rfl
  · norm_num
  · norm_num
  · norm_num
  · norm_num
  · exact prime_155317

theorem prime_208150935158385979 : Nat.Prime 208150935158385979 := by
  refine prime_of_lucas 208150935158385979 58 2 [2, 3, 11, 43, 127, 3023, 191039911] (by decide) (by decide +kernel) (by decide +kernel)
    (fun r hr => ?_) (by decide +kernel) (by decide +kernel)
  simp only [List.mem_cons, List.not_mem_nil, or_false] at hr
  rcases hr with rfl | rfl | rfl | rfl | rfl | rfl | rfl
  · norm_num
  · norm_num
  · norm_num
  · norm_num
  · norm_num
  · norm_num
  · exact prime_191039911

theorem prime_2624747550333869278416773953 : Nat.Prime 2624747550333869278416773953 := by
  refine prime_of_lucas 2624747550333869278416773953 92 7 [2, 2, 2, 2, 2, 2, 3, 3, 1297, 16879, 208150935158385979] (by decide) (by decide +kernel) (by decide +kernel)
    (fun r hr => ?_) (by decide +kernel) (by decide +kernel)
  simp only [List.mem_cons, List.not_mem_nil, or_false] at hr
  rcases hr with rfl | rfl | rfl | rfl | rfl | rfl | rfl | rfl | rfl | rfl | rfl
  · norm_num
  · norm_num
  · norm_num
  · norm_num
  · norm_num
  · norm_num
  · norm_num
  · norm_num
  · norm_num
  · norm_num
  · exact prime_208150935158385979

theorem prime_groupN : Nat.Prime groupN := by
  refine prime_of_lucas groupN 256 7 [2, 2, 2, 2, 3, 71, 131, 373, 3407, 17449, 38189, 187019741, 622491383, 1002328039319, 2624747550333869278416773953] (by decide) (by decide +kernel) (by decide +kernel)
    (fun r hr => ?_) (by decide +kernel) (by decide +kernel)
  simp only [List.mem_cons, List.not_mem_nil, or_false] at hr
  rcases hr with rfl | rfl | rfl | rfl | rfl | rfl | rfl | rfl | rfl | rfl | rfl | rfl | rfl | rfl | rfl
  · norm_num
  · norm_num
  · norm_num
  · norm_num
  · norm_num
  · norm_num
  · norm_num
  · norm_num
  · norm_num
  · norm_num
  · norm_num
  · exact prime_187019741
  · exact prime_622491383
  · exact prime_1002328039319
  · exact prime_2624747550333869278416773953

end Sys2Proof.Machine
end

