-- ==== Sys2Proof/Laws/Curve.lean ====
section
/-! SUPPORT. The block's curve arithmetic (R170 to R177) as the group of points of a Weierstrass curve over the field of p
elements: what `fieldSub`, `fieldInv`, `onCurve` and `CurvePoint.add` are there. -/

namespace Sys2Proof.Machine

open Sys2Proof

/-- The field of p elements (R170). -/
abbrev FieldK := ZMod fieldP

theorem fieldP_pos : 0 < fieldP := by decide

theorem cast_mod_fieldP (u : Nat) : ((u % fieldP : Nat) : FieldK) = u := ZMod.natCast_mod u fieldP

theorem cast_inj_fieldP {u v : Nat} (hu : u < fieldP) (hv : v < fieldP) : (u : FieldK) = v ↔ u = v := by
  rw [ZMod.natCast_eq_natCast_iff, Nat.ModEq, Nat.mod_eq_of_lt hu, Nat.mod_eq_of_lt hv]

theorem cast_eq_zero_fieldP (u : Nat) : (u : FieldK) = 0 ↔ u % fieldP = 0 := by
  rw [ZMod.natCast_eq_zero_iff, Nat.dvd_iff_mod_eq_zero]

theorem fieldSub_lt (u v : Nat) : fieldSub u v < fieldP := Nat.mod_lt _ fieldP_pos

theorem cast_fieldSub (u v : Nat) : (fieldSub u v : FieldK) = u - v := by
  have hv : v % fieldP ≤ fieldP := (Nat.mod_lt _ fieldP_pos).le
  rw [fieldSub, cast_mod_fieldP, Nat.cast_add, Nat.cast_sub hv, cast_mod_fieldP, ZMod.natCast_self]
  ring

theorem fieldInv_eq (z : Nat) : fieldInv z = z ^ (fieldP - 2) % fieldP :=
  powMod_eq fieldP 256 z _ (by decide) (by decide +kernel)

theorem cast_fieldInv (z : Nat) : (fieldInv z : FieldK) = (z : FieldK)⁻¹ := by
  have : Fact (Nat.Prime fieldP) := ⟨prime_fieldP⟩
  rw [fieldInv_eq, cast_mod_fieldP, Nat.cast_pow]
  by_cases hz : (z : FieldK) = 0
  · rw [hz, inv_zero, zero_pow (by decide)]
  · refine eq_inv_of_mul_eq_one_left ?_
    rw [← pow_succ, show fieldP - 2 + 1 = fieldP - 1 by decide]
    exact ZMod.pow_card_sub_one_eq_one hz

theorem fieldInv_lt (z : Nat) : fieldInv z < fieldP := by
  rw [fieldInv_eq]
  exact Nat.mod_lt _ fieldP_pos

/-- The curve of R171 as a Weierstrass curve. -/
def curveW : WeierstrassCurve.Affine FieldK := ⟨0, 0, 0, (curveA : FieldK), (curveB : FieldK)⟩

theorem curveW_equation (x y : FieldK) : curveW.Equation x y ↔ y ^ 2 = x ^ 3 + curveA * x + curveB := by
  rw [WeierstrassCurve.Affine.equation_iff]
  simp [curveW]

theorem curveW_disc_ne_zero : curveW.Δ ≠ 0 := by
  have : Fact (Nat.Prime fieldP) := ⟨prime_fieldP⟩
  have h : curveW.Δ = -((16 * (4 * curveA ^ 3 + 27 * curveB ^ 2) : Nat) : FieldK) := by
    simp only [WeierstrassCurve.Δ, WeierstrassCurve.b₂, WeierstrassCurve.b₄, WeierstrassCurve.b₆, WeierstrassCurve.b₈,
      curveW]
    push_cast
    ring
  rw [h, neg_ne_zero, Ne, cast_eq_zero_fieldP]
  decide +kernel

theorem curveW_nonsingular (x y : FieldK) : curveW.Nonsingular x y ↔ y ^ 2 = x ^ 3 + curveA * x + curveB := by
  have : Fact (Nat.Prime fieldP) := ⟨prime_fieldP⟩
  rw [← curveW.equation_iff_nonsingular_of_Δ_ne_zero curveW_disc_ne_zero, curveW_equation]

/-- `OnCurve` is the curve equation in the field, for reduced coordinates (R177). -/
theorem onCurve_iff (x y : Nat) :
    onCurve x y = true ↔ x < fieldP ∧ y < fieldP ∧ curveW.Nonsingular (x : FieldK) (y : FieldK) := by
  have h : y * y % fieldP = (x * x * x + curveA * x + curveB) % fieldP ↔
      (y : FieldK) ^ 2 = (x : FieldK) ^ 3 + curveA * x + curveB := by
    rw [← Nat.ModEq, ← ZMod.natCast_eq_natCast_iff]
    push_cast
    ring_nf
  rw [curveW_nonsingular, ← h]
  simp [onCurve, and_assoc]

theorem neg_y_eq (x : FieldK) (y1 y2 : Nat) : (y1 : FieldK) = curveW.negY x (y2 : FieldK) ↔ (y1 + y2) % fieldP = 0 := by
  rw [← cast_eq_zero_fieldP, Nat.cast_add, eq_comm]
  simp [WeierstrassCurve.Affine.negY, curveW, neg_eq_iff_add_eq_zero, add_comm]

theorem basePoint_valid : basePoint.valid = true := by decide +kernel

theorem basePoint_ne_infinity : basePoint ≠ .infinity := fun h => CurvePoint.noConfusion h

/-- `n·G = O`, by evaluating the block's own multiplication (R173). -/
theorem scalarMul_groupN : scalarMul groupN basePoint = .infinity := by decide +kernel

/-- The group element a point of the block stands for. -/
def PointRep (q : CurvePoint) (w : curveW.Point) : Prop :=
  match q, w with
  | .infinity, .zero => True
  | .affine x y, .some x' y' _ => x < fieldP ∧ y < fieldP ∧ (x : FieldK) = x' ∧ (y : FieldK) = y'
  | .infinity, .some _ _ _ => False
  | .affine _ _, .zero => False

theorem PointRep.valid {q : CurvePoint} {w : curveW.Point} (h : PointRep q w) : q.valid = true := by
  match q, w, h with
  | .infinity, .zero, _ => rfl
  | .affine x y, .some x' y' hn, ⟨hx, hy, hx', hy'⟩ =>
    subst hx' hy'
    exact (onCurve_iff x y).mpr ⟨hx, hy, hn⟩

theorem exists_pointRep {q : CurvePoint} (h : q.valid = true) : ∃ w, PointRep q w := by
  match q, h with
  | .infinity, _ => exact ⟨.zero, trivial⟩
  | .affine x y, h =>
    obtain ⟨hx, hy, hn⟩ := (onCurve_iff x y).mp h
    exact ⟨.some _ _ hn, hx, hy, rfl, rfl⟩

/-- A group element has at most one representation. -/
theorem PointRep.unique {q r : CurvePoint} {w : curveW.Point} (hq : PointRep q w) (hr : PointRep r w) : q = r := by
  match q, r, w, hq, hr with
  | .infinity, .infinity, .zero, _, _ => rfl
  | .affine x y, .affine x' y', .some _ _ _, ⟨hx, hy, ex, ey⟩, ⟨hx', hy', ex', ey'⟩ =>
    rw [(cast_inj_fieldP hx hx').mp (ex.trans ex'.symm), (cast_inj_fieldP hy hy').mp (ey.trans ey'.symm)]

theorem PointRep.infinity_iff {q : CurvePoint} {w : curveW.Point} (h : PointRep q w) : q = .infinity ↔ w = 0 := by
  match q, w, h with
  | .infinity, .zero, _ => exact iff_of_true rfl rfl
  | .affine x y, .some _ _ _, _ =>
    exact iff_of_false (by simp) (WeierstrassCurve.Affine.Point.some_ne_zero _)

section Group

variable [Fact (Nat.Prime fieldP)]

omit [Fact (Nat.Prime fieldP)] in
theorem PointRep.zero : PointRep .infinity (0 : curveW.Point) := trivial

/-- The chord-and-tangent point is the sum. -/
theorem chordPoint_rep {l x1 y1 x2 : Nat} {x1' x2' y1' y2' : FieldK} {h1 : curveW.Nonsingular x1' y1'}
    {h2 : curveW.Nonsingular x2' y2'} (hx1 : (x1 : FieldK) = x1') (hy1 : (y1 : FieldK) = y1')
    (hx2 : (x2 : FieldK) = x2') (hl : (l : FieldK) = curveW.slope x1' x2' y1' y2')
    (hxy : ¬(x1' = x2' ∧ y1' = curveW.negY x2' y2')) :
    PointRep (chordPoint l x1 y1 x2)
      ((WeierstrassCurve.Affine.Point.some x1' y1' h1 : curveW.Point) + .some x2' y2' h2) := by
  have hx3 : ((fieldSub (fieldSub (l * l) x1) x2 : Nat) : FieldK) =
      curveW.addX x1' x2' (curveW.slope x1' x2' y1' y2') := by
    rw [cast_fieldSub, cast_fieldSub, Nat.cast_mul, hx1, hx2, hl]
    simp only [WeierstrassCurve.Affine.addX, curveW]
    ring
  rw [WeierstrassCurve.Affine.Point.add_some hxy]
  refine ⟨fieldSub_lt _ _, fieldSub_lt _ _, hx3, ?_⟩
  rw [cast_fieldSub, Nat.cast_mul, cast_fieldSub, hx3, hl, hx1, hy1]
  simp only [WeierstrassCurve.Affine.addY, WeierstrassCurve.Affine.negAddY, WeierstrassCurve.Affine.negY, curveW]
  ring

/-- `Add` (R175) is the addition of the group. -/
theorem PointRep.add {q r : CurvePoint} {v w : curveW.Point} (hq : PointRep q v) (hr : PointRep r w) :
    PointRep (q.add r) (v + w) := by
  match q, r, v, w, hq, hr with
  | .infinity, r, .zero, w, _, hr =>
    rw [← WeierstrassCurve.Affine.Point.zero_def, zero_add]
    exact hr
  | .affine x y, .infinity, .some x' y' hn, .zero, hq, _ =>
    rw [← WeierstrassCurve.Affine.Point.zero_def, add_zero]
    exact hq
  | .affine x1 y1, .affine x2 y2, .some x1' y1' h1, .some x2' y2' h2, ⟨hx1, hy1, ex1, ey1⟩, ⟨hx2, hy2, ex2, ey2⟩ =>
    subst ex1 ey1 ex2 ey2
    have exx : (x1 : FieldK) = x2 ↔ x1 = x2 := cast_inj_fieldP hx1 hx2
    have eyy : (y1 : FieldK) = y2 ↔ y1 = y2 := cast_inj_fieldP hy1 hy2
    have eneg : (y1 : FieldK) = curveW.negY (x2 : FieldK) (y2 : FieldK) ↔ (y1 + y2) % fieldP = 0 := neg_y_eq _ _ _
    simp only [CurvePoint.add]
    split
    · rename_i h
      rw [WeierstrassCurve.Affine.Point.add_of_Y_eq (exx.mpr h.1) (eneg.mpr h.2)]
      exact PointRep.zero
    · rename_i hne
      have hxy : ¬((x1 : FieldK) = x2 ∧ (y1 : FieldK) = curveW.negY (x2 : FieldK) (y2 : FieldK)) := fun h => hne ⟨exx.mp h.1, eneg.mp h.2⟩
      split
      · rename_i h
        refine chordPoint_rep rfl rfl rfl ?_ hxy
        have hy : (y1 : FieldK) ≠ curveW.negY (x2 : FieldK) (y2 : FieldK) := fun h' => hxy ⟨exx.mpr h.1, h'⟩
        rw [cast_mod_fieldP, Nat.cast_mul, cast_fieldInv,
          WeierstrassCurve.Affine.slope_of_Y_ne (exx.mpr h.1) hy, div_eq_mul_inv]
        push_cast
        refine congrArg₂ (· * ·) ?_ (congrArg (·⁻¹) ?_)
        · simp only [curveW]
          ring
        · simp only [WeierstrassCurve.Affine.negY, curveW]
          ring
      · rename_i h
        have hx : (x1 : FieldK) ≠ x2 := by
          intro hx
          rcases WeierstrassCurve.Affine.Y_eq_of_X_eq h1.1 h2.1 hx with hy | hy
          · exact h ⟨exx.mp hx, eyy.mp hy⟩
          · exact hxy ⟨hx, hy⟩
        refine chordPoint_rep rfl rfl rfl ?_ hxy
        rw [cast_mod_fieldP, Nat.cast_mul, cast_fieldInv, cast_fieldSub, cast_fieldSub,
          WeierstrassCurve.Affine.slope_of_X_ne hx, ← div_eq_mul_inv, ← neg_sub, ← neg_sub (x1 : FieldK),
          neg_div_neg_eq]

/-- `-P` (R174) is the negation of the group. -/
theorem PointRep.neg {q : CurvePoint} {w : curveW.Point} (h : PointRep q w) : PointRep q.neg (-w) := by
  match q, w, h with
  | .infinity, .zero, _ => exact trivial
  | .affine x y, .some x' y' hn, ⟨hx, hy, ex, ey⟩ =>
    refine ⟨hx, Nat.mod_lt _ fieldP_pos, ex, ?_⟩
    rw [cast_mod_fieldP, Nat.cast_sub hy.le, ZMod.natCast_self, ey]
    simp [WeierstrassCurve.Affine.negY, curveW]

/-- Repeated addition (R176) is the multiple of the group. -/
theorem PointRep.repeatedAdd {q : CurvePoint} {w : curveW.Point} (h : PointRep q w) (k : Nat) :
    PointRep (repeatedAdd k q) (k • w) := by
  induction k with
  | zero =>
    rw [zero_nsmul]
    exact PointRep.zero
  | succ k ih =>
    rw [succ_nsmul]
    exact ih.add h

/-- Double-and-add is the multiple of the group. -/
theorem PointRep.doubleAndAdd {q : CurvePoint} {w : curveW.Point} (h : PointRep q w) {bits k : Nat}
    (hk : k < 2 ^ bits) : PointRep (doubleAndAdd bits k q) (k • w) := by
  induction bits generalizing k q w with
  | zero =>
    obtain rfl : k = 0 := by simpa using hk
    rw [zero_nsmul]
    exact PointRep.zero
  | succ bits ih =>
    have rest := ih (h.add h) (k := k / 2) (by omega)
    have hw : (k / 2) • (w + w) = (2 * (k / 2)) • w := by rw [← two_nsmul, ← mul_nsmul]
    rw [hw] at rest
    simp only [Machine.doubleAndAdd]
    split
    · rename_i hodd
      have hk' : k • w = (2 * (k / 2)) • w + w := by
        rw [← succ_nsmul]
        congr 1
        omega
      rw [hk']
      exact rest.add h
    · rename_i heven
      rwa [Nat.mul_div_cancel' (by omega)] at rest

/-- Scalar multiplication is the multiple of the group. -/
theorem PointRep.scalarMul {q : CurvePoint} {w : curveW.Point} (h : PointRep q w) (k : Nat) :
    PointRep (scalarMul k q) (k • w) := h.doubleAndAdd Nat.lt_log2_self

/-- A multiple that is O in the block's arithmetic is zero in the group. -/
theorem PointRep.nsmul_eq_zero {q : CurvePoint} {w : curveW.Point} {k : Nat} (h : PointRep q w)
    (hk : Sys2Proof.Machine.scalarMul k q = .infinity) : k • w = 0 := by
  have := h.scalarMul k
  rw [hk] at this
  exact this.infinity_iff.1 rfl

/-- n times the group's copy of G is zero (R173). -/
theorem PointRep.groupN_nsmul {w : curveW.Point} (h : PointRep basePoint w) : groupN • w = 0 :=
  h.nsmul_eq_zero scalarMul_groupN

end Group

end Sys2Proof.Machine
end

