-- ==== Sys2Proof/Laws/Octets.lean ====
section
/-! SUPPORT. Lengths of octet strings and the steps of the big-endian value (R8, R143 to R147, R179, R203, R226). -/

namespace Sys2Proof.Machine

open Sys2Proof

@[simp] theorem octetsOfWord_length (w : Word) : (octetsOfWord w).length = 4 := rfl

@[simp] theorem octetsBE_length (n v : Nat) : (octetsBE n v).length = n := by
  induction n generalizing v with
  | zero => rfl
  | succ n ih => simp [octetsBE, ih]

@[simp] theorem decDigits_length (v w : Nat) : (decDigits v w).length = w := by
  induction w generalizing v with
  | zero => rfl
  | succ w ih => simp [decDigits, ih]

@[simp] theorem intBE_nil : intBE [] = 0 := rfl

/-- The last octet is the least significant digit (R8). -/
theorem intBE_concat (s : List Octet) (o : Octet) : intBE (s ++ [o]) = 256 * intBE s + o.toNat := by
  simp [intBE]

/-- `n` octets hold a value below `256^n` (R8). -/
theorem intBE_lt (s : List Octet) : intBE s < 256 ^ s.length := by
  induction s using List.reverseRecOn with
  | nil => simp
  | append_singleton s o ih =>
    rw [intBE_concat, List.length_append, List.length_singleton, pow_succ]
    have := o.isLt
    omega

@[simp] theorem xorOctets_length (s t : List Octet) : (xorOctets s t).length = min s.length t.length := by
  simp [xorOctets]

@[simp] theorem hashWords_octets_length (x : HashWords) : x.octets.length = 32 := by
  simp [HashWords.octets]

/-- A hash is 32 octets (R144). -/
@[simp] theorem sha256_length (m : List Octet) : (sha256 m).length = 32 := by
  simp [sha256]

/-- An HMAC is 32 octets (R145). -/
@[simp] theorem hmac_length (key m : List Octet) : (hmac key m).length = 32 := by
  simp [hmac]

theorem pbkdf2Iterate_length (n : Nat) (p u t : List Octet) (ht : t.length = 32) :
    (pbkdf2Iterate n p u t).length = 32 := by
  induction n generalizing u t with
  | zero => exact ht
  | succ n ih => exact ih _ _ (by simp [ht])

/-- One more iteration xors in the next value U, HMAC applied once more (R146). -/
theorem pbkdf2Iterate_succ (n : Nat) (p u t : List Octet) :
    pbkdf2Iterate (n + 1) p u t = xorOctets (pbkdf2Iterate n p u t) ((hmac p)^[n + 1] u) := by
  induction n generalizing u t with
  | zero => rfl
  | succ n ih =>
    rw [pbkdf2Iterate, ih, pbkdf2Iterate, Function.iterate_succ_apply (hmac p) (n + 1) u]

/-- The blocks of a derived key before it is cut are 32 octets each (R147). -/
theorem pbkdf2Blocks_length (p s : List Octet) (c n : Nat) :
    ((List.range n).flatMap fun j => pbkdf2Block p s c (j + 1)).length = 32 * n := by
  induction n with
  | zero => rfl
  | succ n ih =>
    rw [List.range_succ, List.flatMap_append, List.length_append, ih]
    simp [pbkdf2Block, pbkdf2Iterate_length]
    omega

/-- A block of PBKDF2 is 32 octets (R146). -/
@[simp] theorem pbkdf2Block_length (p s : List Octet) (c i : Nat) : (pbkdf2Block p s c i).length = 32 :=
  pbkdf2Iterate_length _ _ _ _ (by simp)

theorem pbkdf2_length_le (p s : List Octet) (c n : Nat) : (pbkdf2 p s c n).length ≤ n := by
  simp [pbkdf2]

@[simp] theorem base64Group_length (a b c : Octet) : (base64Group a b c).length = 4 := rfl

/-- 4 characters for every 3 octets begun (R203). -/
theorem base64_length_le (n : Nat) (s : List Octet) (h : s.length ≤ 3 * n) : (base64 s).length ≤ 4 * n := by
  induction n generalizing s with
  | zero =>
    obtain rfl : s = [] := List.length_eq_zero_iff.mp (by omega)
    simp [base64]
  | succ n ih =>
    match s, h with
    | [], _ => simp [base64]
    | [a], _ => simp [base64]
    | [a, b], _ => simp [base64]
    | a :: b :: c :: rest, h =>
      have := ih rest (by simp at h; omega)
      simp [base64]
      omega

/-- An encoded point is 65 octets (R179). -/
theorem encPoint_length {q : CurvePoint} {o : List Octet} (h : encPoint q = some o) : o.length = 65 := by
  match q, h with
  | .affine x y, h =>
    obtain rfl := Option.some.inj h
    simp

/-- The payload is 20 digits (R227). -/
@[simp] theorem codePayload_length (disc pc vid pid : Nat) : (codePayload disc pc vid pid).length = 20 := by
  simp [codePayload]

/-- The code is 21 digits (R227, C2). -/
@[simp] theorem manualCode_length (disc pc vid pid : Nat) : (manualCode disc pc vid pid).length = 21 := by
  simp [manualCode]

end Sys2Proof.Machine
end

