-- ==== Sys2Proof/Laws/Memory.lean ====
section
/-! SUPPORT. The laws of memory: what each operation changes, octet by octet, and that each keeps the canonical form. -/

namespace Sys2Proof.Machine

open Sys2Proof

@[simp] theorem Memory.read_nil (a : Nat) : Memory.read [] a = 0#8 := rfl

theorem Memory.read_cons (c : Host.Cell) (m : Memory) (a : Nat) :
    Memory.read (c :: m) a = if c.1 = a then c.2 else Memory.read m a := rfl

theorem Memory.read_filter_of_ne (m : Memory) (p : Host.Cell → Bool) (a : Nat)
    (h : ∀ v, p (a, v) = true) : Memory.read (m.filter p) a = Memory.read m a := by
  induction m with
  | nil => rfl
  | cons c m ih =>
    by_cases hp : p c = true
    · rw [List.filter_cons_of_pos hp, read_cons, read_cons, ih]
    · have hc : c.1 ≠ a := by
        rintro rfl
        exact hp (h c.2)
      rw [List.filter_cons_of_neg hp, read_cons, if_neg hc, ih]

theorem Memory.read_filter_of_gone (m : Memory) (p : Host.Cell → Bool) (a : Nat)
    (h : ∀ v, p (a, v) = false) : Memory.read (m.filter p) a = 0#8 := by
  induction m with
  | nil => rfl
  | cons c m ih =>
    by_cases hp : p c = true
    · have hc : c.1 ≠ a := by
        rintro rfl
        simp [h c.2] at hp
      rw [List.filter_cons_of_pos hp, read_cons, if_neg hc, ih]
    · rw [List.filter_cons_of_neg hp, ih]

theorem Memory.read_insertCell (m : Memory) (a b : Nat) (v : Octet) (h : ∀ c ∈ m, c.1 ≠ a) :
    Memory.read (Memory.insertCell m a v) b = if b = a then v else Memory.read m b := by
  induction m with
  | nil => simp [insertCell, read_cons, eq_comm]
  | cons c m ih =>
    have hc : c.1 ≠ a := h c (by simp)
    simp only [insertCell]
    split
    · rw [read_cons, read_cons, ih fun d hd => h d (by simp [hd])]
      split <;> split <;> simp_all
    · rw [read_cons]
      simp only [eq_comm]

/-- A read after a write: the octet written at its place, the old octet everywhere else. -/
theorem Memory.read_write (m : Memory) (a b : Nat) (v : Octet) :
    Memory.read (Memory.write m a v) b = if b = a then v else Memory.read m b := by
  simp only [write]
  by_cases hb : b = a
  · subst hb
    split
    · rename_i hv
      rw [read_filter_of_gone _ _ _ (by simp)]
      simp [hv]
    · rw [read_insertCell _ _ _ _ (by simp)]
      simp
  · rw [if_neg hb]
    split
    · exact read_filter_of_ne _ _ _ (by simp [hb])
    · rw [read_insertCell _ _ _ _ (by simp), if_neg hb]
      exact read_filter_of_ne _ _ _ (by simp [hb])

@[simp] theorem Memory.read_write_same (m : Memory) (a : Nat) (v : Octet) :
    Memory.read (Memory.write m a v) a = v := by
  rw [read_write, if_pos rfl]

theorem Memory.read_write_other (m : Memory) (a b : Nat) (v : Octet) (h : b ≠ a) :
    Memory.read (Memory.write m a v) b = Memory.read m b := by
  rw [read_write, if_neg h]

/-- A read after a string was written from `a` on: its octets at their places, the old octets everywhere else. -/
theorem Memory.read_writeOctets (m : Memory) (a b : Nat) (s : List Octet) :
    Memory.read (Memory.writeOctets m a s) b =
      if a ≤ b ∧ b < a + s.length then s.getD (b - a) 0#8 else Memory.read m b := by
  induction s generalizing m a with
  | nil => simp [writeOctets]
  | cons o s ih =>
    rw [writeOctets, ih, read_write]
    rcases Nat.lt_trichotomy b a with h | h | h
    · rw [if_neg (by omega), if_neg (by omega), if_neg (by simp; omega)]
    · subst h
      rw [if_neg (by omega), if_pos rfl, if_pos (by simp)]
      simp
    · have hb : b - a = (b - (a + 1)) + 1 := by omega
      by_cases hl : b < a + 1 + s.length
      · rw [if_pos ⟨by omega, hl⟩, if_pos ⟨by omega, by simp; omega⟩, hb, List.getD_cons_succ]
      · rw [if_neg (by omega), if_neg (by omega), if_neg (by simp; omega)]

theorem Memory.read_writeOctets_outside (m : Memory) (a b : Nat) (s : List Octet)
    (h : b < a ∨ a + s.length ≤ b) : Memory.read (Memory.writeOctets m a s) b = Memory.read m b := by
  rw [read_writeOctets, if_neg (by omega)]

theorem Memory.read_writeOctets_inside (m : Memory) (a i : Nat) (s : List Octet) (h : i < s.length) :
    Memory.read (Memory.writeOctets m a s) (a + i) = s.getD i 0#8 := by
  rw [read_writeOctets, if_pos ⟨by omega, by omega⟩]
  congr 1
  omega

/-- A read after a range was zeroed. -/
theorem Memory.read_zeroFill (m : Memory) (a n b : Nat) :
    Memory.read (Memory.zeroFill m a n) b = if a ≤ b ∧ b < a + n then 0#8 else Memory.read m b := by
  unfold zeroFill
  split
  · rename_i h
    exact read_filter_of_gone _ _ _ (by simp [h.1, h.2])
  · rename_i h
    exact read_filter_of_ne _ _ _ fun v => by
      simp only [Bool.not_eq_true', Bool.and_eq_false_iff, decide_eq_false_iff_not]
      omega

@[simp] theorem Memory.readOctets_length (m : Memory) (a n : Nat) : (Memory.readOctets m a n).length = n := by
  simp [readOctets]

theorem Memory.readOctets_getD (m : Memory) (a n i : Nat) (h : i < n) :
    (Memory.readOctets m a n).getD i 0#8 = Memory.read m (a + i) := by
  simp [readOctets, List.getD, h]

theorem Memory.readOctets_congr {m m' : Memory} {a n : Nat}
    (h : ∀ i < n, Memory.read m' (a + i) = Memory.read m (a + i)) :
    Memory.readOctets m' a n = Memory.readOctets m a n :=
  List.map_congr_left fun i hi => h i (List.mem_range.mp hi)

/-- Octets written are read back. -/
theorem Memory.readOctets_writeOctets (m : Memory) (a : Nat) (s : List Octet) :
    Memory.readOctets (Memory.writeOctets m a s) a s.length = s := by
  refine List.ext_getElem (by simp) fun i h1 h2 => ?_
  have := Memory.read_writeOctets_inside m a i s h2
  simpa [readOctets, List.getD, h2] using this

/-- Octets outside those written are read as before. -/
theorem Memory.readOctets_writeOctets_outside (m : Memory) (a b n : Nat) (s : List Octet)
    (h : b + n ≤ a ∨ a + s.length ≤ b) :
    Memory.readOctets (Memory.writeOctets m a s) b n = Memory.readOctets m b n :=
  Memory.readOctets_congr fun i hi => Memory.read_writeOctets_outside m a (b + i) s (by omega)

/-! ### The canonical form -/

theorem Memory.wf_nil : Memory.wf [] := by simp [wf]

theorem Memory.wf_filter {m : Memory} (p : Host.Cell → Bool) (h : Memory.wf m) : Memory.wf (m.filter p) :=
  ⟨h.1.filter p, fun c hc => h.2 c (List.mem_of_mem_filter hc)⟩

theorem Memory.mem_insertCell {m : Memory} {a : Nat} {v : Octet} {c : Host.Cell} :
    c ∈ Memory.insertCell m a v ↔ c = (a, v) ∨ c ∈ m := by
  induction m with
  | nil => simp [insertCell]
  | cons d m ih =>
    simp only [insertCell]
    split
    · simp only [List.mem_cons, ih]
      tauto
    · simp

theorem Memory.wf_insertCell {m : Memory} {a : Nat} {v : Octet} (h : Memory.wf m) (hv : v ≠ 0#8)
    (ha : ∀ c ∈ m, c.1 ≠ a) : Memory.wf (Memory.insertCell m a v) := by
  induction m with
  | nil => simpa [insertCell, wf] using hv
  | cons d m ih =>
    obtain ⟨hs, hz⟩ := h
    obtain ⟨hd, hs⟩ := List.pairwise_cons.mp hs
    have ih := ih ⟨hs, fun c hc => hz c (by simp [hc])⟩ fun c hc => ha c (by simp [hc])
    have hda : d.1 ≠ a := ha d (by simp)
    simp only [insertCell]
    split
    · rename_i hlt
      refine ⟨List.pairwise_cons.mpr ⟨fun c hc => ?_, ih.1⟩, fun c hc => ?_⟩
      · rcases mem_insertCell.mp hc with rfl | hc
        · exact hlt
        · exact hd c hc
      · rcases List.mem_cons.mp hc with rfl | hc
        · exact hz _ (by simp)
        · exact ih.2 c hc
    · rename_i hlt
      refine ⟨List.pairwise_cons.mpr ⟨fun c hc => ?_, List.pairwise_cons.mpr ⟨hd, hs⟩⟩, fun c hc => ?_⟩
      · rcases List.mem_cons.mp hc with rfl | hc
        · show a < c.1
          omega
        · have := hd c hc
          show a < c.1
          omega
      · rcases List.mem_cons.mp hc with rfl | hc
        · exact hv
        · exact hz c hc

theorem Memory.wf_write {m : Memory} (a : Nat) (v : Octet) (h : Memory.wf m) : Memory.wf (Memory.write m a v) := by
  simp only [write]
  split
  · exact wf_filter _ h
  · rename_i hv
    exact wf_insertCell (wf_filter _ h) hv (by simp)

theorem Memory.wf_writeOctets {m : Memory} (a : Nat) (s : List Octet) (h : Memory.wf m) :
    Memory.wf (Memory.writeOctets m a s) := by
  induction s generalizing m a with
  | nil => exact h
  | cons o s ih => exact ih (a + 1) (wf_write a o h)

theorem Memory.wf_zeroFill {m : Memory} (a n : Nat) (h : Memory.wf m) : Memory.wf (Memory.zeroFill m a n) :=
  wf_filter _ h

/-! ### Which cells a memory lists -/

theorem Memory.mem_write {m : Memory} {a : Nat} {v : Octet} {c : Host.Cell} (h : c ∈ Memory.write m a v) :
    c.1 = a ∨ c ∈ m := by
  simp only [write] at h
  split at h
  · exact .inr (List.mem_of_mem_filter h)
  · rcases mem_insertCell.mp h with rfl | h
    · exact .inl rfl
    · exact .inr (List.mem_of_mem_filter h)

theorem Memory.mem_writeOctets {m : Memory} {a : Nat} {s : List Octet} {c : Host.Cell}
    (h : c ∈ Memory.writeOctets m a s) : (a ≤ c.1 ∧ c.1 < a + s.length) ∨ c ∈ m := by
  induction s generalizing m a with
  | nil => exact .inr h
  | cons o s ih =>
    rcases ih h with h | h
    · exact .inl ⟨by omega, by simp; omega⟩
    · rcases mem_write h with h | h
      · exact .inl ⟨by omega, by simp; omega⟩
      · exact .inr h

theorem Memory.mem_zeroFill {m : Memory} {a n : Nat} {c : Host.Cell} (h : c ∈ Memory.zeroFill m a n) : c ∈ m :=
  List.mem_of_mem_filter h

/-- Equal reads make equal canonical memories. -/
theorem Memory.ext_of_read {m m' : Memory} (h : Memory.wf m) (h' : Memory.wf m')
    (hr : ∀ a, Memory.read m a = Memory.read m' a) : m = m' := by
  have lookup : ∀ {m : Memory}, Memory.wf m → ∀ c : Host.Cell, c ∈ m ↔ Memory.read m c.1 = c.2 ∧ c.2 ≠ 0#8 := by
    intro m
    induction m with
    | nil => exact fun _ c => ⟨fun h => absurd h (by simp), fun h => absurd h.1.symm h.2⟩
    | cons d m ih =>
      intro hw c
      obtain ⟨hd, hs⟩ := List.pairwise_cons.mp hw.1
      have ih := ih ⟨hs, fun c hc => hw.2 c (by simp [hc])⟩ c
      rw [List.mem_cons, ih, read_cons]
      by_cases hdc : d.1 = c.1
      · rw [if_pos hdc]
        constructor
        · rintro (rfl | h)
          · exact ⟨rfl, hw.2 _ (by simp)⟩
          · have := hd c (ih.mpr h)
            omega
        · exact fun h => .inl (Prod.ext hdc.symm h.1.symm)
      · rw [if_neg hdc]
        constructor
        · rintro (rfl | h)
          · exact absurd rfl hdc
          · exact h
        · exact .inr
  have nodup : ∀ {m : Memory}, Memory.wf m → m.Nodup := fun hw =>
    hw.1.imp fun hlt he => by
      subst he
      exact absurd hlt (Nat.lt_irrefl _)
  have perm : m.Perm m' := (List.perm_ext_iff_of_nodup (nodup h) (nodup h')).mpr fun c => by
    rw [lookup h, lookup h', hr]
  exact perm.eq_of_pairwise (fun c d _ _ h1 h2 => absurd h1 (Nat.lt_asymm h2)) h.1 h'.1

end Sys2Proof.Machine
end

