-- ==== Sys2Proof/Laws/State.lean ====
section
/-! SUPPORT. For every update of the state, one lemma per field: what the update makes of it. -/

namespace Sys2Proof.Machine

open Sys2Proof

variable (s : State)

/-! ### acknowledge -/

@[simp] theorem State.acknowledge_phase (v : Word) : (s.acknowledge v).phase = s.phase := rfl
@[simp] theorem State.acknowledge_cmd (v : Word) : (s.acknowledge v).cmd = s.cmd := rfl
@[simp] theorem State.acknowledge_done (v : Word) : (s.acknowledge v).done = (s.done && !v.getLsbD 1) := rfl
@[simp] theorem State.acknowledge_err (v : Word) : (s.acknowledge v).err = (s.err && !v.getLsbD 2) := rfl
@[simp] theorem State.acknowledge_wbusy (v : Word) : (s.acknowledge v).wbusy = (s.wbusy && !v.getLsbD 3) := rfl
@[simp] theorem State.acknowledge_errcode (v : Word) : (s.acknowledge v).errcode = s.errcode := rfl
@[simp] theorem State.acknowledge_irqEn (v : Word) : (s.acknowledge v).irqEn = s.irqEn := rfl
@[simp] theorem State.acknowledge_result (v : Word) : (s.acknowledge v).result = s.result := rfl
@[simp] theorem State.acknowledge_resultLen (v : Word) : (s.acknowledge v).resultLen = s.resultLen := rfl
@[simp] theorem State.acknowledge_passcode (v : Word) : (s.acknowledge v).passcode = s.passcode := rfl
@[simp] theorem State.acknowledge_iterations (v : Word) : (s.acknowledge v).iterations = s.iterations := rfl
@[simp] theorem State.acknowledge_saltLen (v : Word) : (s.acknowledge v).saltLen = s.saltLen := rfl
@[simp] theorem State.acknowledge_pwdLen (v : Word) : (s.acknowledge v).pwdLen = s.pwdLen := rfl
@[simp] theorem State.acknowledge_dkLen (v : Word) : (s.acknowledge v).dkLen = s.dkLen := rfl
@[simp] theorem State.acknowledge_discriminator (v : Word) : (s.acknowledge v).discriminator = s.discriminator := rfl
@[simp] theorem State.acknowledge_vid (v : Word) : (s.acknowledge v).vid = s.vid := rfl
@[simp] theorem State.acknowledge_pid (v : Word) : (s.acknowledge v).pid = s.pid := rfl
@[simp] theorem State.acknowledge_digitsLen (v : Word) : (s.acknowledge v).digitsLen = s.digitsLen := rfl
@[simp] theorem State.acknowledge_mem (v : Word) : (s.acknowledge v).mem = s.mem := rfl
@[simp] theorem State.acknowledge_latch (v : Word) : (s.acknowledge v).latch = s.latch := rfl
@[simp] theorem State.acknowledge_env (v : Word) : (s.acknowledge v).env = s.env := rfl

/-! ### noteDropped -/

@[simp] theorem State.noteDropped_phase : (s.noteDropped).phase = s.phase := rfl
@[simp] theorem State.noteDropped_cmd : (s.noteDropped).cmd = s.cmd := rfl
@[simp] theorem State.noteDropped_done : (s.noteDropped).done = s.done := rfl
@[simp] theorem State.noteDropped_err : (s.noteDropped).err = s.err := rfl
@[simp] theorem State.noteDropped_wbusy : (s.noteDropped).wbusy = true := rfl
@[simp] theorem State.noteDropped_errcode : (s.noteDropped).errcode = s.errcode := rfl
@[simp] theorem State.noteDropped_irqEn : (s.noteDropped).irqEn = s.irqEn := rfl
@[simp] theorem State.noteDropped_result : (s.noteDropped).result = s.result := rfl
@[simp] theorem State.noteDropped_resultLen : (s.noteDropped).resultLen = s.resultLen := rfl
@[simp] theorem State.noteDropped_passcode : (s.noteDropped).passcode = s.passcode := rfl
@[simp] theorem State.noteDropped_iterations : (s.noteDropped).iterations = s.iterations := rfl
@[simp] theorem State.noteDropped_saltLen : (s.noteDropped).saltLen = s.saltLen := rfl
@[simp] theorem State.noteDropped_pwdLen : (s.noteDropped).pwdLen = s.pwdLen := rfl
@[simp] theorem State.noteDropped_dkLen : (s.noteDropped).dkLen = s.dkLen := rfl
@[simp] theorem State.noteDropped_discriminator : (s.noteDropped).discriminator = s.discriminator := rfl
@[simp] theorem State.noteDropped_vid : (s.noteDropped).vid = s.vid := rfl
@[simp] theorem State.noteDropped_pid : (s.noteDropped).pid = s.pid := rfl
@[simp] theorem State.noteDropped_digitsLen : (s.noteDropped).digitsLen = s.digitsLen := rfl
@[simp] theorem State.noteDropped_mem : (s.noteDropped).mem = s.mem := rfl
@[simp] theorem State.noteDropped_latch : (s.noteDropped).latch = s.latch := rfl
@[simp] theorem State.noteDropped_env : (s.noteDropped).env = s.env := rfl

/-! ### enableIrq -/

@[simp] theorem State.enableIrq_phase (v : Word) : (s.enableIrq v).phase = s.phase := rfl
@[simp] theorem State.enableIrq_cmd (v : Word) : (s.enableIrq v).cmd = s.cmd := rfl
@[simp] theorem State.enableIrq_done (v : Word) : (s.enableIrq v).done = s.done := rfl
@[simp] theorem State.enableIrq_err (v : Word) : (s.enableIrq v).err = s.err := rfl
@[simp] theorem State.enableIrq_wbusy (v : Word) : (s.enableIrq v).wbusy = s.wbusy := rfl
@[simp] theorem State.enableIrq_errcode (v : Word) : (s.enableIrq v).errcode = s.errcode := rfl
@[simp] theorem State.enableIrq_irqEn (v : Word) : (s.enableIrq v).irqEn = v.setWidth 3 := rfl
@[simp] theorem State.enableIrq_result (v : Word) : (s.enableIrq v).result = s.result := rfl
@[simp] theorem State.enableIrq_resultLen (v : Word) : (s.enableIrq v).resultLen = s.resultLen := rfl
@[simp] theorem State.enableIrq_passcode (v : Word) : (s.enableIrq v).passcode = s.passcode := rfl
@[simp] theorem State.enableIrq_iterations (v : Word) : (s.enableIrq v).iterations = s.iterations := rfl
@[simp] theorem State.enableIrq_saltLen (v : Word) : (s.enableIrq v).saltLen = s.saltLen := rfl
@[simp] theorem State.enableIrq_pwdLen (v : Word) : (s.enableIrq v).pwdLen = s.pwdLen := rfl
@[simp] theorem State.enableIrq_dkLen (v : Word) : (s.enableIrq v).dkLen = s.dkLen := rfl
@[simp] theorem State.enableIrq_discriminator (v : Word) : (s.enableIrq v).discriminator = s.discriminator := rfl
@[simp] theorem State.enableIrq_vid (v : Word) : (s.enableIrq v).vid = s.vid := rfl
@[simp] theorem State.enableIrq_pid (v : Word) : (s.enableIrq v).pid = s.pid := rfl
@[simp] theorem State.enableIrq_digitsLen (v : Word) : (s.enableIrq v).digitsLen = s.digitsLen := rfl
@[simp] theorem State.enableIrq_mem (v : Word) : (s.enableIrq v).mem = s.mem := rfl
@[simp] theorem State.enableIrq_latch (v : Word) : (s.enableIrq v).latch = s.latch := rfl
@[simp] theorem State.enableIrq_env (v : Word) : (s.enableIrq v).env = s.env := rfl

/-! ### setBufWord -/

@[simp] theorem State.setBufWord_phase (b : Buffer) (j : Nat) (v : Word) : (s.setBufWord b j v).phase = s.phase := rfl
@[simp] theorem State.setBufWord_cmd (b : Buffer) (j : Nat) (v : Word) : (s.setBufWord b j v).cmd = s.cmd := rfl
@[simp] theorem State.setBufWord_done (b : Buffer) (j : Nat) (v : Word) : (s.setBufWord b j v).done = s.done := rfl
@[simp] theorem State.setBufWord_err (b : Buffer) (j : Nat) (v : Word) : (s.setBufWord b j v).err = s.err := rfl
@[simp] theorem State.setBufWord_wbusy (b : Buffer) (j : Nat) (v : Word) : (s.setBufWord b j v).wbusy = s.wbusy := rfl
@[simp] theorem State.setBufWord_errcode (b : Buffer) (j : Nat) (v : Word) : (s.setBufWord b j v).errcode = s.errcode := rfl
@[simp] theorem State.setBufWord_irqEn (b : Buffer) (j : Nat) (v : Word) : (s.setBufWord b j v).irqEn = s.irqEn := rfl
@[simp] theorem State.setBufWord_result (b : Buffer) (j : Nat) (v : Word) : (s.setBufWord b j v).result = s.result := rfl
@[simp] theorem State.setBufWord_resultLen (b : Buffer) (j : Nat) (v : Word) : (s.setBufWord b j v).resultLen = s.resultLen := rfl
@[simp] theorem State.setBufWord_passcode (b : Buffer) (j : Nat) (v : Word) : (s.setBufWord b j v).passcode = s.passcode := rfl
@[simp] theorem State.setBufWord_iterations (b : Buffer) (j : Nat) (v : Word) : (s.setBufWord b j v).iterations = s.iterations := rfl
@[simp] theorem State.setBufWord_saltLen (b : Buffer) (j : Nat) (v : Word) : (s.setBufWord b j v).saltLen = s.saltLen := rfl
@[simp] theorem State.setBufWord_pwdLen (b : Buffer) (j : Nat) (v : Word) : (s.setBufWord b j v).pwdLen = s.pwdLen := rfl
@[simp] theorem State.setBufWord_dkLen (b : Buffer) (j : Nat) (v : Word) : (s.setBufWord b j v).dkLen = s.dkLen := rfl
@[simp] theorem State.setBufWord_discriminator (b : Buffer) (j : Nat) (v : Word) : (s.setBufWord b j v).discriminator = s.discriminator := rfl
@[simp] theorem State.setBufWord_vid (b : Buffer) (j : Nat) (v : Word) : (s.setBufWord b j v).vid = s.vid := rfl
@[simp] theorem State.setBufWord_pid (b : Buffer) (j : Nat) (v : Word) : (s.setBufWord b j v).pid = s.pid := rfl
@[simp] theorem State.setBufWord_digitsLen (b : Buffer) (j : Nat) (v : Word) : (s.setBufWord b j v).digitsLen = s.digitsLen := rfl
@[simp] theorem State.setBufWord_mem (b : Buffer) (j : Nat) (v : Word) : (s.setBufWord b j v).mem = Memory.writeOctets s.mem (b.base + 4 * j) (octetsOfWord v) := rfl
@[simp] theorem State.setBufWord_latch (b : Buffer) (j : Nat) (v : Word) : (s.setBufWord b j v).latch = s.latch := rfl
@[simp] theorem State.setBufWord_env (b : Buffer) (j : Nat) (v : Word) : (s.setBufWord b j v).env = s.env := rfl

/-! ### start -/

@[simp] theorem State.start_phase (v : Word) : (s.start v).phase = .busy := rfl
@[simp] theorem State.start_cmd (v : Word) : (s.start v).cmd = v := rfl
@[simp] theorem State.start_done (v : Word) : (s.start v).done = false := rfl
@[simp] theorem State.start_err (v : Word) : (s.start v).err = false := rfl
@[simp] theorem State.start_wbusy (v : Word) : (s.start v).wbusy = s.wbusy := rfl
@[simp] theorem State.start_errcode (v : Word) : (s.start v).errcode = 0#8 := rfl
@[simp] theorem State.start_irqEn (v : Word) : (s.start v).irqEn = s.irqEn := rfl
@[simp] theorem State.start_result (v : Word) : (s.start v).result = 0#32 := rfl
@[simp] theorem State.start_resultLen (v : Word) : (s.start v).resultLen = 0#32 := rfl
@[simp] theorem State.start_passcode (v : Word) : (s.start v).passcode = s.passcode := rfl
@[simp] theorem State.start_iterations (v : Word) : (s.start v).iterations = s.iterations := rfl
@[simp] theorem State.start_saltLen (v : Word) : (s.start v).saltLen = s.saltLen := rfl
@[simp] theorem State.start_pwdLen (v : Word) : (s.start v).pwdLen = s.pwdLen := rfl
@[simp] theorem State.start_dkLen (v : Word) : (s.start v).dkLen = s.dkLen := rfl
@[simp] theorem State.start_discriminator (v : Word) : (s.start v).discriminator = s.discriminator := rfl
@[simp] theorem State.start_vid (v : Word) : (s.start v).vid = s.vid := rfl
@[simp] theorem State.start_pid (v : Word) : (s.start v).pid = s.pid := rfl
@[simp] theorem State.start_digitsLen (v : Word) : (s.start v).digitsLen = s.digitsLen := rfl
@[simp] theorem State.start_mem (v : Word) : (s.start v).mem = Memory.zeroFill (Memory.zeroFill s.mem Buffer.out.base Buffer.out.size) Buffer.b64.base Buffer.b64.size := rfl
@[simp] theorem State.start_latch (v : Word) : (s.start v).latch = some v := rfl
@[simp] theorem State.start_env (v : Word) : (s.start v).env = s.env := rfl

/-! ### completeOk -/

@[simp] theorem State.completeOk_phase (r : Results) : (s.completeOk r).phase = .idle := rfl
@[simp] theorem State.completeOk_cmd (r : Results) : (s.completeOk r).cmd = s.cmd := rfl
@[simp] theorem State.completeOk_done (r : Results) : (s.completeOk r).done = true := rfl
@[simp] theorem State.completeOk_err (r : Results) : (s.completeOk r).err = s.err := rfl
@[simp] theorem State.completeOk_wbusy (r : Results) : (s.completeOk r).wbusy = s.wbusy := rfl
@[simp] theorem State.completeOk_errcode (r : Results) : (s.completeOk r).errcode = s.errcode := rfl
@[simp] theorem State.completeOk_irqEn (r : Results) : (s.completeOk r).irqEn = s.irqEn := rfl
@[simp] theorem State.completeOk_result (r : Results) : (s.completeOk r).result = BitVec.ofNat 32 r.result := rfl
@[simp] theorem State.completeOk_resultLen (r : Results) : (s.completeOk r).resultLen = BitVec.ofNat 32 r.resultLen := rfl
@[simp] theorem State.completeOk_passcode (r : Results) : (s.completeOk r).passcode = s.passcode := rfl
@[simp] theorem State.completeOk_iterations (r : Results) : (s.completeOk r).iterations = s.iterations := rfl
@[simp] theorem State.completeOk_saltLen (r : Results) : (s.completeOk r).saltLen = s.saltLen := rfl
@[simp] theorem State.completeOk_pwdLen (r : Results) : (s.completeOk r).pwdLen = s.pwdLen := rfl
@[simp] theorem State.completeOk_dkLen (r : Results) : (s.completeOk r).dkLen = s.dkLen := rfl
@[simp] theorem State.completeOk_discriminator (r : Results) : (s.completeOk r).discriminator = s.discriminator := rfl
@[simp] theorem State.completeOk_vid (r : Results) : (s.completeOk r).vid = s.vid := rfl
@[simp] theorem State.completeOk_pid (r : Results) : (s.completeOk r).pid = s.pid := rfl
@[simp] theorem State.completeOk_digitsLen (r : Results) : (s.completeOk r).digitsLen = s.digitsLen := rfl
@[simp] theorem State.completeOk_mem (r : Results) : (s.completeOk r).mem = Memory.writeOctets (Memory.writeOctets s.mem Buffer.out.base r.out) Buffer.b64.base r.b64 := rfl
@[simp] theorem State.completeOk_latch (r : Results) : (s.completeOk r).latch = none := rfl
@[simp] theorem State.completeOk_env (r : Results) : (s.completeOk r).env = s.env := rfl

/-! ### completeError -/

@[simp] theorem State.completeError_phase (e : EngineError) : (s.completeError e).phase = .idle := rfl
@[simp] theorem State.completeError_cmd (e : EngineError) : (s.completeError e).cmd = s.cmd := rfl
@[simp] theorem State.completeError_done (e : EngineError) : (s.completeError e).done = true := rfl
@[simp] theorem State.completeError_err (e : EngineError) : (s.completeError e).err = true := rfl
@[simp] theorem State.completeError_wbusy (e : EngineError) : (s.completeError e).wbusy = s.wbusy := rfl
@[simp] theorem State.completeError_errcode (e : EngineError) : (s.completeError e).errcode = e.code := rfl
@[simp] theorem State.completeError_irqEn (e : EngineError) : (s.completeError e).irqEn = s.irqEn := rfl
@[simp] theorem State.completeError_result (e : EngineError) : (s.completeError e).result = s.result := rfl
@[simp] theorem State.completeError_resultLen (e : EngineError) : (s.completeError e).resultLen = s.resultLen := rfl
@[simp] theorem State.completeError_passcode (e : EngineError) : (s.completeError e).passcode = s.passcode := rfl
@[simp] theorem State.completeError_iterations (e : EngineError) : (s.completeError e).iterations = s.iterations := rfl
@[simp] theorem State.completeError_saltLen (e : EngineError) : (s.completeError e).saltLen = s.saltLen := rfl
@[simp] theorem State.completeError_pwdLen (e : EngineError) : (s.completeError e).pwdLen = s.pwdLen := rfl
@[simp] theorem State.completeError_dkLen (e : EngineError) : (s.completeError e).dkLen = s.dkLen := rfl
@[simp] theorem State.completeError_discriminator (e : EngineError) : (s.completeError e).discriminator = s.discriminator := rfl
@[simp] theorem State.completeError_vid (e : EngineError) : (s.completeError e).vid = s.vid := rfl
@[simp] theorem State.completeError_pid (e : EngineError) : (s.completeError e).pid = s.pid := rfl
@[simp] theorem State.completeError_digitsLen (e : EngineError) : (s.completeError e).digitsLen = s.digitsLen := rfl
@[simp] theorem State.completeError_mem (e : EngineError) : (s.completeError e).mem = s.mem := rfl
@[simp] theorem State.completeError_latch (e : EngineError) : (s.completeError e).latch = none := rfl
@[simp] theorem State.completeError_env (e : EngineError) : (s.completeError e).env = s.env := rfl

/-! ### respond -/

@[simp] theorem State.respond_phase (b : BusStatus) (d : Word) : (s.respond b d).phase = s.phase := rfl
@[simp] theorem State.respond_cmd (b : BusStatus) (d : Word) : (s.respond b d).cmd = s.cmd := rfl
@[simp] theorem State.respond_done (b : BusStatus) (d : Word) : (s.respond b d).done = s.done := rfl
@[simp] theorem State.respond_err (b : BusStatus) (d : Word) : (s.respond b d).err = s.err := rfl
@[simp] theorem State.respond_wbusy (b : BusStatus) (d : Word) : (s.respond b d).wbusy = s.wbusy := rfl
@[simp] theorem State.respond_errcode (b : BusStatus) (d : Word) : (s.respond b d).errcode = s.errcode := rfl
@[simp] theorem State.respond_irqEn (b : BusStatus) (d : Word) : (s.respond b d).irqEn = s.irqEn := rfl
@[simp] theorem State.respond_result (b : BusStatus) (d : Word) : (s.respond b d).result = s.result := rfl
@[simp] theorem State.respond_resultLen (b : BusStatus) (d : Word) : (s.respond b d).resultLen = s.resultLen := rfl
@[simp] theorem State.respond_passcode (b : BusStatus) (d : Word) : (s.respond b d).passcode = s.passcode := rfl
@[simp] theorem State.respond_iterations (b : BusStatus) (d : Word) : (s.respond b d).iterations = s.iterations := rfl
@[simp] theorem State.respond_saltLen (b : BusStatus) (d : Word) : (s.respond b d).saltLen = s.saltLen := rfl
@[simp] theorem State.respond_pwdLen (b : BusStatus) (d : Word) : (s.respond b d).pwdLen = s.pwdLen := rfl
@[simp] theorem State.respond_dkLen (b : BusStatus) (d : Word) : (s.respond b d).dkLen = s.dkLen := rfl
@[simp] theorem State.respond_discriminator (b : BusStatus) (d : Word) : (s.respond b d).discriminator = s.discriminator := rfl
@[simp] theorem State.respond_vid (b : BusStatus) (d : Word) : (s.respond b d).vid = s.vid := rfl
@[simp] theorem State.respond_pid (b : BusStatus) (d : Word) : (s.respond b d).pid = s.pid := rfl
@[simp] theorem State.respond_digitsLen (b : BusStatus) (d : Word) : (s.respond b d).digitsLen = s.digitsLen := rfl
@[simp] theorem State.respond_mem (b : BusStatus) (d : Word) : (s.respond b d).mem = s.mem := rfl
@[simp] theorem State.respond_latch (b : BusStatus) (d : Word) : (s.respond b d).latch = s.latch := rfl
@[simp] theorem State.respond_env (b : BusStatus) (d : Word) : (s.respond b d).env = { s.env with response := some ⟨b, d⟩ } := rfl

/-! ### countDraw -/

@[simp] theorem State.countDraw_phase (b : Bool) : (s.countDraw b).phase = s.phase := rfl
@[simp] theorem State.countDraw_cmd (b : Bool) : (s.countDraw b).cmd = s.cmd := rfl
@[simp] theorem State.countDraw_done (b : Bool) : (s.countDraw b).done = s.done := rfl
@[simp] theorem State.countDraw_err (b : Bool) : (s.countDraw b).err = s.err := rfl
@[simp] theorem State.countDraw_wbusy (b : Bool) : (s.countDraw b).wbusy = s.wbusy := rfl
@[simp] theorem State.countDraw_errcode (b : Bool) : (s.countDraw b).errcode = s.errcode := rfl
@[simp] theorem State.countDraw_irqEn (b : Bool) : (s.countDraw b).irqEn = s.irqEn := rfl
@[simp] theorem State.countDraw_result (b : Bool) : (s.countDraw b).result = s.result := rfl
@[simp] theorem State.countDraw_resultLen (b : Bool) : (s.countDraw b).resultLen = s.resultLen := rfl
@[simp] theorem State.countDraw_passcode (b : Bool) : (s.countDraw b).passcode = s.passcode := rfl
@[simp] theorem State.countDraw_iterations (b : Bool) : (s.countDraw b).iterations = s.iterations := rfl
@[simp] theorem State.countDraw_saltLen (b : Bool) : (s.countDraw b).saltLen = s.saltLen := rfl
@[simp] theorem State.countDraw_pwdLen (b : Bool) : (s.countDraw b).pwdLen = s.pwdLen := rfl
@[simp] theorem State.countDraw_dkLen (b : Bool) : (s.countDraw b).dkLen = s.dkLen := rfl
@[simp] theorem State.countDraw_discriminator (b : Bool) : (s.countDraw b).discriminator = s.discriminator := rfl
@[simp] theorem State.countDraw_vid (b : Bool) : (s.countDraw b).vid = s.vid := rfl
@[simp] theorem State.countDraw_pid (b : Bool) : (s.countDraw b).pid = s.pid := rfl
@[simp] theorem State.countDraw_digitsLen (b : Bool) : (s.countDraw b).digitsLen = s.digitsLen := rfl
@[simp] theorem State.countDraw_mem (b : Bool) : (s.countDraw b).mem = s.mem := rfl
@[simp] theorem State.countDraw_latch (b : Bool) : (s.countDraw b).latch = s.latch := rfl
@[simp] theorem State.countDraw_env (b : Bool) : (s.countDraw b).env = { s.env with draws := s.env.draws + if b then 1 else 0 } := rfl

/-! ### resetBlock -/

@[simp] theorem State.resetBlock_phase : s.resetBlock.phase = State.reset.phase := rfl
@[simp] theorem State.resetBlock_cmd : s.resetBlock.cmd = State.reset.cmd := rfl
@[simp] theorem State.resetBlock_done : s.resetBlock.done = State.reset.done := rfl
@[simp] theorem State.resetBlock_err : s.resetBlock.err = State.reset.err := rfl
@[simp] theorem State.resetBlock_wbusy : s.resetBlock.wbusy = State.reset.wbusy := rfl
@[simp] theorem State.resetBlock_errcode : s.resetBlock.errcode = State.reset.errcode := rfl
@[simp] theorem State.resetBlock_irqEn : s.resetBlock.irqEn = State.reset.irqEn := rfl
@[simp] theorem State.resetBlock_result : s.resetBlock.result = State.reset.result := rfl
@[simp] theorem State.resetBlock_resultLen : s.resetBlock.resultLen = State.reset.resultLen := rfl
@[simp] theorem State.resetBlock_passcode : s.resetBlock.passcode = State.reset.passcode := rfl
@[simp] theorem State.resetBlock_iterations : s.resetBlock.iterations = State.reset.iterations := rfl
@[simp] theorem State.resetBlock_saltLen : s.resetBlock.saltLen = State.reset.saltLen := rfl
@[simp] theorem State.resetBlock_pwdLen : s.resetBlock.pwdLen = State.reset.pwdLen := rfl
@[simp] theorem State.resetBlock_dkLen : s.resetBlock.dkLen = State.reset.dkLen := rfl
@[simp] theorem State.resetBlock_discriminator : s.resetBlock.discriminator = State.reset.discriminator := rfl
@[simp] theorem State.resetBlock_vid : s.resetBlock.vid = State.reset.vid := rfl
@[simp] theorem State.resetBlock_pid : s.resetBlock.pid = State.reset.pid := rfl
@[simp] theorem State.resetBlock_digitsLen : s.resetBlock.digitsLen = State.reset.digitsLen := rfl
@[simp] theorem State.resetBlock_mem : s.resetBlock.mem = State.reset.mem := rfl
@[simp] theorem State.resetBlock_latch : s.resetBlock.latch = State.reset.latch := rfl
@[simp] theorem State.resetBlock_env : s.resetBlock.env = s.env := rfl

/-! ### storeInput -/

theorem State.storeInput_passcode (v : Word) : s.storeInput .passcode v = { s with passcode := v } := rfl

theorem State.storeInput_iterations (v : Word) : s.storeInput .iterations v = { s with iterations := v } := rfl

theorem State.storeInput_saltLen (v : Word) : s.storeInput .saltLen v = { s with saltLen := v } := rfl

theorem State.storeInput_pwdLen (v : Word) : s.storeInput .pwdLen v = { s with pwdLen := v } := rfl

theorem State.storeInput_dkLen (v : Word) : s.storeInput .dkLen v = { s with dkLen := v } := rfl

theorem State.storeInput_discriminator (v : Word) :
    s.storeInput .discriminator v = { s with discriminator := v.setWidth 16 } := rfl

theorem State.storeInput_vid (v : Word) : s.storeInput .vid v = { s with vid := v.setWidth 16 } := rfl

theorem State.storeInput_pid (v : Word) : s.storeInput .pid v = { s with pid := v.setWidth 16 } := rfl

theorem State.storeInput_digitsLen (v : Word) : s.storeInput .digitsLen v = { s with digitsLen := v } := rfl

/-- Storing an input register touches no flag, no control register, no result, no octet and not the latch. -/
theorem State.storeInput_frame (r : Register) (v : Word) :
    (s.storeInput r v).phase = s.phase ∧ (s.storeInput r v).cmd = s.cmd ∧ (s.storeInput r v).done = s.done ∧
      (s.storeInput r v).err = s.err ∧ (s.storeInput r v).wbusy = s.wbusy ∧ (s.storeInput r v).errcode = s.errcode ∧
      (s.storeInput r v).irqEn = s.irqEn ∧ (s.storeInput r v).result = s.result ∧
      (s.storeInput r v).resultLen = s.resultLen ∧ (s.storeInput r v).mem = s.mem ∧
      (s.storeInput r v).latch = s.latch ∧ (s.storeInput r v).env = s.env := by
  cases r <;> exact ⟨rfl, rfl, rfl, rfl, rfl, rfl, rfl, rfl, rfl, rfl, rfl, rfl⟩

end Sys2Proof.Machine
end

