-- ==== Sys2Proof/Laws/Ops.lean ====
section
/-! SUPPORT. For each shared operation, once, everything it can do: the window map, the transactions, the completion. -/

namespace Sys2Proof.Machine

open Sys2Proof

/-! ### The window map -/

/-- A register's offset names that register (R23). -/
theorem targetAt_register (r : Register) : targetAt r.offset = .register r := by
  cases r <;> rfl

/-- The octet at an index of a buffer belongs to that buffer (R62). -/
theorem bufferAt_base_add (b : Buffer) (i : Nat) (h : i < b.size) : bufferAt (b.base + i) = some b := by
  have key : ∀ b : Buffer, ∀ i < b.size, bufferAt (b.base + i) = some b := by
    intro b
    cases b <;> decide +kernel
  exact key b i h

/-- A word of a buffer is named by the offset of its first octet (R62, R65). -/
theorem targetAt_bufferWord (b : Buffer) (j : Nat) (h : 4 * j < b.size) :
    targetAt (b.base + 4 * j) = .bufferWord b j := by
  have hr : registerAt (b.base + 4 * j) = none := by
    have hb : 0x100 ≤ b.base := by cases b <;> decide
    rw [registerAt, List.find?_eq_none]
    intro r _
    have : r.offset ≤ 0x40 := by cases r <;> decide
    simp
    omega
  rw [targetAt, hr, bufferAt_base_add b _ h]
  simp

theorem offset_of_targetAt {o : Nat} {r : Register} (h : targetAt o = .register r) : o = r.offset := by
  unfold targetAt at h
  split at h
  · rename_i r' hr
    injection h with h
    subst h
    have := List.find?_some hr
    simp only [beq_iff_eq] at this
    exact this.symm
  · split at h <;> cases h

theorem holds_of_bufferAt {a : Nat} {b : Buffer} (h : bufferAt a = some b) : b.holds a = true := by
  exact @List.find?_some Buffer (fun b => Buffer.holds b a) _ _ h

/-- A buffer word that a 4-aligned offset names lies wholly in its buffer. -/
theorem bufferWord_fits {o : Nat} {b : Buffer} {j : Nat} (h : targetAt o = .bufferWord b j) (ho : o % 4 = 0) :
    4 * j + 4 ≤ b.size ∧ o = b.base + 4 * j := by
  unfold targetAt at h
  split at h
  · cases h
  · split at h
    · rename_i b' hb
      injection h with hb' hj
      subst hb' hj
      have hh := holds_of_bufferAt hb
      simp only [Buffer.holds, Bool.and_eq_true, decide_eq_true_eq] at hh
      have hbase : b'.base % 4 = 0 := by cases b' <;> decide
      have hsize : b'.size % 4 = 0 := by cases b' <;> decide
      omega
    · cases h

/-- Neither output buffer holds an octet of another buffer. -/
theorem outputs_disjoint {b : Buffer} {a : Nat} (hb : b.isOutput = false) (ha : b.holds a = true) :
    Buffer.out.holds a = false ∧ Buffer.b64.holds a = false := by
  have hrange : a < 0x300 := by
    cases b
    case out | b64 => exact absurd hb (by decide)
    all_goals
      simp only [Buffer.holds, Bool.and_eq_true, decide_eq_true_eq] at ha
      simp only [Buffer.base, Buffer.size] at ha
      omega
  simp only [Buffer.holds, Bool.and_eq_false_iff, decide_eq_false_iff_not]
  simp only [Buffer.base]
  omega

/-! ### Completion -/

/-- A completion is the successful one or the one with an error (R113). -/
theorem State.complete_cases (s : State) (o : Except EngineError Results) :
    (∃ r, o = .ok r ∧ s.complete o = s.completeOk r) ∨ ∃ e, o = .error e ∧ s.complete o = s.completeError e := by
  cases o with
  | ok r => exact .inl ⟨r, rfl, rfl⟩
  | error e => exact .inr ⟨e, rfl, rfl⟩

@[simp] theorem State.complete_ok (s : State) (r : Results) : s.complete (.ok r) = s.completeOk r := rfl

@[simp] theorem State.complete_error (s : State) (e : EngineError) : s.complete (.error e) = s.completeError e := rfl

theorem State.completeError_eq (s : State) (e : EngineError) : s.completeError e = s.afterError e.code := rfl

theorem State.completeOk_eq (s : State) (r : Results) :
    s.completeOk r = s.afterOk (s.completeOk r).mem (BitVec.ofNat 32 r.result) (BitVec.ofNat 32 r.resultLen) := rfl

/-- A successful completion with the words its RESULT and RESULT_LEN read as (R114). -/
theorem State.completeOk_afterOk (s : State) (r : Results) {a b : Word} (ha : BitVec.ofNat 32 r.result = a)
    (hb : BitVec.ofNat 32 r.resultLen = b) : s.completeOk r = s.afterOk (s.completeOk r).mem a b := by
  subst ha hb
  rfl

/-- The octets after a successful completion: the listed results at the start of their buffers, every other octet as it was
(R114). -/
theorem State.completeOk_read (s : State) (r : Results) (a : Nat) (ho : r.out.length ≤ Buffer.out.size) :
    Memory.read (s.completeOk r).mem a =
      if Buffer.out.base ≤ a ∧ a < Buffer.out.base + r.out.length then r.out.getD (a - Buffer.out.base) 0#8
      else if Buffer.b64.base ≤ a ∧ a < Buffer.b64.base + r.b64.length then r.b64.getD (a - Buffer.b64.base) 0#8
      else Memory.read s.mem a := by
  have hs : Buffer.out.base + Buffer.out.size ≤ Buffer.b64.base := by decide
  rw [completeOk_mem, Memory.read_writeOctets, Memory.read_writeOctets]
  split <;> split <;> first | rfl | omega

/-- The results of a successful completion as a host reads them: the listed octets at the start of OUT_BUF and of B64_BUF (R114). -/
theorem State.completeOk_outputs (s : State) (r : Results) (ho : r.out.length ≤ Buffer.out.size) :
    Memory.readOctets (s.completeOk r).mem Buffer.out.base r.out.length = r.out ∧
    Memory.readOctets (s.completeOk r).mem Buffer.b64.base r.b64.length = r.b64 := by
  have hs : Buffer.out.base + Buffer.out.size ≤ Buffer.b64.base := by decide
  rw [completeOk_mem]
  exact ⟨by rw [Memory.readOctets_writeOctets_outside _ _ _ _ _ (.inl (by omega)), Memory.readOctets_writeOctets],
    Memory.readOctets_writeOctets _ _ _⟩

/-- The octets after an accepted issue: 0x00 in the output buffers, every other octet as it was (R111). -/
theorem State.start_read (s : State) (v : Word) (a : Nat) :
    Memory.read (s.start v).mem a =
      if Buffer.out.holds a = true ∨ Buffer.b64.holds a = true then 0#8 else Memory.read s.mem a := by
  rw [start_mem, Memory.read_zeroFill, Memory.read_zeroFill]
  simp only [Buffer.holds, Bool.and_eq_true, decide_eq_true_eq]
  split <;> split <;> (try split) <;> first | rfl | (exfalso; tauto)

/-! ### Transactions -/

/-- The octets of a word: octet k is bits [8k+7 : 8k] (R65). -/
theorem wordOfOctets_extract (a b c d : Octet) :
    (wordOfOctets a b c d).extractLsb' 0 8 = a ∧ (wordOfOctets a b c d).extractLsb' 8 8 = b ∧
    (wordOfOctets a b c d).extractLsb' 16 8 = c ∧ (wordOfOctets a b c d).extractLsb' 24 8 = d := by
  unfold wordOfOctets
  refine ⟨?_, ?_, ?_, ?_⟩ <;> ext i hi <;>
    rw [BitVec.getElem_extractLsb', BitVec.getLsbD_append, BitVec.getLsbD_append, BitVec.getLsbD_append] <;>
    (repeat' split) <;>
    first | omega | (rw [BitVec.getElem_eq_testBit_toNat, BitVec.getLsbD]; congr 1; omega)

/-- The offset of a register, as a transaction carries it (R23). -/
theorem register_offset (r : Register) : (BitVec.ofNat 12 r.offset).toNat = r.offset ∧ r.offset % 4 = 0 := by
  cases r <;> decide

/-- A write to a register's own offset (R63, R64). -/
theorem State.serve_write_register (s : State) (r : Register) (v : Word) :
    s.serve (.write (BitVec.ofNat 12 r.offset) .bits32 v) = (s.writeRegister r v).respond .okay 0#32 := by
  obtain ⟨ho, hm⟩ := register_offset r
  simp only [serve, Transaction.admitted, Transaction.size, Transaction.offset, ho, hm, targetAt_register, serveWrite,
    writeTarget, beq_self_eq_true, Bool.and_self, if_true]

/-- A read of a register's own offset (R63, R64). -/
theorem State.serve_read_register (s : State) (r : Register) :
    s.serve (.read (BitVec.ofNat 12 r.offset) .bits32) = s.respond .okay (s.readRegister r) := by
  obtain ⟨ho, hm⟩ := register_offset r
  simp only [serve, Transaction.admitted, Transaction.size, Transaction.offset, ho, hm, targetAt_register,
    beq_self_eq_true, Bool.and_self, if_true]
  rfl

/-- The offset of a buffer's word, as a transaction carries it (R62, R65). -/
theorem bufferWord_offset (b : Buffer) (j : Nat) (h : 4 * j < b.size) :
    (BitVec.ofNat 12 (b.base + 4 * j)).toNat = b.base + 4 * j ∧ (b.base + 4 * j) % 4 = 0 := by
  have hb : b.base + b.size ≤ 4096 ∧ b.base % 4 = 0 := by cases b <;> decide
  exact ⟨by rw [BitVec.toNat_ofNat, Nat.mod_eq_of_lt (by omega)], by omega⟩

/-- A write to a word of a buffer (R64, R65). -/
theorem State.serve_write_buffer (s : State) (b : Buffer) (j : Nat) (v : Word) (h : 4 * j < b.size) :
    s.serve (.write (BitVec.ofNat 12 (b.base + 4 * j)) .bits32 v) = (s.writeBuffer b j v).respond .okay 0#32 := by
  obtain ⟨ho, hm⟩ := bufferWord_offset b j h
  simp only [serve, Transaction.admitted, Transaction.size, Transaction.offset, ho, hm, targetAt_bufferWord b j h,
    serveWrite, writeTarget, beq_self_eq_true, Bool.and_self, if_true]

/-- A read of a word of a buffer (R64, R65, R72). -/
theorem State.serve_read_buffer (s : State) (b : Buffer) (j : Nat) (h : 4 * j < b.size) :
    s.serve (.read (BitVec.ofNat 12 (b.base + 4 * j)) .bits32) = s.serveRead (.bufferWord b j) := by
  obtain ⟨ho, hm⟩ := bufferWord_offset b j h
  simp only [serve, Transaction.admitted, Transaction.size, Transaction.offset, ho, hm, targetAt_bufferWord b j h,
    beq_self_eq_true, Bool.and_self, if_true]

/-- Everything a transaction can do: nothing to the block, a reset, an accepted issue, an acknowledgement, a write to IRQ_EN, a
dropped write, or a stored input. -/
theorem State.serve_cases (s : State) (t : Transaction) :
    (∃ r n, s.serve t = { s with env := { s.env with response := some r, draws := n } } ∧ softResets t = false) ∨
    (s.serve t = s.resetBlock.respond .okay 0#32 ∧ softResets t = true) ∨
    (∃ v, s.phase = .idle ∧ t = .write 0x008#12 .bits32 v ∧ s.serve t = (s.start v).respond .okay 0#32 ∧
      softResets t = false) ∨
    (∃ v, s.serve t = (s.acknowledge v).respond .okay 0#32 ∧ softResets t = false) ∨
    (∃ v, s.serve t = (s.enableIrq v).respond .okay 0#32 ∧ softResets t = false) ∨
    (s.phase = .busy ∧ s.serve t = s.noteDropped.respond .okay 0#32 ∧ softResets t = false) ∨
    (∃ r v, s.phase = .idle ∧ s.serve t = (s.storeInput r v).respond .okay 0#32 ∧ softResets t = false) ∨
    (∃ b j v, s.phase = .idle ∧ b.isOutput = false ∧ 4 * j + 4 ≤ b.size ∧
      s.serve t = (s.setBufWord b j v).respond .okay 0#32 ∧ softResets t = false) := by
  by_cases ha : t.admitted = true
  · have halign : t.offset.toNat % 4 = 0 := by
      simp only [Transaction.admitted, Bool.and_eq_true, beq_iff_eq] at ha
      exact ha.2
    match t, ha with
    | .read o n, ha =>
      refine .inl ⟨⟨.okay, s.readTarget (targetAt o.toNat)⟩,
        s.env.draws + if s.drawsFree (targetAt o.toNat) then 1 else 0, ?_, rfl⟩
      simp [serve, ha, serveRead, respond, countDraw]
    | .write o n v, ha =>
      have hserve : s.serve (.write o n v) = (s.writeTarget (targetAt o.toNat) v).respond .okay 0#32 := by
        simp [serve, ha, serveWrite]
      have nothing : s.writeTarget (targetAt o.toNat) v = s → softResets (.write o n v) = false →
          ∃ r k, s.serve (.write o n v) = { s with env := { s.env with response := some r, draws := k } } ∧
            softResets (.write o n v) = false := fun h h' => ⟨⟨.okay, 0#32⟩, s.env.draws, by rw [hserve, h]; rfl, h'⟩
      have hn : n = .bits32 := by
        simp only [Transaction.admitted, Transaction.size, Bool.and_eq_true, beq_iff_eq] at ha
        exact ha.1
      have hsoft : targetAt o.toNat ≠ .register .ctrl → softResets (.write o n v) = false := by
        intro h
        have : o.toNat ≠ Register.ctrl.offset := fun h' => h (by rw [h', targetAt_register])
        simp [softResets, this]
      rcases htarget : targetAt o.toNat with r | ⟨b, j⟩ | _
      · have ho := offset_of_targetAt htarget
        rw [htarget] at hserve nothing hsoft
        have input : ∀ r', r = r' → s.writeRegister r v = s.writeInput r' v → r ≠ .ctrl →
            (s.phase = .busy ∧ s.serve (.write o n v) = s.noteDropped.respond .okay 0#32 ∧
              softResets (.write o n v) = false) ∨
            (∃ r v', s.phase = .idle ∧ s.serve (.write o n v) = (s.storeInput r v').respond .okay 0#32 ∧
              softResets (.write o n v) = false) := by
          intro r' _ hw hc
          rw [hserve, writeTarget, hw, writeInput, hsoft (by simpa using hc)]
          cases hp : s.phase
          · exact .inr ⟨r', v, rfl, by simp [isBusy, hp], rfl⟩
          · exact .inl ⟨rfl, by simp [isBusy, hp], rfl⟩
        have viaInput : ∀ {A B C D E F G H : Prop}, (F ∨ G) → (A ∨ B ∨ C ∨ D ∨ E ∨ F ∨ G ∨ H) := by tauto
        cases r
        case id => exact .inl (nothing rfl (hsoft (by simp)))
        case result => exact .inl (nothing rfl (hsoft (by simp)))
        case resultLen => exact .inl (nothing rfl (hsoft (by simp)))
        case ctrl =>
          have hadm : (Transaction.write o n v).admitted = true := ha
          cases hv : v.getLsbD 0
          · exact .inl (nothing (by rw [writeTarget, writeRegister, writeCtrl, hv]; rfl)
              (by rw [softResets, hv, Bool.and_false]))
          · refine .inr (.inl ⟨?_, by rw [softResets, hadm, ho, hv]; rfl⟩)
            rw [hserve, writeTarget, writeRegister, writeCtrl, hv]
            rfl
        case cmd =>
          have ho' : o = 0x008#12 := BitVec.eq_of_toNat_eq ho
          subst hn ho'
          cases hp : s.phase
          · exact .inr (.inr (.inl ⟨v, rfl, rfl, by rw [hserve]; simp [writeTarget, writeRegister, writeCmd, isBusy, hp],
              hsoft (by simp)⟩))
          · exact viaInput (.inl ⟨rfl, by rw [hserve]; simp [writeTarget, writeRegister, writeCmd, isBusy, hp],
              hsoft (by simp)⟩)
        case status => exact .inr (.inr (.inr (.inl ⟨v, hserve, hsoft (by simp)⟩)))
        case irqEn => exact .inr (.inr (.inr (.inr (.inl ⟨v, hserve, hsoft (by simp)⟩))))
        all_goals exact viaInput (input _ rfl rfl (by simp))
      · have hfit := (bufferWord_fits htarget halign).1
        rw [htarget] at hserve nothing hsoft
        have hs := hsoft (by simp)
        cases hb : b.isOutput
        · cases hp : s.phase
          · exact .inr (.inr (.inr (.inr (.inr (.inr (.inr ⟨b, j, v, rfl, hb, hfit,
              by rw [hserve]; simp [writeTarget, writeBuffer, hb, isBusy, hp], hs⟩))))))
          · exact .inr (.inr (.inr (.inr (.inr (.inl ⟨rfl,
              by rw [hserve]; simp [writeTarget, writeBuffer, hb, isBusy, hp], hs⟩)))))
        · exact .inl (nothing (by simp [writeTarget, writeBuffer, hb]) hs)
      · rw [htarget] at nothing hsoft
        exact .inl (nothing rfl (hsoft (by simp)))
  · refine .inl ⟨⟨.busError, 0#32⟩, s.env.draws, by simp [serve, ha, respond], ?_⟩
    cases t
    · rfl
    · simp [softResets, ha]

end Sys2Proof.Machine
end

