-- ==== Sys2Proof/Laws/Step.lean ====
section
/-! SUPPORT. Everything a command, the engine and a step can do, said once. -/

namespace Sys2Proof.Machine

open Sys2Proof

/-- The results a command may write: as many octets in OUT_BUF as RESULT_LEN says, and octets in B64_BUF only for
DERIVE_VERIFIER (R96, R114). -/
structure Results.Fits (r : Results) (i : Instr) : Prop where
  outLength : r.out.length ≤ r.resultLen
  lenFits : r.resultLen ≤ Buffer.out.size
  b64Length : r.b64.length ≤ Buffer.b64.size
  b64Only : i ≠ .deriveVerifier → r.b64 = []

theorem nopResults_fits : nopResults.Fits .nop := ⟨by decide, by decide, by decide, fun _ => rfl⟩

theorem pointCheckResults_fits (s : State) : (pointCheckResults s).Fits .pointCheck :=
  ⟨Nat.le_refl 0, Nat.zero_le _, Nat.zero_le _, fun _ => rfl⟩

theorem pbkdf2Outcome_fits {s : State} {r : Results} (h : pbkdf2Outcome s = .ok r) : r.Fits .pbkdf2 := by
  unfold pbkdf2Outcome at h
  split at h
  · cases h
  · rename_i hl
    split at h
    · cases h
    · injection h with h
      subst h
      refine ⟨pbkdf2_length_le _ _ _ _, ?_, Nat.zero_le _, fun _ => rfl⟩
      have hd : s.dkLen.toNat ≤ dkMax := by omega
      exact hd

theorem scalarMulGOutcome_fits {s : State} {r : Results} (h : scalarMulGOutcome s = .ok r) : r.Fits .scalarMulG := by
  unfold scalarMulGOutcome at h
  simp only at h
  split at h
  · cases h
  · split at h
    · cases h
    · rename_i o ho
      injection h with h
      subst h
      exact ⟨(encPoint_length ho).le, (by decide : 65 ≤ Buffer.out.size), Nat.zero_le _, fun _ => rfl⟩

theorem deriveVerifierOutcome_fits {s : State} {r : Results} (h : deriveVerifierOutcome s = .ok r) :
    r.Fits .deriveVerifier := by
  unfold deriveVerifierOutcome at h
  split at h
  · cases h
  · split at h
    · cases h
    · split at h
      · cases h
      · split at h
        · cases h
        · rename_i o ho
          injection h with h
          subst h
          have hraw : (octetsBE 32 (verifierW0 s) ++ o).length = 97 := by simp [encPoint_length ho]
          have hb : (base64 (octetsBE 32 (verifierW0 s) ++ o)).length ≤ 132 := base64_length_le 33 _ (by omega)
          generalize octetsBE 32 (verifierW0 s) ++ o = raw at hraw hb ⊢
          exact ⟨hraw.le, (by decide : 97 ≤ Buffer.out.size), hb, fun h => absurd rfl h⟩

theorem manualCodeOutcome_fits {s : State} {r : Results} (h : manualCodeOutcome s = .ok r) :
    r.Fits .encodeManualCode := by
  unfold manualCodeOutcome at h
  simp only at h
  split at h
  · cases h
  · injection h with h
    subst h
    exact ⟨(manualCode_length _ _ _ _).le, (by decide : 21 ≤ Buffer.out.size), Nat.zero_le _, fun _ => rfl⟩

theorem verhoeffOutcome_fits {s : State} {r : Results} (h : verhoeffOutcome s = .ok r) :
    r.Fits .verhoeffCheckDigit := by
  unfold verhoeffOutcome at h
  split at h
  · cases h
  · split at h
    · injection h with h
      subst h
      exact ⟨Nat.le_refl 1, (by decide : 1 ≤ Buffer.out.size), Nat.zero_le _, fun _ => rfl⟩
    · cases h

/-- Every error PBKDF2 can end with, and when (R148). -/
theorem pbkdf2Outcome_error {s : State} {e : EngineError} (h : pbkdf2Outcome s = .error e) :
    (e = .badLength ∧ (s.pwdLen.toNat > 64 ∨ s.saltLen.toNat > 64 ∨ s.dkLen = 0#32 ∨ s.dkLen.toNat > 256)) ∨
    (e = .badIterations ∧ s.pwdLen.toNat ≤ 64 ∧ s.saltLen.toNat ≤ 64 ∧ s.dkLen ≠ 0#32 ∧ s.dkLen.toNat ≤ 256 ∧
      s.iterations = 0#32) := by
  unfold pbkdf2Outcome at h
  split at h
  · next hl =>
    cases h
    exact .inl ⟨rfl, hl⟩
  · next hl =>
    simp only [not_or, pwdMax, saltMax, dkMax, gt_iff_lt, Nat.not_lt] at hl
    split at h
    · next hi =>
      cases h
      exact .inr ⟨rfl, hl.1, hl.2.1, hl.2.2.1, hl.2.2.2, hi⟩
    · cases h

/-- The one error SCALAR_MUL_G can end with (R181). -/
theorem scalarMulGOutcome_error {s : State} {e : EngineError} (h : scalarMulGOutcome s = .error e) :
    e = .pointAtInfinity := by
  unfold scalarMulGOutcome at h
  simp only at h
  split at h <;> (try split at h) <;> cases h <;> rfl

/-- Every error DERIVE_VERIFIER can end with, and when its inputs are legal (R204). -/
theorem deriveVerifierOutcome_error {s : State} {e : EngineError} (h : deriveVerifierOutcome s = .error e) :
    (e = .badLength ∧ s.saltLen.toNat > 64) ∨ (e = .badIterations ∧ s.saltLen.toNat ≤ 64 ∧ s.iterations = 0#32) ∨
    (e = .pointAtInfinity ∧ s.saltLen.toNat ≤ 64 ∧ s.iterations ≠ 0#32) := by
  unfold deriveVerifierOutcome at h
  split at h
  · next hl =>
    cases h
    exact .inl ⟨rfl, hl⟩
  · next hl =>
    have hl : s.saltLen.toNat ≤ 64 := Nat.not_lt.mp hl
    split at h
    · next hi =>
      cases h
      exact .inr (.inl ⟨rfl, hl, hi⟩)
    · next hi =>
      split at h <;> (try split at h) <;> cases h <;> exact .inr (.inr ⟨rfl, hl, hi⟩)

/-- The one error ENCODE_MANUAL_CODE can end with (R228). -/
theorem manualCodeOutcome_error {s : State} {e : EngineError} (h : manualCodeOutcome s = .error e) :
    e = .fieldOverflow ∧ chunkOverflow s.discriminator.toNat s.passcode.toNat = true := by
  unfold manualCodeOutcome at h
  simp only at h
  split at h
  · next ho =>
    cases h
    exact ⟨rfl, ho⟩
  · cases h

/-- Every error VERHOEFF_CHECK_DIGIT can end with, and when (R244). -/
theorem verhoeffOutcome_error {s : State} {e : EngineError} (h : verhoeffOutcome s = .error e) :
    (e = .badLength ∧ s.digitsLen.toNat > 64) ∨
    (e = .badDigit ∧ s.digitsLen.toNat ≤ 64 ∧ s.digitOctets.all isAsciiDigit = false) := by
  unfold verhoeffOutcome at h
  split at h
  · next hl =>
    cases h
    exact .inl ⟨rfl, hl⟩
  · next hl =>
    split at h
    · cases h
    · next hd =>
      cases h
      exact .inr ⟨rfl, Nat.not_lt.mp hl, by simpa using hd⟩

/-- No command reports ILLEGAL_CMD itself (R261). -/
theorem outcome_error_legal {s : State} {e : EngineError} :
    (pbkdf2Outcome s = .error e → e ≠ .illegalCmd) ∧ (scalarMulGOutcome s = .error e → e ≠ .illegalCmd) ∧
    (deriveVerifierOutcome s = .error e → e ≠ .illegalCmd) ∧ (manualCodeOutcome s = .error e → e ≠ .illegalCmd) ∧
    (verhoeffOutcome s = .error e → e ≠ .illegalCmd) := by
  refine ⟨?_, ?_, ?_, ?_, ?_⟩ <;> intro h <;> rintro rfl
  · rcases pbkdf2Outcome_error h with ⟨h, _⟩ | ⟨h, _⟩ <;> cases h
  · cases scalarMulGOutcome_error h
  · rcases deriveVerifierOutcome_error h with ⟨h, _⟩ | ⟨h, _⟩ | ⟨h, _⟩ <;> cases h
  · cases (manualCodeOutcome_error h).1
  · rcases verhoeffOutcome_error h with ⟨h, _⟩ | ⟨h, _⟩ <;> cases h

/-! ### Every command, as the completion of its outcome (R113, R116) -/

theorem exec_nop (s : State) : exec .nop s = .next (s.completeOk nopResults) := rfl

theorem exec_deriveVerifier (s : State) : exec .deriveVerifier s = .next (s.complete (deriveVerifierOutcome s)) := rfl

theorem exec_pbkdf2 (s : State) : exec .pbkdf2 s = .next (s.complete (pbkdf2Outcome s)) := rfl

theorem exec_scalarMulG (s : State) : exec .scalarMulG s = .next (s.complete (scalarMulGOutcome s)) := rfl

theorem exec_pointCheck (s : State) : exec .pointCheck s = .next (s.completeOk (pointCheckResults s)) := rfl

theorem exec_encodeManualCode (s : State) : exec .encodeManualCode s = .next (s.complete (manualCodeOutcome s)) := rfl

theorem exec_verhoeffCheckDigit (s : State) : exec .verhoeffCheckDigit s = .next (s.complete (verhoeffOutcome s)) := rfl

/-- A command that ends with a code from ERRCODE 0 raised the error of that code in its outcome (R113, R115). -/
theorem exec_errcode {i : Instr} {s t : State} {c : Octet} (h0 : s.errcode = 0x00#8) (hc : c ≠ 0x00#8)
    (h : exec i s = .next t) (ht : t.errcode = c) :
    ∃ e : EngineError, e.code = c ∧
      ((i = .deriveVerifier ∧ deriveVerifierOutcome s = .error e) ∨ (i = .pbkdf2 ∧ pbkdf2Outcome s = .error e) ∨
        (i = .scalarMulG ∧ scalarMulGOutcome s = .error e) ∨ (i = .encodeManualCode ∧ manualCodeOutcome s = .error e) ∨
        (i = .verhoeffCheckDigit ∧ verhoeffOutcome s = .error e)) := by
  have hok : ∀ r, (s.completeOk r).errcode ≠ c := fun r hr => hc (hr.symm.trans h0)
  have key : ∀ o, exec i s = .next (s.complete o) → ∃ e : EngineError, e.code = c ∧ o = .error e := by
    rintro (e | r) ho <;> rw [ho] at h <;> cases h
    · exact ⟨e, ht, rfl⟩
    · exact absurd ht (hok r)
  cases i
  case nop => cases h; exact absurd ht (hok _)
  case pointCheck => cases h; exact absurd ht (hok _)
  case deriveVerifier => obtain ⟨e, he, ho⟩ := key _ (exec_deriveVerifier s); exact ⟨e, he, .inl ⟨rfl, ho⟩⟩
  case pbkdf2 => obtain ⟨e, he, ho⟩ := key _ (exec_pbkdf2 s); exact ⟨e, he, .inr (.inl ⟨rfl, ho⟩)⟩
  case scalarMulG => obtain ⟨e, he, ho⟩ := key _ (exec_scalarMulG s); exact ⟨e, he, .inr (.inr (.inl ⟨rfl, ho⟩))⟩
  case encodeManualCode =>
    obtain ⟨e, he, ho⟩ := key _ (exec_encodeManualCode s)
    exact ⟨e, he, .inr (.inr (.inr (.inl ⟨rfl, ho⟩)))⟩
  case verhoeffCheckDigit =>
    obtain ⟨e, he, ho⟩ := key _ (exec_verhoeffCheckDigit s)
    exact ⟨e, he, .inr (.inr (.inr (.inr ⟨rfl, ho⟩)))⟩

/-- Everything a command can do: a successful completion whose results fit, or an error completion (R113). -/
theorem exec_cases (i : Instr) (s : State) :
    (∃ r : Results, r.Fits i ∧ exec i s = .next (s.completeOk r)) ∨
    ∃ e : EngineError, e ≠ .illegalCmd ∧ exec i s = .next (s.completeError e) := by
  have split : ∀ (o : Except EngineError Results), exec i s = .next (s.complete o) →
      (∀ r, o = .ok r → r.Fits i) → (∀ e, o = .error e → e ≠ .illegalCmd) →
      (∃ r : Results, r.Fits i ∧ exec i s = .next (s.completeOk r)) ∨
      ∃ e : EngineError, e ≠ .illegalCmd ∧ exec i s = .next (s.completeError e) := by
    rintro (e | r) h hok herr
    · exact .inr ⟨e, herr e rfl, h⟩
    · exact .inl ⟨r, hok r rfl, h⟩
  cases i
  case nop => exact .inl ⟨nopResults, nopResults_fits, rfl⟩
  case pointCheck => exact .inl ⟨pointCheckResults s, pointCheckResults_fits s, rfl⟩
  case pbkdf2 => exact split (pbkdf2Outcome s) rfl (fun _ => pbkdf2Outcome_fits) fun _ => outcome_error_legal.1
  case scalarMulG =>
    exact split (scalarMulGOutcome s) rfl (fun _ => scalarMulGOutcome_fits) fun _ => outcome_error_legal.2.1
  case deriveVerifier =>
    exact split (deriveVerifierOutcome s) rfl (fun _ => deriveVerifierOutcome_fits) fun _ => outcome_error_legal.2.2.1
  case encodeManualCode =>
    exact split (manualCodeOutcome s) rfl (fun _ => manualCodeOutcome_fits) fun _ => outcome_error_legal.2.2.2.1
  case verhoeffCheckDigit =>
    exact split (verhoeffOutcome s) rfl (fun _ => verhoeffOutcome_fits) fun _ => outcome_error_legal.2.2.2.2

/-- The engine's step, by the latched word (R113, R116, R119). -/
theorem engineStep_cases (s : State) :
    (s.latch = none ∧ engineStep s = .fault .nothingLatched) ∨
    (∃ w i, s.latch = some w ∧ decode w = .ok i ∧ engineStep s = exec i s) ∨
    ∃ w e, s.latch = some w ∧ decode w = .error e ∧ engineStep s = .next (s.completeError .illegalCmd) := by
  unfold engineStep
  cases hl : s.latch with
  | none => exact .inl ⟨rfl, by rw [State.fetch, hl]⟩
  | some w =>
    cases hd : decode w with
    | ok i => exact .inr (.inl ⟨w, i, rfl, hd, by simp only [State.fetch, hl, hd]⟩)
    | error e => exact .inr (.inr ⟨w, e, rfl, hd, by simp only [State.fetch, hl, hd]; rfl⟩)

/-- Everything a step can do, by the agenda and the phase. -/
theorem step_cases (s : State) :
    (s.env.agenda = [] ∧ s.phase = .idle ∧ step s = .next s) ∨
    (s.env.agenda = [] ∧ s.phase = .busy ∧ step s = engineStep s) ∨
    ∃ t rest, s.env.agenda = t :: rest ∧ step s = takeTurn t { s with env := { s.env with agenda := rest } } := by
  unfold step
  cases ha : s.env.agenda with
  | nil =>
    cases hp : s.phase
    · exact .inl ⟨rfl, rfl, by simp [State.isBusy, hp]⟩
    · exact .inr (.inl ⟨rfl, rfl, by simp [State.isBusy, hp]⟩)
  | cons t rest => exact .inr (.inr ⟨t, rest, rfl, rfl⟩)

/-- A word decodes exactly when it is legal (R92, R93). -/
theorem decode_isOk_iff (w : Word) : (∃ i, decode w = .ok i) ↔ legalWord w = true := by
  unfold decode legalWord
  by_cases h : rsvField w = 0
  · simp only [h, ne_eq, not_true_eq_false, if_false, beq_self_eq_true, Bool.true_and, decide_eq_true_eq]
    split <;> simp_all
    omega
  · rw [if_pos h]
    simpa using fun hz => absurd hz h

end Sys2Proof.Machine
end

