-- ==== Sys2Proof/Laws/HostProgram.lean ====
section
/-! SUPPORT. What each move of a host program can do; `POLL`, `WAIT` and `RUN` by what they wait for (R97, R98). -/

namespace Sys2Proof.Machine

open Sys2Proof

/-- A move of a host program is a step of the machine with that turn placed first on the agenda (R70, log 1). -/
theorem step_placedTurn (s : State) (t : Turn) :
    step { s with env := { s.env with agenda := t :: s.env.agenda } } = takeTurn t s := rfl

/-- With something to do, the program's own move is the step that serves its next transaction (R70, R97). -/
theorem HostRun.advance_block (s : State) (a : HostAction) (rest : List HostAction) :
    step { s with env := { s.env with agenda := .host a.transaction :: s.env.agenda } } =
      .next (HostRun.advance ⟨a :: rest, s⟩).block := rfl

@[simp] theorem HostRun.advance_nil (s : State) : HostRun.advance ⟨[], s⟩ = ⟨[], s⟩ := rfl

@[simp] theorem HostRun.advance_once (s : State) (t : Transaction) (rest : List HostAction) :
    HostRun.advance ⟨.once t :: rest, s⟩ = ⟨rest, s.serve t⟩ := rfl

/-- A `POLL` makes the read `RD REG` and is over exactly when `(data & m) = v` (R97). -/
theorem HostRun.advance_poll (s : State) (r : Register) (m v : Word) (rest : List HostAction) :
    HostRun.advance ⟨.poll r m v :: rest, s⟩ =
      ⟨if s.readRegister r &&& m = v then rest else .poll r m v :: rest, s.respond .okay (s.readRegister r)⟩ := by
  have hserve : s.serve (HostAction.poll r m v).transaction = s.respond .okay (s.readRegister r) :=
    s.serve_read_register r
  simp only [advance, hserve, HostAction.isOver, State.respond_env, Option.any_some, pollEnds, beq_iff_eq]

/-- Bit 0 of STATUS is BUSY (R27). -/
theorem State.statusWord_busy (s : State) : s.statusWord &&& 0x1#32 = 0x0#32 ↔ s.phase = .idle := by
  have hbit : s.statusWord.getLsbD 0 = s.isBusy := by
    unfold statusWord
    rw [BitVec.getLsbD_append]
    cases s.isBusy <;> rfl
  rw [BitVec.and_one_eq_setWidth_ofBool_getLsbD, hbit]
  cases hp : s.phase <;> simp only [isBusy, hp] <;> decide

/-- A `WAIT` reads STATUS until the block is IDLE (R98). -/
theorem HostRun.advance_wait (s : State) (rest : List HostAction) :
    HostRun.advance ⟨waitAction :: rest, s⟩ =
      ⟨if s.phase = .idle then rest else waitAction :: rest, s.respond .okay s.statusWord⟩ := by
  rw [waitAction, advance_poll]
  simp only [State.readRegister, State.statusWord_busy]

/-- Only the program's own moves change what it has to do. -/
theorem HostRun.move_other (c : HostRun) (turn : Turn) {t : State} (h : takeTurn turn c.block = .next t) :
    c.move (.other turn) = .next { c with block := t } := by
  simp only [move, h]

@[simp] theorem HostRun.moves_nil (c : HostRun) : c.moves [] = .next c := rfl

@[simp] theorem HostRun.moves_program (c : HostRun) (ms : List HostMove) :
    c.moves (.program :: ms) = c.advance.moves ms := rfl

theorem HostRun.moves_other (c : HostRun) (turn : Turn) (ms : List HostMove) {t : State}
    (h : takeTurn turn c.block = .next t) : c.moves (.other turn :: ms) = { c with block := t }.moves ms := by
  simp only [moves, c.move_other turn h]

/-- While BUSY a `WAIT` goes on, however often it has read, and its reads change nothing of the block (R68, R98). -/
theorem HostRun.wait_busy (n : Nat) (s : State) (rest : List HostAction) (ms : List HostMove) (hp : s.phase = .busy) :
    HostRun.moves ⟨waitAction :: rest, s⟩ (List.replicate n .program ++ ms) =
      HostRun.moves ⟨waitAction :: rest, if n = 0 then s else s.respond .okay s.statusWord⟩ ms := by
  induction n generalizing s with
  | zero => rfl
  | succ n ih =>
    rw [List.replicate_succ, List.cons_append, moves_program, advance_wait, if_neg (by rw [hp]; decide),
      ih (s.respond .okay s.statusWord) hp, if_neg n.succ_ne_zero]
    congr 2
    split <;> rfl

/-- `RUN` of a command on an IDLE block: the issue, then reads of STATUS, however many come before the completion; the read
after it ends the `WAIT`, and the block is the command's completion, read once more (R98, R110, R113, R117). -/
theorem HostRun.run_completes (i : Instr) (s : State) (n : Nat) (rest : List HostAction) (hp : s.phase = .idle) :
    ∃ u t : State, exec i u = .next t ∧ u.latch = some (encode i) ∧ t.phase = .idle ∧
      { u with env := s.env } = s.start (encode i) ∧
      HostRun.moves ⟨HostLine.actions (.run i) ++ rest, s⟩
          (.program :: List.replicate n .program ++ [.other .engine, .program]) =
        .next ⟨rest, t.respond .okay t.statusWord⟩ := by
  have hissue : s.serve (wrTransaction .cmd (encode i)) = (s.start (encode i)).respond .okay 0#32 := by
    refine (s.serve_write_register .cmd (encode i)).trans ?_
    simp [State.writeRegister, State.writeCmd, State.isBusy, hp]
  obtain ⟨u, hu, hb, hl, he⟩ : ∃ u : State,
      (if n = 0 then (s.start (encode i)).respond .okay 0#32
        else ((s.start (encode i)).respond .okay 0#32).respond .okay
          ((s.start (encode i)).respond .okay 0#32).statusWord) = u ∧
      u.phase = .busy ∧ u.latch = some (encode i) ∧ { u with env := s.env } = s.start (encode i) := by
    refine ⟨_, rfl, ?_⟩
    split <;> exact ⟨rfl, rfl, rfl⟩
  have hrun : engineStep u = exec i u := by
    have hd : decode (encode i) = .ok i := by cases i <;> rfl
    simp only [engineStep, State.fetch, hl, hd]
  obtain ⟨t, ht, hidle⟩ : ∃ t, exec i u = .next t ∧ t.phase = .idle := by
    rcases exec_cases i u with ⟨r, _, h⟩ | ⟨e, _, h⟩ <;> exact ⟨_, h, rfl⟩
  have hturn : takeTurn .engine u = .next t := by
    simp only [takeTurn, State.isBusy, hb, beq_self_eq_true, if_true, hrun, ht]
  refine ⟨u, t, ht, hl, hidle, he, ?_⟩
  rw [HostLine.actions, issueAction, List.cons_append, List.cons_append, List.nil_append, List.cons_append, moves_program,
    advance_once, hissue, wait_busy n _ _ _ rfl, hu, moves_other _ _ _ hturn, moves_program, advance_wait, if_pos hidle,
    moves_nil]

end Sys2Proof.Machine
end

