-- ==== Sys2Proof/Laws/Operands.lean ====
section
/-! SUPPORT. The operands of the commands at their window offsets (R46 to R50, R62). -/

namespace Sys2Proof.Machine

open Sys2Proof

variable (s : State)

theorem State.saltOctets_eq : s.saltOctets = Memory.readOctets s.mem 0x100 s.saltLen.toNat := rfl

theorem State.pwdOctets_eq : s.pwdOctets = Memory.readOctets s.mem 0x140 s.pwdLen.toNat := rfl

theorem State.scalarOperand_eq : s.scalarOperand = intBE (Memory.readOctets s.mem 0x180 32) := rfl

theorem State.pointOctets_eq : s.pointOctets = Memory.readOctets s.mem 0x1C0 65 := rfl

theorem State.digitOctets_eq : s.digitOctets = Memory.readOctets s.mem 0x240 s.digitsLen.toNat := rfl

end Sys2Proof.Machine
end

