-- ==== Sys2Proof/Laws/PerInstr.lean ====
section
/-! SUPPORT. Statements made per command: the encoding of each is a legal word that decodes to it. -/

namespace Sys2Proof.Laws.RoundTrip

open Sys2Proof

/-- The command's word is legal and decodes to the command, and its octets in the window do too (R92, R95). -/
def Statement (i : Instr) : Prop :=
  legalWord (encode i) = true ∧ decode (encode i) = .ok i ∧ decodeOctets (octetsOfWord (encode i)) = .ok i

theorem nop : Statement .nop := ⟨by decide, by decide, by decide⟩

theorem deriveVerifier : Statement .deriveVerifier := ⟨by decide, by decide, by decide⟩

theorem pbkdf2 : Statement .pbkdf2 := ⟨by decide, by decide, by decide⟩

theorem scalarMulG : Statement .scalarMulG := ⟨by decide, by decide, by decide⟩

theorem pointCheck : Statement .pointCheck := ⟨by decide, by decide, by decide⟩

theorem encodeManualCode : Statement .encodeManualCode := ⟨by decide, by decide, by decide⟩

theorem verhoeffCheckDigit : Statement .verhoeffCheckDigit := ⟨by decide, by decide, by decide⟩

end Sys2Proof.Laws.RoundTrip
end

