-- ==== Sys2Proof/Tests/Slice0.lean ====
section
/-! SUPPORT. Tests on fixed values: the checks of WellFormed, the words of the encoding table, the spec's own vectors
(95_test_vectors.md), and for every statement with hypotheses a state that meets them. -/

namespace Sys2Proof.Tests

open Sys2Proof Sys2Proof.Machine

set_option Elab.async false

/-! ### Helpers -/

/-- The state a step ends in; the reset state where it stops. -/
def after (o : Host.Outcome State Fault Refusal) : State :=
  match o with
  | .next t => t
  | .fault _ => State.reset
  | .refused _ => State.reset

/-- The reset state with some octets at a window offset. -/
def holding (a : Nat) (octets : List Octet) : State := { State.reset with mem := Memory.writeOctets [] a octets }

/-- The octets of an integer written as `n` octets, as a vector gives them. -/
def hex (n v : Nat) : List Octet := octetsBE n v

/-- The block just after an accepted issue of a word, in the reset state. -/
def issued (w : Word) : State := State.reset.serve (.write 0x008#12 .bits32 w)

/-- STATUS after a command has run on a state. -/
def statusOf (i : Instr) (s : State) : Word := (after (exec i s)).readRegister .status

/-- `n` octets of OUT_BUF after a command has run on a state. -/
def outOf (i : Instr) (s : State) (n : Nat) : List Octet := Memory.readOctets (after (exec i s)).mem 0x300 n

/-- What a host program has still to do, and the answer it read last, after some moves from the reset state. -/
def ranTo (lines : List HostLine) (ms : List HostMove) : Nat × Option Response :=
  match HostRun.moves ⟨programActions lines, State.reset⟩ ms with
  | .next c => (c.todo.length, c.block.env.response)
  | .fault _ => (0, none)
  | .refused _ => (0, none)

/-! ### Checks of WellFormed: an ill-formed term for each -/

theorem test_every_command_is_well_formed : ∀ i ∈ [Instr.nop, .deriveVerifier, .pbkdf2, .scalarMulG, .pointCheck,
    .encodeManualCode, .verhoeffCheckDigit], i.wellFormed = true := by decide

theorem test_word_with_reserved_bits_is_illegal : legalWord 0x00000100#32 = false := by decide

theorem test_word_with_reserved_opcode_is_illegal : legalWord 0x00000007#32 = false := by decide

theorem test_narrow_access_is_refused : (Transaction.read 0x000#12 .bits8).admitted = false := by decide

theorem test_unaligned_access_is_refused : (Transaction.write 0x021#12 .bits32 0#32).admitted = false := by decide

theorem test_word_outside_its_buffer_is_ill_formed :
    (HostLine.wrw .scalar 8 0#32).wellFormed = false ∧ (HostLine.rdw .b64 33).wellFormed = false ∧
    (HostLine.wrw .scalar 7 0#32).wellFormed = true := by decide

theorem test_load_longer_than_its_buffer_is_ill_formed :
    (HostLine.loadBuf .scalar (List.replicate 33 0#8)).wellFormed = false ∧
    (HostLine.loadBuf .scalar (List.replicate 32 0#8)).wellFormed = true := by decide

/-! ### Decoding: the words of R92, written out as RSV (24 bits) and OP (8 bits) -/

theorem test_decode_nop : decode (0b000000000000000000000000#24 ++ 0b00000000#8) = .ok .nop := by rfl

theorem test_decode_derive_verifier : decode (0b000000000000000000000000#24 ++ 0b00000001#8) = .ok .deriveVerifier := by rfl

theorem test_decode_pbkdf2 : decode (0b000000000000000000000000#24 ++ 0b00000010#8) = .ok .pbkdf2 := by rfl

theorem test_decode_scalar_mul_g : decode (0b000000000000000000000000#24 ++ 0b00000011#8) = .ok .scalarMulG := by rfl

theorem test_decode_point_check : decode (0b000000000000000000000000#24 ++ 0b00000100#8) = .ok .pointCheck := by rfl

theorem test_decode_encode_manual_code :
    decode (0b000000000000000000000000#24 ++ 0b00000101#8) = .ok .encodeManualCode := by rfl

theorem test_decode_verhoeff_check_digit :
    decode (0b000000000000000000000000#24 ++ 0b00000110#8) = .ok .verhoeffCheckDigit := by rfl

theorem test_decode_reserved_words :
    decode 0x00000100#32 = .error .reservedBits ∧ decode 0x00000007#32 = .error .reservedOpcode ∧
    decode 0xFFFFFFFF#32 = .error .reservedBits ∧ decode 0x000000FF#32 = .error .reservedOpcode := ⟨rfl, rfl, rfl, rfl⟩

theorem test_decode_needs_four_octets :
    decodeOctets [0x05#8, 0x00#8, 0x00#8] = .error .notOneWord ∧
    decodeOctets [0x05#8, 0x00#8, 0x00#8, 0x00#8] = .ok .encodeManualCode := ⟨rfl, rfl⟩

/-! ### One step, from 95_test_vectors.md -/

/-- S2: SHA-256 of "abc". -/
theorem test_sha256_abc : sha256 [0x61#8, 0x62#8, 0x63#8] =
    hex 32 0xba7816bf8f01cfea414140de5dae2223b00361a396177a9cb410ff61f20015ad := by decide +kernel

/-- H1: HMAC of "The quick brown fox jumps over the lazy dog" with the key "key". -/
theorem test_hmac_fox : hmac [0x6b#8, 0x65#8, 0x79#8]
    (hex 43 0x54686520717569636b2062726f776e20666f78206a756d7073206f76657220746865206c617a7920646f67) =
    hex 32 0xf7bc83f430538424b13298e6aa6fb143ef4d59a14946175997479dbc2d1a3cd8 := by decide +kernel

/-- P3: PBKDF2 of "password" and "salt", 2 iterations, 32 octets. -/
theorem test_pbkdf2_p3 :
    let s := { holding 0x140 (hex 8 0x70617373776f7264) with
      mem := Memory.writeOctets (Memory.writeOctets [] 0x140 (hex 8 0x70617373776f7264)) 0x100 (hex 4 0x73616c74)
      pwdLen := 8#32, saltLen := 4#32, iterations := 2#32, dkLen := 32#32 }
    outOf .pbkdf2 s 33 = hex 32 0xae4d0c95af6b46d32d0adff928f06dd02a303f8ef3c251dfd6e2d85a95474c43 ++ [0x00#8] := by
  decide +kernel

/-- P16: the reset state ends with BAD_LENGTH. -/
theorem test_pbkdf2_p16 : statusOf .pbkdf2 State.reset = 0x00000206#32 := by decide +kernel

/-- E2: 2·G. -/
theorem test_scalar_mul_e2 : outOf .scalarMulG (holding 0x180 (hex 32 2)) 65 =
    [0x04#8] ++ hex 32 0x7cf27b188d034f7e8a52380304b51ac3c08969e277f21b35a60b48fc47669978
      ++ hex 32 0x07775510db8ed040293d9ac69f7430dbba7dade63ce982299e04b79d227873d1 := by decide +kernel

/-- E9: the scalar n ends with POINT_AT_INFINITY. -/
theorem test_scalar_mul_e9 : statusOf .scalarMulG (holding 0x180 (hex 32
    0xffffffff00000000ffffffffffffffffbce6faada7179e84f3b9cac2fc632551)) = 0x00000606#32 := by decide +kernel

/-- Q1: the encoding of G is on the curve. -/
theorem test_point_check_q1 : (after (exec .pointCheck (holding 0x1C0 ([0x04#8]
    ++ hex 32 0x6b17d1f2e12c4247f8bce6e563a440f277037d812deb33a0f4a13945d898c296
    ++ hex 32 0x4fe342e2fe1a7f9b8ee7eb4a7c0f9e162bce33576b315ececbb6406837bf51f5)))).result = 1#32 := by decide +kernel

/-- Q2: Y off by one is not. -/
theorem test_point_check_q2 : (after (exec .pointCheck (holding 0x1C0 ([0x04#8]
    ++ hex 32 0x6b17d1f2e12c4247f8bce6e563a440f277037d812deb33a0f4a13945d898c296
    ++ hex 32 0x4fe342e2fe1a7f9b8ee7eb4a7c0f9e162bce33576b315ececbb6406837bf51f4)))).result = 0#32 := by decide +kernel

/-- V5: PASSCODE 0, empty salt, 1 iteration: the 97 octets of the verifier. -/
theorem test_derive_verifier_v5 : outOf .deriveVerifier { State.reset with iterations := 1#32 } 97 =
    hex 32 0x4dba684eb41781d4b8693c1d54491061b2f3c964dd30cd601de784245b8cbaa2 ++ [0x04#8]
      ++ hex 32 0x94638975b0be89d3b63be7c994eb38865fc89cbae51d421357e4a39e7aef77c0
      ++ hex 32 0x7e07a88aa3ce6b80b18248cb7a0077c632072acd55695be815c0e418e87c896a := by decide +kernel

/-- V12: the reset state has no default iteration count. -/
theorem test_derive_verifier_v12 : statusOf .deriveVerifier State.reset = 0x00000306#32 := by decide +kernel

/-- V5: the start and the end of the base64 text of its verifier. -/
theorem test_base64_v5 :
    (base64 (hex 3 0x4dba68)) = [0x54#8, 0x62#8, 0x70#8, 0x6f#8] ∧ base64 [0x6a#8] = [0x61#8, 0x67#8, 0x3d#8, 0x3d#8] := by
  decide +kernel

/-- M1: the source's vector. -/
theorem test_manual_code_m1 :
    let s := { State.reset with discriminator := 3840#16, passcode := 11223344#32, vid := 12340#16, pid := 56780#16 }
    outOf .encodeManualCode s 21 = hex 21 0x373439343536303638353132333430353637383037 ∧
    (after (exec .encodeManualCode s)).result = 7#32 := by decide +kernel

/-- M10: a discriminator of 8192 ends with FIELD_OVERFLOW. -/
theorem test_manual_code_m10 :
    statusOf .encodeManualCode { State.reset with discriminator := 8192#16, passcode := 1#32 } = 0x00000506#32 := by
  decide +kernel

/-- K5: the check digit of "236" is 3. -/
theorem test_verhoeff_k5 :
    outOf .verhoeffCheckDigit { holding 0x240 (hex 3 0x323336) with digitsLen := 3#32 } 2 = [0x33#8, 0x00#8] := by
  decide +kernel

/-- K14: "2A6" ends with BAD_DIGIT. -/
theorem test_verhoeff_k14 :
    statusOf .verhoeffCheckDigit { holding 0x240 (hex 3 0x324136) with digitsLen := 3#32 } = 0x00000406#32 := by
  decide +kernel

/-- X7: NOP after a completion with an error leaves STATUS 2. -/
theorem test_nop_x7 : (after (engineStep (State.serve (after (engineStep (issued 0x00000007#32)))
    (.write 0x008#12 .bits32 0x00000000#32)))).readRegister .status = 0x00000002#32 := by decide +kernel

/-- X3 and X6: an illegal word, and its acknowledgement. -/
theorem test_illegal_word_x3_x6 :
    let t := after (engineStep (issued 0x00000007#32))
    t.readRegister .status = 0x00000106#32 ∧ t.readRegister .cmd = 0x00000007#32 ∧
    (t.serve (.write 0x00C#12 .bits32 0x0000000E#32)).readRegister .status = 0x00000100#32 := by decide +kernel

/-- X3 as a program (R97, R98): while BUSY the WAIT goes on, and after the completion it reads once more and ends. -/
theorem test_program_x3 :
    let p := [HostLine.wr .cmd 0x00000007#32, .wait, .rd .cmd]
    ranTo p [.program, .program, .program] = (2, some ⟨.okay, 0x00000001#32⟩) ∧
    ranTo p [.program, .program, .program, .other .engine, .program] = (1, some ⟨.okay, 0x00000106#32⟩) ∧
    ranTo p [.program, .other .engine, .program, .program] = (0, some ⟨.okay, 0x00000007#32⟩) := by decide +kernel

/-- A POLL reads at least once (95_test_vectors.md section 8), and ends on the value its mask selects (R97). -/
theorem test_poll_reads_at_least_once :
    ranTo [.poll .id 0xFF#32 0x31#32] [] = (1, none) ∧
    ranTo [.poll .id 0xFF#32 0x31#32] [.program] = (0, some ⟨.okay, 0x4D434531#32⟩) ∧
    ranTo [.poll .id 0xFF#32 0x30#32] [.program, .program] = (1, some ⟨.okay, 0x4D434531#32⟩) := by decide +kernel

/-- X8: a write to DK_LEN while BUSY is dropped and sets WBUSY. -/
theorem test_dropped_write_x8 :
    let t := (issued 0x00000002#32).serve (.write 0x030#12 .bits32 32#32)
    t.dkLen = 0#32 ∧ t.readRegister .status = 0x00000009#32 := by decide +kernel

/-- X14 and X15: a narrow and a misaligned access. -/
theorem test_bus_errors_x14_x15 :
    (State.reset.serve (.read 0x000#12 .bits8)).env.response = some ⟨.busError, 0#32⟩ ∧
    (State.reset.serve (.write 0x021#12 .bits32 5#32)).passcode = 0#32 := by decide +kernel

/-- X18 and X20: masking of a 16-bit register, and the octets of a buffer word. -/
theorem test_stored_writes_x18_x20 :
    (State.reset.serve (.write 0x034#12 .bits32 0x12345678#32)).readRegister .discriminator = 0x00005678#32 ∧
    Memory.readOctets (State.reset.serve (.write 0x100#12 .bits32 0x706d6173#32)).mem 0x100 4 =
      [0x73#8, 0x61#8, 0x6d#8, 0x70#8] := by decide +kernel

/-! ### States that meet the hypotheses of the statements, one theorem per statement -/

theorem witness_DecodeAndEncodeAgree : decode 0x00000006#32 = .ok .verhoeffCheckDigit := rfl

theorem witness_AcceptedIssueStartsTheCommand :
    State.reset.phase = .idle ∧
    (∀ a ∈ [0x300, 0x3FF], 0x300 ≤ a ∧ a < 0x400) ∧ (∀ a ∈ [0x400, 0x483], 0x400 ≤ a ∧ a < 0x484) ∧
    (∀ a ∈ [0x2FF, 0x484], a < 0x300 ∨ 0x484 ≤ a) ∧
    takeTurn (.host (.write 0x008#12 .bits32 7#32)) State.reset = .next (issued 7#32) ∧ (issued 7#32).phase = .busy :=
  ⟨rfl, by decide, by decide, by decide, rfl, by decide +kernel⟩

theorem witness_IssueWhileBusyIsDropped : (issued 0#32).phase = .busy := by decide +kernel

theorem witness_IllegalWordsCompleteWithIllegalCmd :
    (0x00000100#32).extractLsb' 8 24 ≠ 0#24 ∧ 0x07 ≤ ((0x00000007#32).extractLsb' 0 8).toNat ∧
    State.reset.phase = .idle ∧ State.reset.wbusy = false ∧ (issued 0#32).phase = .busy := by decide +kernel

theorem witness_OnlyAlignedWordAccessesAreAdmitted :
    (Transaction.read 0x000#12 .bits8).size ≠ .bits32 ∧ (Transaction.read 0x002#12 .bits32).offset.toNat % 4 ≠ 0 ∧
    (Transaction.read 0xFFC#12 .bits32).size = .bits32 ∧ (Transaction.read 0xFFC#12 .bits32).offset.toNat % 4 = 0 := by
  decide

theorem witness_ReservedOffsetsReadZeroAndIgnoreWrites :
    ∀ o ∈ [0x01C#12, 0x044#12, 0x0FC#12, 0x1A0#12, 0x1BC#12, 0x204#12, 0x23C#12, 0x280#12, 0x2FC#12, 0x484#12, 0xFFC#12],
      o.toNat % 4 = 0 ∧ (o.toNat = 0x01C ∨ (0x044 ≤ o.toNat ∧ o.toNat < 0x100) ∨ (0x1A0 ≤ o.toNat ∧ o.toNat < 0x1C0) ∨
        (0x204 ≤ o.toNat ∧ o.toNat < 0x240) ∨ (0x280 ≤ o.toNat ∧ o.toNat < 0x300) ∨ 0x484 ≤ o.toNat) := by
  decide +kernel

theorem witness_InputWritesAreStoredOrDropped :
    State.reset.phase = .idle ∧ (issued 0#32).phase = .busy ∧
    (∀ c ∈ [(Buffer.salt, 15), (.pwd, 15), (.scalar, 7), (.point, 16), (.digit, 15), (.out, 63), (.b64, 32)],
      4 * c.2 < c.1.size ∧ ¬ 4 * (c.2 + 1) < c.1.size) := by decide +kernel

theorem witness_BufferOctetsArePackedLittleEndian :
    (255 < Buffer.out.size ∧ State.reset.phase = .idle) ∧ 67 < Buffer.point.size ∧ Buffer.point.isOutput = false := by
  decide

theorem witness_OutputReadsWhileBusyAreFreeDraws :
    (issued 0#32).phase = .busy ∧
    (∀ c ∈ [(Buffer.salt, 15), (.pwd, 15), (.scalar, 7), (.point, 16), (.digit, 15), (.out, 63), (.b64, 32)],
      4 * c.2 < c.1.size ∧ (State.reset.phase = .idle ∨ c.1 ∈ [Buffer.salt, .pwd, .scalar, .point, .digit])) ∧
    softResets (.write 0x004#12 .bits32 0xFFFFFFFE#32) = false ∧ State.reset.phase = .idle ∧
    ∀ v : Word, Transaction.write 0x004#12 .bits32 0xFFFFFFFE#32 ≠ .write 0x008#12 .bits32 v :=
  ⟨by decide +kernel, by decide, by decide, rfl, fun _ h => by injection h with h; exact absurd h (by decide)⟩

theorem witness_SoftResetIsAFullReset :
    (0x00000001#32).getLsbD 0 = true ∧ (0xFFFFFFFE#32).getLsbD 0 = false := by decide

theorem witness_OnlyAResetAbortsACommand :
    (issued 0#32).phase = .busy ∧ takeTurn .rst (issued 0#32) = .next (issued 0#32).resetBlock ∧
    takeTurn .engine (issued 0#32) = .next (after (engineStep (issued 0#32))) ∧
    softResets (.write 0x004#12 .bits32 1#32) = true ∧ softResets (.write 0x008#12 .bits32 1#32) = false :=
  ⟨by decide +kernel, rfl, rfl, by decide, by decide⟩

theorem witness_StepRunsTheDecodedCommand :
    (issued 4#32).phase = .busy ∧ (issued 4#32).fetch = some 4#32 ∧ decode 4#32 = .ok .pointCheck ∧
    Instr.pointCheck.wellFormed = true ∧ (issued 4#32).env.agenda = [] ∧
    (State.withFetchWord { State.reset with env := ⟨[.rst], none, 0⟩ } 32 4).env.agenda = [.engine, .rst] :=
  ⟨by decide +kernel, by decide +kernel, rfl, rfl, by decide +kernel, rfl⟩

theorem witness_PlacedWordRunsNext : decodeTableWord 32 6 = some .verhoeffCheckDigit := by decide

/-- A state with the invariant, with a command in flight. -/
theorem inv_issued_nop : (issued 0#32).Inv where
  memWf := by decide +kernel
  memInBuffers := by decide +kernel
  latchedWhileBusy := by decide +kernel
  latchIsCmd := by
    intro w h
    have hl : (issued 0#32).latch = some 0#32 := by decide +kernel
    have hc : (issued 0#32).cmd = 0#32 := by decide +kernel
    rw [hl] at h
    rw [hc]
    exact Option.some.inj h
  busyClear := fun _ => ⟨by decide +kernel, by decide +kernel, by decide +kernel,
    ⟨by decide +kernel, by decide +kernel, by decide +kernel, by decide +kernel⟩⟩
  errcodeKnown := by decide +kernel
  errHasCode := by decide +kernel
  errorNoOutput := fun h => absurd (by decide +kernel) h
  outTailZero := by
    have h : ∀ i < Buffer.out.size, (issued 0#32).outAt i = 0#8 := by decide +kernel
    exact fun i _ hi => h i hi
  resultLenFits := by decide +kernel
  b64OnlyVerifier := fun _ => by decide +kernel
  illegalReported := by decide +kernel

theorem witness_EveryStepKeepsTheInvariant :
    (issued 0#32).Inv ∧ step (issued 0#32) = .next (after (engineStep (issued 0#32))) := ⟨inv_issued_nop, rfl⟩

theorem witness_StepNeverStops_EveryRunEndsIdle : ∃ s : State, s.Inv ∧ s.phase = .busy :=
  ⟨issued 0#32, inv_issued_nop, by decide +kernel⟩

theorem witness_IssueThenCompletionRunsTheCommand :
    let s := { State.reset with env := ⟨[.host (.write 0x008#12 .bits32 (encode .pointCheck))], none, 0⟩ }
    s.phase = .idle ∧ s.env.agenda = [.host (.write 0x008#12 .bits32 (encode .pointCheck))] := ⟨rfl, rfl⟩

theorem witness_CommandsDependOnlyOnTheirOperands :
    SameReads .deriveVerifier State.reset { State.reset with pwdLen := 99#32 } ∧
    SameOutputs State.reset { State.reset with pwdLen := 99#32 } ∧
    (∃ t, exec .deriveVerifier State.reset = .next t) ∧
    ∃ t, exec .deriveVerifier { State.reset with pwdLen := 99#32 } = .next t :=
  ⟨⟨rfl, rfl, rfl, fun _ _ => rfl⟩, ⟨rfl, rfl, rfl, rfl, rfl, fun _ _ => rfl, fun _ _ => rfl⟩, ⟨_, rfl⟩, ⟨_, rfl⟩⟩

theorem witness_BusyTransactionsCannotChangeTheResult :
    (issued 0#32).Inv ∧ (issued 0#32).phase = .busy ∧
    ∀ t ∈ [Transaction.write 0x030#12 .bits32 32#32, .write 0x00C#12 .bits32 0xF#32, .read 0x300#12 .bits32],
      softResets t = false := ⟨inv_issued_nop, by decide +kernel, by decide⟩

theorem witness_NopClearsTheOutputs :
    State.reset.phase = .idle ∧ State.reset.wbusy = false ∧ (issued 0#32).phase = .busy := by decide +kernel

theorem witness_PbkdfWritesTheDerivedKey :
    (∀ s ∈ [{ State.reset with dkLen := 1#32, iterations := 1#32 },
        { State.reset with pwdLen := 64#32, saltLen := 64#32, dkLen := 256#32, iterations := 0xFFFFFFFF#32 }],
      s.pwdLen.toNat ≤ 64 ∧ s.saltLen.toNat ≤ 64 ∧ s.dkLen ≠ 0#32 ∧ s.dkLen.toNat ≤ 256 ∧ s.iterations ≠ 0#32) ∧
    ∀ a ∈ [0x2FF, 0x400], a < 0x300 ∨ 0x300 + (256#32).toNat ≤ a := by decide +kernel

theorem witness_DerivedKeyHasTheLengthAskedFor : (1 : Nat) ≤ 1 ∧ (31 : Nat) < 32 ∧ (32 : Nat) < 33 ∧ (32 : Nat) ≤ 33 := by
  decide

theorem witness_ShaPaddingFillsWholeBlocks : ([] : List Octet).length < 2 ^ 61 := by decide

theorem witness_HmacKeysArePaddedWithZeros :
    (hex 64 0).length ≤ 64 ∧ 64 < (hex 65 0).length ∧ ([] : List Octet).length + 64 ≤ 64 := by decide

theorem witness_BadLengthIsReported :
    (65#32).toNat > 64 ∧ (0#32 = 0#32 ∧ (257#32).toNat > 256) ∧ State.reset.errcode = 0x00#8 ∧
    (∀ c ∈ [(Instr.pbkdf2, State.reset), (.deriveVerifier, { State.reset with saltLen := 65#32 }),
      (.verhoeffCheckDigit, { State.reset with digitsLen := 65#32 })], (after (exec c.1 c.2)).errcode = 0x02#8) ∧
    ∃ t, exec .pbkdf2 State.reset = .next t :=
  ⟨by decide, by decide, rfl, by decide +kernel, _, rfl⟩

theorem witness_ZeroIterationsAreReported :
    let s := { State.reset with pwdLen := 64#32, saltLen := 64#32, dkLen := 256#32 }
    (s.iterations = 0#32 ∧ s.saltLen.toNat ≤ 64 ∧ s.pwdLen.toNat ≤ 64 ∧ s.dkLen ≠ 0#32 ∧ s.dkLen.toNat ≤ 256) ∧
    s.errcode = 0x00#8 ∧ (∀ i ∈ [Instr.pbkdf2, .deriveVerifier], (after (exec i s)).errcode = 0x03#8) ∧
    exec .pbkdf2 s = .next (after (exec .pbkdf2 s)) ∧ exec .deriveVerifier s = .next (after (exec .deriveVerifier s)) :=
  ⟨by decide, rfl, by decide +kernel, rfl, rfl⟩

theorem witness_FieldInverseInverts : 1 % fieldP ≠ 0 ∧ (2 ^ 256) % fieldP ≠ 0 := by decide +kernel

theorem witness_CurveAdditionIsAGroupLaw :
    basePoint.valid = true ∧ basePoint.neg.valid = true ∧ CurvePoint.infinity.valid = true := by decide +kernel

theorem witness_ReduceNCoversTheScalars : groupN - 1 < groupN ∧ (hex 40 (2 ^ 320 - 1)).length = 40 := by decide +kernel

theorem witness_BigEndianRoundTrip : 0 < 256 ^ 0 ∧ 2 ^ 256 - 1 < 256 ^ 32 := by decide

theorem witness_ScalarMulWritesThePoint :
    intBE (Memory.readOctets (holding 0x180 (hex 32 1)).mem 0x180 32) % groupN ≠ 0 ∧
    intBE (Memory.readOctets (holding 0x180 (hex 32 (2 ^ 256 - 1))).mem 0x180 32) % groupN ≠ 0 := by decide +kernel

theorem witness_EncodedPointsPassThePointCheck :
    1 % groupN ≠ 0 ∧ (2 ^ 256 - 1) % groupN ≠ 0 ∧
    Memory.readOctets (holding 0x1C0 (hex 65 (2 ^ 514 - 1))).mem 0x1C0 65 =
      [0x03#8] ++ hex 32 (2 ^ 256 - 1) ++ hex 32 (2 ^ 256 - 1) ∧
    Memory.readOctets (holding 0x1C0 (outOf .scalarMulG (holding 0x180 (hex 32 1)) 65)).mem 0x1C0 65 =
      outOf .scalarMulG (holding 0x180 (hex 32 1)) 65 := by decide +kernel

theorem witness_PointAtInfinityIsReported :
    State.reset.errcode = 0x00#8 ∧ ({ State.reset with iterations := 1#32 } : State).saltLen.toNat ≤ 64 ∧
    ({ State.reset with iterations := 1#32 } : State).iterations ≠ 0#32 ∧
    exec .scalarMulG State.reset = .next (after (exec .scalarMulG State.reset)) ∧
    (after (exec .scalarMulG State.reset)).errcode = 0x06#8 :=
  ⟨rfl, by decide, by decide, rfl, by decide +kernel⟩

theorem witness_DeriveVerifierWritesTheVerifier :
    let s := { State.reset with iterations := 1#32 }
    s.saltLen.toNat ≤ 64 ∧ s.iterations ≠ 0#32 ∧
    intBE ((pbkdf2 (octetsOfWord s.passcode) (Memory.readOctets s.mem 0x100 s.saltLen.toNat) s.iterations.toNat 80).drop 40)
      % groupN ≠ 0 := by decide +kernel

theorem witness_VerifierTextDecodesToTheVerifier :
    let s := { State.reset with iterations := 1#32 }
    s.saltLen.toNat ≤ 64 ∧ s.iterations ≠ 0#32 ∧ verifierW1 s ≠ 0 := by decide +kernel

theorem witness_ManualCodeWritesTwentyOneDigits :
    let s := { State.reset with discriminator := 8191#16, passcode := 163839999#32 }
    s.discriminator.toNat < 8192 ∧ s.passcode.toNat < 163840000 := by decide

theorem witness_ManualCodeWrapsAround :
    (4096 ≤ 4096 ∧ 8191 ≤ 8191) ∧ 4095 < 4096 ∧
    ({ State.reset with discriminator := 4095#16, passcode := 99999998#32 } : State).discriminator.toNat ≤ 4095 ∧
    validPasscode ({ State.reset with discriminator := 4095#16, passcode := 99999998#32 } : State).passcode.toNat = true := by
  decide +kernel

theorem witness_FieldOverflowIsReportedExactly :
    8192 ≤ (8192#16).toNat ∧ 163840000 ≤ (163840000#32).toNat ∧
    (after (exec .encodeManualCode { State.reset with discriminator := 8192#16 })).errcode = 0x05#8 ∧
    State.reset.errcode = 0x00#8 ∧ ∃ t, exec .encodeManualCode { State.reset with discriminator := 8192#16 } = .next t :=
  ⟨by decide, by decide, by decide +kernel, rfl, _, rfl⟩

theorem witness_VerhoeffWritesTheCheckDigit :
    let s := { holding 0x240 (List.replicate 32 0x30#8 ++ List.replicate 32 0x39#8) with digitsLen := 64#32 }
    s.digitsLen.toNat ≤ 64 ∧
    ∀ o ∈ Memory.readOctets s.mem 0x240 s.digitsLen.toNat, 0x30 ≤ o.toNat ∧ o.toNat ≤ 0x39 := by decide +kernel

theorem witness_BadDigitIsReported :
    let s := { holding 0x240 (List.replicate 63 0x30#8 ++ [0x3A#8]) with digitsLen := 64#32 }
    let u := { holding 0x240 [0x2F#8] with digitsLen := 1#32 }
    (s.digitsLen.toNat ≤ 64 ∧ 63 < s.digitsLen.toNat ∧ 0x39 < (Memory.read s.mem (0x240 + 63)).toNat) ∧
    (u.digitsLen.toNat ≤ 64 ∧ 0 < u.digitsLen.toNat ∧ (Memory.read u.mem (0x240 + 0)).toNat < 0x30) ∧
    u.errcode = 0x00#8 ∧ exec .verhoeffCheckDigit u = .next (after (exec .verhoeffCheckDigit u)) ∧
    (after (exec .verhoeffCheckDigit u)).errcode = 0x04#8 :=
  ⟨by decide +kernel, by decide +kernel, rfl, rfl, by decide +kernel⟩

theorem witness_DecimalDigitsAreZeroPadded : 4 < 5 ∧ 0 < 10 ^ 0 ∧ 99999 < 10 ^ 5 := by decide

theorem witness_CheckDigitValidates :
    (hex 3 0x323336).all isAsciiDigit = true ∧ verhoeffValid (hex 3 0x323336 ++ [asciiDigit 3]) = true := by decide +kernel

theorem witness_SingleDigitErrorsAreDetected :
    ([0x32#8] ++ 0x33#8 :: [0x36#8, 0x33#8]).all isAsciiDigit = true ∧ isAsciiDigit 0x34#8 = true ∧ 0x33#8 ≠ 0x34#8 ∧
    verhoeffValid ([0x32#8] ++ 0x33#8 :: [0x36#8, 0x33#8]) = true := by decide +kernel

theorem witness_ManualCodeCheckDigitIsReproduced :
    let t := after (exec .encodeManualCode State.reset)
    let u := { holding 0x240 (Memory.readOctets t.mem 0x300 20) with digitsLen := 20#32 }
    State.reset.discriminator.toNat < 8192 ∧ State.reset.passcode.toNat < 163840000 ∧ u.digitsLen = 20#32 ∧
    Memory.readOctets u.mem 0x240 20 = Memory.readOctets t.mem 0x300 20 := by decide +kernel

theorem witness_LoadBufStoresTheOctets :
    State.reset.phase = .idle ∧ Buffer.point.isOutput = false ∧ (hex 65 4).length ≤ Buffer.point.size ∧
    (hex 68 4).length ≤ Buffer.point.size := by decide

theorem witness_WindowIsAnAlignedPage : ∃ a, windowOffset? a = some 0xFFF#12 :=
  ⟨Config.base + 4095, by
    rw [windowOffset?, if_pos (by omega)]
    simp⟩

end Sys2Proof.Tests
end

section
/-! PROOFS. Big-endian encoding and decoding of octet strings are inverse to each other (R8). -/

namespace Sys2Proof.Machine

open Sys2Proof

/-- Every value, in range or not: the encoding holds the low `n` octets of `v` (R8, log 25). -/
theorem intBE_octetsBE_mod (n v : Nat) : intBE (octetsBE n v) = v % 256 ^ n := by
  induction n generalizing v with
  | zero => simp [octetsBE, Nat.mod_one]
  | succ n ih =>
    have hlast : (BitVec.ofNat 8 v).toNat = v % 256 := by simp
    calc intBE (octetsBE (n + 1) v)
        = 256 * (v / 256 % 256 ^ n) + v % 256 := by rw [octetsBE, intBE_concat, ih, hlast]
      _ = v % (256 * 256 ^ n) := by rw [Nat.mod_mul, Nat.add_comm]
      _ = v % 256 ^ (n + 1) := by rw [pow_succ']

theorem intBE_octetsBE {n v : Nat} (hv : v < 256 ^ n) : intBE (octetsBE n v) = v := by
  rw [intBE_octetsBE_mod, Nat.mod_eq_of_lt hv]

/-- One more octet at the end of a string is one more base-256 digit of the value (R8). -/
theorem octetsBE_succ_digit (n v : Nat) (o : Octet) :
    octetsBE (n + 1) (256 * v + o.toNat) = octetsBE n v ++ [o] := by
  have hhigh : (256 * v + o.toNat) / 256 = v := by omega
  have hlow : BitVec.ofNat 8 (256 * v + o.toNat) = o := by bv_omega
  rw [octetsBE, hhigh, hlow]

theorem octetsBE_intBE (s : List Octet) : octetsBE s.length (intBE s) = s := by
  induction s using List.reverseRecOn with
  | nil => rfl
  | append_singleton s o ih =>
    rw [List.length_append, List.length_singleton, intBE_concat, octetsBE_succ_digit, ih]

/-- Settles O41: decoding an encoding is reduction modulo `256 ^ n`, by induction on the number of octets, and encoding
the value of a string gives the string back, by induction on its last octet. -/
theorem bigEndianRoundTrip : Obligations.BigEndianRoundTrip :=
  ⟨fun n v hv => ⟨octetsBE_length n v, intBE_octetsBE hv⟩, octetsBE_intBE⟩

end Sys2Proof.Machine
end

section
/-! PROOFS. What one transaction does: reads and writes by the target they name, and which of them touch an output octet. -/

namespace Sys2Proof.Machine

open Sys2Proof

/-! ### Reserved offsets -/

theorem registerAt_eq_none {o : Nat} (h : ∀ r : Register, r.offset ≠ o) : registerAt o = none :=
  List.find?_eq_none.mpr fun r _ => by simpa using h r

theorem bufferAt_eq_none {o : Nat} (h : ∀ b : Buffer, b.holds o = false) : bufferAt o = none :=
  List.find?_eq_none.mpr fun b _ => by simp [h b]

/-- "every other offset reserved" (R62). -/
theorem targetAt_eq_reserved {o : Nat} (hr : ∀ r : Register, r.offset ≠ o) (hb : ∀ b : Buffer, b.holds o = false) :
    targetAt o = .reserved := by
  rw [targetAt, registerAt_eq_none hr, bufferAt_eq_none hb]

/-- The offsets between the registers and the buffers, and above the last buffer (R45, R62). -/
theorem targetAt_eq_reserved_of_range {o : Nat} (halign : o % 4 = 0)
    (ho : o = 0x01C ∨ (0x044 ≤ o ∧ o < 0x100) ∨ (0x1A0 ≤ o ∧ o < 0x1C0) ∨ (0x204 ≤ o ∧ o < 0x240) ∨
      (0x280 ≤ o ∧ o < 0x300) ∨ 0x484 ≤ o) : targetAt o = .reserved := by
  refine targetAt_eq_reserved (fun r => ?_) fun b => ?_
  · cases r <;> simp only [Register.offset, ne_eq] <;> omega
  · rw [Buffer.holds, Bool.and_eq_false_iff, decide_eq_false_iff_not, decide_eq_false_iff_not]
    cases b <;> simp only [Buffer.base, Buffer.size] <;> omega

/-! ### Admitted transactions -/

/-- The only access the block admits, as a read (R63). -/
theorem State.serve_read_aligned (s : State) {o : Offset} (ho : o.toNat % 4 = 0) :
    s.serve (.read o .bits32) = s.serveRead (targetAt o.toNat) := by
  simp [serve, Transaction.admitted, Transaction.size, Transaction.offset, ho]

/-- The only access the block admits, as a write (R63). -/
theorem State.serve_write_aligned (s : State) {o : Offset} (ho : o.toNat % 4 = 0) (v : Word) :
    s.serve (.write o .bits32 v) = s.serveWrite (targetAt o.toNat) v := by
  simp [serve, Transaction.admitted, Transaction.size, Transaction.offset, ho]

/-- An admitted read that is no free draw answers and does nothing else (R68). -/
theorem State.serveRead_of_not_drawsFree {s : State} {t : Target} (h : s.drawsFree t = false) :
    s.serveRead t = s.answered .okay (s.readTarget t) := by
  rw [serveRead, h]
  rfl

/-- A free draw answers the next free value and counts it (R72, log 4). -/
theorem State.serveRead_of_drawsFree {s : State} {t : Target} (h : s.drawsFree t = true) :
    s.serveRead t = { s with env := { s.env with
      response := some ⟨.okay, Config.freeRead s.env.draws⟩, draws := s.env.draws + 1 } } := by
  have hdata : s.readTarget t = Config.freeRead s.env.draws := by
    unfold readTarget
    rw [if_pos h]
  rw [serveRead, hdata, h]
  rfl

theorem State.readsAs_register (s : State) (r : Register) :
    s.ReadsAs (BitVec.ofNat 12 r.offset) (s.readRegister r) :=
  s.serve_read_register r

/-- A read of RESULT or RESULT_LEN while IDLE (R34, R35). -/
theorem State.readRegister_result_of_idle {s : State} (hp : s.phase = .idle) :
    s.readRegister .result = s.result ∧ s.readRegister .resultLen = s.resultLen := by
  simp [readRegister, isBusy, hp]

/-- While BUSY, RESULT and RESULT_LEN read 0 (R72). -/
theorem State.readRegister_result_of_busy {s : State} (hp : s.phase = .busy) :
    s.readRegister .result = 0#32 ∧ s.readRegister .resultLen = 0#32 := by
  simp [readRegister, isBusy, hp]

/-- The octets of a buffer's word (R65). -/
theorem State.bufWord_extract (s : State) (b : Buffer) (j : Nat) {k : Nat} (hk : k < 4) :
    (s.bufWord b j).extractLsb' (8 * k) 8 = Memory.read s.mem (b.base + 4 * j + k) := by
  obtain ⟨h0, h1, h2, h3⟩ := wordOfOctets_extract (Memory.read s.mem (b.base + 4 * j))
    (Memory.read s.mem (b.base + 4 * j + 1)) (Memory.read s.mem (b.base + 4 * j + 2))
    (Memory.read s.mem (b.base + 4 * j + 3))
  match k, hk with
  | 0, _ => exact h0
  | 1, _ => exact h1
  | 2, _ => exact h2
  | 3, _ => exact h3

/-- Only an output buffer's word is drawn freely, and only while BUSY (R72). -/
theorem State.drawsFree_bufferWord_eq_false {s : State} {b : Buffer} (j : Nat)
    (h : s.phase = .idle ∨ b.isOutput = false) : s.drawsFree (.bufferWord b j) = false := by
  rcases h with h | h <;> simp [drawsFree, isBusy, h]

theorem State.readsAs_bufferWord {s : State} {b : Buffer} {j : Nat} (hj : 4 * j < b.size)
    (h : s.phase = .idle ∨ b.isOutput = false) :
    s.ReadsAs (BitVec.ofNat 12 (b.base + 4 * j)) (s.bufWord b j) := by
  have hdraw := s.drawsFree_bufferWord_eq_false j h
  have hdata : s.readTarget (.bufferWord b j) = s.bufWord b j := by rw [readTarget, hdraw]; rfl
  rw [ReadsAs, s.serve_read_buffer b j hj, serveRead_of_not_drawsFree hdraw, hdata]

/-! ### The octets of the output buffers -/

/-- The input buffers lie below the output buffers (R62). -/
theorem Buffer.input_below_outputs {b : Buffer} (hb : b.isOutput = false) :
    b.base + b.size ≤ Buffer.out.base ∧ b.base + b.size ≤ Buffer.b64.base := by
  cases b
  case out | b64 => exact absurd hb (by decide)
  all_goals decide

/-- A write to a word of an input buffer leaves the output buffers alone (R71). -/
theorem State.setBufWord_outputs (s : State) {b : Buffer} {j : Nat} (v : Word) (hb : b.isOutput = false)
    (hj : 4 * j + 4 ≤ b.size) (i : Nat) :
    (s.setBufWord b j v).outAt i = s.outAt i ∧ (s.setBufWord b j v).b64At i = s.b64At i := by
  obtain ⟨ho, h6⟩ := Buffer.input_below_outputs hb
  simp only [outAt, b64At, setBufWord_mem]
  constructor <;> exact Memory.read_writeOctets_outside _ _ _ _ (.inr (by simp only [octetsOfWord_length]; omega))

/-- Only an accepted issue and a soft reset change an octet of the output buffers (R71, R111, R293). -/
theorem State.serve_outputs_of_no_issue {s : State} {t : Transaction} (hreset : softResets t = false)
    (hissue : s.phase = .idle → ∀ v : Word, t ≠ .write 0x008#12 .bits32 v) (i : Nat) :
    (s.serve t).outAt i = s.outAt i ∧ (s.serve t).b64At i = s.b64At i := by
  have same_mem : (s.serve t).mem = s.mem →
      (s.serve t).outAt i = s.outAt i ∧ (s.serve t).b64At i = s.b64At i := fun h => by
    simp only [outAt, b64At, h, and_self]
  rcases s.serve_cases t with ⟨r, n, h, _⟩ | ⟨_, hsoft⟩ | ⟨v, hp, ht, _⟩ | ⟨v, h, _⟩ | ⟨v, h, _⟩ | ⟨_, h, _⟩ |
    ⟨r, v, _, h, _⟩ | ⟨b, j, v, _, hb, hj, h, _⟩
  · exact same_mem (by rw [h])
  · rw [hreset] at hsoft; cases hsoft
  · exact absurd ht (hissue hp v)
  · exact same_mem (by rw [h]; rfl)
  · exact same_mem (by rw [h]; rfl)
  · exact same_mem (by rw [h]; rfl)
  · obtain ⟨_, _, _, _, _, _, _, _, _, hmem, _⟩ := s.storeInput_frame r v
    exact same_mem (by rw [h]; exact hmem)
  · rw [h]; exact s.setBufWord_outputs v hb hj i

/-! ### STATUS and the interrupt -/

/-- The four flags of the STATUS register (R27 to R30). -/
theorem State.statusWord_flags (s : State) :
    s.statusWord.getLsbD 0 = s.isBusy ∧ s.statusWord.getLsbD 1 = s.done ∧ s.statusWord.getLsbD 2 = s.err ∧
      s.statusWord.getLsbD 3 = s.wbusy := by
  unfold statusWord
  refine ⟨?_, ?_, ?_, ?_⟩ <;> (repeat rw [BitVec.getLsbD_append]) <;> simp

/-- Above the flags STATUS holds ERRCODE from bit 8 on and nothing else (R31, R32). -/
theorem State.statusWord_getLsbD_add_four (s : State) (i : Nat) :
    s.statusWord.getLsbD (i + 4) = (decide (4 ≤ i) && s.errcode.getLsbD (i - 4)) := by
  unfold statusWord
  repeat rw [BitVec.getLsbD_append]
  rcases Nat.lt_or_ge i 4 with h | h
  · simp [h]
  · obtain ⟨k, rfl⟩ := Nat.exists_eq_add_of_le' h
    simpa using BitVec.lt_of_getLsbD

/-- The fields of the STATUS register (R27 to R32). -/
theorem State.statusWord_fields (s : State) :
    s.statusWord.extractLsb' 4 4 = 0#4 ∧ s.statusWord.extractLsb' 8 8 = s.errcode ∧
      s.statusWord.extractLsb' 16 16 = 0#16 := by
  refine ⟨?_, ?_, ?_⟩ <;> ext i hi <;> rw [BitVec.getElem_extractLsb']
  · rw [Nat.add_comm 4 i, s.statusWord_getLsbD_add_four]
    simp [hi]
  · rw [show 8 + i = 4 + i + 4 by omega, s.statusWord_getLsbD_add_four]
    simp [hi]
  · rw [show 16 + i = 12 + i + 4 by omega, s.statusWord_getLsbD_add_four]
    simp [show 12 + i - 4 = 8 + i by omega]

/-- An acknowledgement, flag by flag: a flag whose bit is 1 is cleared (R28 to R30). -/
theorem State.acknowledge_eq (s : State) (v : Word) :
    s.acknowledge v = { s with
      done := if v.getLsbD 1 then false else s.done
      err := if v.getLsbD 2 then false else s.err
      wbusy := if v.getLsbD 3 then false else s.wbusy } := by
  have clear : ∀ flag bit : Bool, (flag && !bit) = if bit then false else flag := by decide
  simp only [acknowledge, clear]

theorem State.irq_eq_true_iff (s : State) :
    s.irq = true ↔ (s.done = true ∧ s.irqEn.getLsbD 0 = true) ∨ (s.err = true ∧ s.irqEn.getLsbD 1 = true) ∨
      (s.wbusy = true ∧ s.irqEn.getLsbD 2 = true) := by
  simp only [irq, Bool.or_eq_true, Bool.and_eq_true, or_assoc]

theorem State.irq_eq_false_iff (s : State) :
    s.irq = false ↔ (s.done = true → s.irqEn.getLsbD 0 = false) ∧ (s.err = true → s.irqEn.getLsbD 1 = false) ∧
      (s.wbusy = true → s.irqEn.getLsbD 2 = false) := by
  simp only [irq, Bool.or_eq_false_iff, Bool.and_eq_false_imp, and_assoc]

/-- The interrupt after an acknowledgement is low exactly when every enabled flag that is set is cleared (R276). -/
theorem State.irq_acknowledge_eq_false_iff (s : State) (v : Word) :
    (s.acknowledge v).irq = false ↔
      (s.done = true → s.irqEn.getLsbD 0 = true → v.getLsbD 1 = true) ∧
      (s.err = true → s.irqEn.getLsbD 1 = true → v.getLsbD 2 = true) ∧
      (s.wbusy = true → s.irqEn.getLsbD 2 = true → v.getLsbD 3 = true) := by
  have source : ∀ flag bit enabled : Bool,
      ((flag && !bit) = true → enabled = false) ↔ (flag = true → enabled = true → bit = true) := by decide
  rw [irq_eq_false_iff, acknowledge_done, acknowledge_err, acknowledge_wbusy, acknowledge_irqEn, source, source, source]

end Sys2Proof.Machine
end

section
/-! PROOFS. Reserved offsets, the ID register, every read, STATUS and the interrupt (O9, O10, O13, O14, O15). -/

namespace Sys2Proof.Machine

open Sys2Proof

/-- Settles O9: ID reads its constant and a write to it is no operation, at its own offset. -/
theorem idIsHardwired : Obligations.IdIsHardwired := fun s v =>
  ⟨s.serve_read_register .id, s.serve_write_register .id v⟩

/-- Settles O10: the listed offsets name no register and no buffer word, and a reserved target reads 0 and keeps nothing. -/
theorem reservedOffsetsReadZeroAndIgnoreWrites : Obligations.ReservedOffsetsReadZeroAndIgnoreWrites := by
  intro s o v halign ho
  have htarget : targetAt o.toNat = .reserved := targetAt_eq_reserved_of_range halign ho
  constructor
  · rw [s.serve_read_aligned halign, htarget]
    exact State.serveRead_of_not_drawsFree rfl
  · rw [s.serve_write_aligned halign, htarget]
    rfl

/-- Settles O13: each read is the read of its register or of its buffer word, a free draw exactly for an output buffer while BUSY;
the output octets are kept by every transaction that is neither an accepted issue nor a soft reset. -/
theorem outputReadsWhileBusyAreFreeDraws : Obligations.OutputReadsWhileBusyAreFreeDraws := by
  refine ⟨fun s => ⟨?registers, ?idleResults, ?busyResults, ?bufferWords, ?freeDraws⟩, ?hold⟩
  case registers =>
    exact ⟨s.readsAs_register .id, s.readsAs_register .ctrl, s.readsAs_register .cmd, s.readsAs_register .status,
      s.readsAs_register .irqEn, s.readsAs_register .passcode, s.readsAs_register .iterations,
      s.readsAs_register .saltLen, s.readsAs_register .pwdLen, s.readsAs_register .dkLen,
      s.readsAs_register .discriminator, s.readsAs_register .vid, s.readsAs_register .pid,
      s.readsAs_register .digitsLen⟩
  case idleResults =>
    intro hp
    obtain ⟨hres, hlen⟩ := State.readRegister_result_of_idle hp
    exact ⟨hres ▸ s.readsAs_register .result, hlen ▸ s.readsAs_register .resultLen⟩
  case busyResults =>
    intro hp
    obtain ⟨hres, hlen⟩ := State.readRegister_result_of_busy hp
    exact ⟨hres ▸ s.readsAs_register .result, hlen ▸ s.readsAs_register .resultLen⟩
  case bufferWords =>
    intro b j hj h
    have hinput : s.phase = .idle ∨ b.isOutput = false :=
      h.imp_right fun hb => (by decide : ∀ b ∈ [Buffer.salt, .pwd, .scalar, .point, .digit], b.isOutput = false) b hb
    exact ⟨s.bufWord b j, State.readsAs_bufferWord hj hinput, fun k hk => s.bufWord_extract b j hk⟩
  case freeDraws =>
    intro hp b hb j hj
    have houtput : b.isOutput = true := (by decide : ∀ b ∈ [Buffer.out, .b64], b.isOutput = true) b hb
    rw [s.serve_read_buffer b j hj]
    exact State.serveRead_of_drawsFree (by simp [State.drawsFree, State.isBusy, houtput, hp])
  case hold =>
    intro s t hreset hissue
    exact ⟨fun i _ => (State.serve_outputs_of_no_issue hreset hissue i).1,
      fun i _ => (State.serve_outputs_of_no_issue hreset hissue i).2⟩

/-- Settles O14: the write is an acknowledgement, and the fields of a STATUS read are those of `statusWord`. -/
theorem statusWritesClearTheirFlags : Obligations.StatusWritesClearTheirFlags := by
  intro s v
  obtain ⟨hbusy, hdone, herr, hwbusy⟩ := s.statusWord_flags
  obtain ⟨hlow, hcode, hhigh⟩ := s.statusWord_fields
  refine ⟨?write, s.statusWord, s.serve_read_register .status, ?busy, hdone, herr, hwbusy, hlow, hcode, hhigh⟩
  case write =>
    refine (s.serve_write_register .status v).trans ?_
    rw [State.writeRegister, s.acknowledge_eq]
    rfl
  case busy =>
    rw [hbusy, State.isBusy, beq_iff_eq]

/-- Settles O15: the interrupt is a function of the flags and IRQ_EN, so each write's effect on it is its effect on these. -/
theorem interruptFollowsEnabledFlags : Obligations.InterruptFollowsEnabledFlags := by
  refine ⟨rfl, fun s v => ⟨s.irq_eq_true_iff, ?enable, ?mask, ?acknowledge⟩⟩
  case enable =>
    refine (s.serve_write_register .irqEn v).trans ?_
    rw [State.writeRegister, State.enableIrq, ← BitVec.setWidth_eq_extractLsb' (by decide)]
    rfl
  case mask =>
    refine (congrArg State.irq (s.serve_write_register .irqEn 0#32)).trans ?_
    have masked : ∀ i, ((s.enableIrq 0#32).respond .okay 0#32).irqEn.getLsbD i = false := by simp
    exact (State.irq_eq_false_iff _).mpr ⟨fun _ => masked 0, fun _ => masked 1, fun _ => masked 2⟩
  case acknowledge =>
    have hserve : s.serve (.write 0x00C#12 .bits32 v) = (s.acknowledge v).respond .okay 0#32 :=
      s.serve_write_register .status v
    rw [hserve]
    exact s.irq_acknowledge_eq_false_iff v

end Sys2Proof.Machine
end

section
/-! PROOFS. Every step keeps the invariant (O22): what it rests on, each update of the state, each turn, the step. -/

namespace Sys2Proof.Machine

open Sys2Proof

/-! ### Command words -/

/-- A word is RSV above OP (R90). -/
theorem toNat_eq_rsvField_opField (w : Word) : w.toNat = 256 * (rsvField w).toNat + (opField w).toNat := by
  have := w.isLt
  simp only [rsvField, opField, BitVec.extractLsb'_toNat, Nat.shiftRight_eq_div_pow]
  omega

/-- A word that decodes is the command's word (R92). -/
theorem encode_of_decode {w : Word} {i : Instr} (h : decode w = .ok i) : encode i = w := by
  unfold decode at h
  split at h
  · cases h
  · next hrsv =>
    have hw : w.toNat = (opField w).toNat := by
      simpa [not_not.mp hrsv] using toNat_eq_rsvField_opField w
    apply BitVec.eq_of_toNat_eq
    split at h <;> cases h <;> next hop => exact (hw.trans hop).symm

theorem legalWord_encode (i : Instr) : legalWord (encode i) = true := by
  cases i <;> decide

/-! ### Outputs -/

theorem Buffer.holds_base_add {b : Buffer} {i : Nat} (h : i < b.size) : b.holds (b.base + i) = true :=
  holds_of_bufferAt (bufferAt_base_add b i h)

/-- An accepted issue leaves every output zero (R111). -/
theorem State.start_outputsZero (s : State) (v : Word) : (s.start v).OutputsZero where
  result := rfl
  resultLen := rfl
  out i hi := by rw [outAt, start_read, if_pos (.inl (Buffer.holds_base_add hi))]
  b64 i hi := by rw [b64At, start_read, if_pos (.inr (Buffer.holds_base_add hi))]

/-- The outputs are RESULT, RESULT_LEN and the octets of memory, so a state that shares these with one whose outputs are zero
has zero outputs. -/
theorem State.OutputsZero.congr {s t : State} (h : s.OutputsZero) (hresult : t.result = s.result)
    (hlen : t.resultLen = s.resultLen) (hmem : t.mem = s.mem) : t.OutputsZero where
  result := hresult.trans h.result
  resultLen := hlen.trans h.resultLen
  out i hi := by rw [outAt, hmem]; exact h.out i hi
  b64 i hi := by rw [b64At, hmem]; exact h.b64 i hi

/-- A successful completion writes OUT_BUF only up to the length of its octets (R114). -/
theorem State.completeOk_outAt_of_le {s : State} {r : Results} {i : Nat} (ho : r.out.length ≤ Buffer.out.size)
    (hlen : r.out.length ≤ i) (hi : i < Buffer.out.size) : (s.completeOk r).outAt i = s.outAt i := by
  have hs : Buffer.out.base + Buffer.out.size ≤ Buffer.b64.base := by decide
  rw [outAt, s.completeOk_read r _ ho, if_neg (by omega), if_neg (by omega), outAt]

/-- A successful completion with no octets for B64_BUF leaves it alone (R114). -/
theorem State.completeOk_b64At_of_nil {s : State} {r : Results} (ho : r.out.length ≤ Buffer.out.size) (h6 : r.b64 = [])
    (i : Nat) : (s.completeOk r).b64At i = s.b64At i := by
  have hs : Buffer.out.base + Buffer.out.size ≤ Buffer.b64.base := by decide
  rw [b64At, s.completeOk_read r _ ho, h6, List.length_nil, if_neg (by omega), if_neg (by omega), b64At]

/-! ### Memory -/

/-- Octets written inside a buffer are listed only inside buffers (R62). -/
theorem Memory.inBuffers_writeOctets {m : Memory} {b : Buffer} {k : Nat} {o : List Octet}
    (h : ∀ c ∈ m, (bufferAt c.1).isSome) (hfit : k + o.length ≤ b.size) :
    ∀ c ∈ Memory.writeOctets m (b.base + k) o, (bufferAt c.1).isSome := by
  intro c hc
  rcases mem_writeOctets hc with hrange | hold
  · obtain ⟨n, hn⟩ := Nat.exists_eq_add_of_le hrange.1
    rw [hn, Nat.add_assoc, bufferAt_base_add b _ (by omega)]
    rfl
  · exact h c hold

/-! ### Updates outside what the invariant speaks of -/

/-- `t` agrees with `s` on every field the invariant reads, but that DONE and ERR may have been cleared. -/
structure State.SameButClearedFlags (s t : State) : Prop where
  phase : t.phase = s.phase
  cmd : t.cmd = s.cmd
  done : t.done = true → s.done = true
  err : t.err = true → s.err = true
  errcode : t.errcode = s.errcode
  result : t.result = s.result
  resultLen : t.resultLen = s.resultLen
  mem : t.mem = s.mem
  latch : t.latch = s.latch

theorem State.Inv.of_sameButClearedFlags {s t : State} (h : s.Inv) (same : s.SameButClearedFlags t) : t.Inv := by
  obtain ⟨hphase, hcmd, hdone, herr, hcode, hresult, hlen, hmem, hlatch⟩ := same
  have outputs : s.OutputsZero → t.OutputsZero := fun hz => hz.congr hresult hlen hmem
  have hout : ∀ i, t.outAt i = s.outAt i := fun i => by rw [outAt, hmem, outAt]
  have hb64 : ∀ i, t.b64At i = s.b64At i := fun i => by rw [b64At, hmem, b64At]
  constructor
  case memWf => rw [hmem]; exact h.memWf
  case memInBuffers => rw [hmem]; exact h.memInBuffers
  case latchedWhileBusy => rw [hphase, hlatch]; exact h.latchedWhileBusy
  case latchIsCmd => rw [hlatch, hcmd]; exact h.latchIsCmd
  case busyClear =>
    rw [hphase, hcode]
    intro hbusy
    obtain ⟨hd, he, hc, hz⟩ := h.busyClear hbusy
    exact ⟨Bool.eq_false_of_not_eq_true fun ht => by simp [hdone ht] at hd,
      Bool.eq_false_of_not_eq_true fun ht => by simp [herr ht] at he, hc, outputs hz⟩
  case errcodeKnown => rw [hcode]; exact h.errcodeKnown
  case errHasCode => rw [hcode]; exact fun ht => h.errHasCode (herr ht)
  case errorNoOutput => rw [hcode]; exact fun hc => outputs (h.errorNoOutput hc)
  case outTailZero => simp only [hlen, hout]; exact h.outTailZero
  case resultLenFits => rw [hlen]; exact h.resultLenFits
  case b64OnlyVerifier => simp only [hcmd, hb64]; exact h.b64OnlyVerifier
  case illegalReported => rw [hphase, hcmd, hcode]; exact h.illegalReported

/-- The invariant says nothing of the world around the block. -/
theorem State.Inv.withEnv {s : State} (h : s.Inv) (e : World) : { s with env := e }.Inv :=
  h.of_sameButClearedFlags ⟨rfl, rfl, id, id, rfl, rfl, rfl, rfl, rfl⟩

theorem State.Inv.respond {s : State} (h : s.Inv) (b : BusStatus) (d : Word) : (s.respond b d).Inv :=
  h.withEnv _

theorem State.Inv.acknowledge {s : State} (h : s.Inv) (v : Word) : (s.acknowledge v).Inv :=
  h.of_sameButClearedFlags ⟨rfl, rfl, fun hd => (Bool.and_eq_true_iff.mp hd).1, fun he => (Bool.and_eq_true_iff.mp he).1,
    rfl, rfl, rfl, rfl, rfl⟩

theorem State.Inv.enableIrq {s : State} (h : s.Inv) (v : Word) : (s.enableIrq v).Inv :=
  h.of_sameButClearedFlags ⟨rfl, rfl, id, id, rfl, rfl, rfl, rfl, rfl⟩

theorem State.Inv.noteDropped {s : State} (h : s.Inv) : s.noteDropped.Inv :=
  h.of_sameButClearedFlags ⟨rfl, rfl, id, id, rfl, rfl, rfl, rfl, rfl⟩

theorem State.Inv.storeInput {s : State} (h : s.Inv) (r : Register) (v : Word) : (s.storeInput r v).Inv := by
  obtain ⟨hphase, hcmd, hdone, herr, _, hcode, _, hresult, hlen, hmem, hlatch, _⟩ := s.storeInput_frame r v
  exact h.of_sameButClearedFlags
    ⟨hphase, hcmd, fun hd => hdone ▸ hd, fun he => herr ▸ he, hcode, hresult, hlen, hmem, hlatch⟩

/-! ### Updates of what it speaks of -/

/-- A reset of the block, from any state at all (R291). -/
theorem State.inv_resetBlock (s : State) : s.resetBlock.Inv where
  memWf := Memory.wf_nil
  memInBuffers _ hc := absurd hc List.not_mem_nil
  latchedWhileBusy := by simp [reset]
  latchIsCmd _ hl := nomatch hl
  busyClear hp := nomatch hp
  errcodeKnown := Nat.zero_le _
  errHasCode he := nomatch he
  errorNoOutput hc := absurd rfl hc
  outTailZero _ _ _ := rfl
  resultLenFits := Nat.zero_le _
  b64OnlyVerifier _ _ _ := rfl
  illegalReported _ := by simp only [resetBlock_cmd, resetBlock_errcode]; decide

/-- A write to an input buffer's word while IDLE (R71). -/
theorem State.Inv.setBufWord {s : State} (h : s.Inv) {b : Buffer} {j : Nat} (v : Word) (hidle : s.phase = .idle)
    (hb : b.isOutput = false) (hj : 4 * j + 4 ≤ b.size) : (s.setBufWord b j v).Inv := by
  have hout i := (s.setBufWord_outputs v hb hj i).1
  have hb64 i := (s.setBufWord_outputs v hb hj i).2
  constructor
  case memWf => exact Memory.wf_writeOctets _ _ h.memWf
  case memInBuffers => exact Memory.inBuffers_writeOctets h.memInBuffers hj
  case latchedWhileBusy => exact h.latchedWhileBusy
  case latchIsCmd => exact h.latchIsCmd
  case busyClear => exact fun hbusy => nomatch hidle.symm.trans hbusy
  case errcodeKnown => exact h.errcodeKnown
  case errHasCode => exact h.errHasCode
  case errorNoOutput =>
    intro hc
    obtain ⟨hresult, hlen, ho, h6⟩ := h.errorNoOutput hc
    exact ⟨hresult, hlen, fun i hi => (hout i).trans (ho i hi), fun i hi => (hb64 i).trans (h6 i hi)⟩
  case outTailZero => exact fun i hlen hi => (hout i).trans (h.outTailZero i hlen hi)
  case resultLenFits => exact h.resultLenFits
  case b64OnlyVerifier => exact fun hc i hi => (hb64 i).trans (h.b64OnlyVerifier hc i hi)
  case illegalReported => exact h.illegalReported

/-- An accepted issue, of a legal word or not (R111). -/
theorem State.Inv.start {s : State} (h : s.Inv) (v : Word) : (s.start v).Inv where
  memWf := Memory.wf_zeroFill _ _ (Memory.wf_zeroFill _ _ h.memWf)
  memInBuffers c hc := h.memInBuffers c (Memory.mem_zeroFill (Memory.mem_zeroFill hc))
  latchedWhileBusy := iff_of_true rfl rfl
  latchIsCmd _ hl := Option.some.inj hl
  busyClear _ := ⟨rfl, rfl, rfl, s.start_outputsZero v⟩
  errcodeKnown := Nat.zero_le _
  errHasCode he := nomatch he
  errorNoOutput hc := absurd rfl hc
  outTailZero i _ hi := (s.start_outputsZero v).out i hi
  resultLenFits := Nat.zero_le _
  b64OnlyVerifier _ i hi := (s.start_outputsZero v).b64 i hi
  illegalReported hp := nomatch hp

theorem EngineError.code_toNat_le (e : EngineError) : e.code.toNat ≤ 6 := by
  cases e <;> decide

theorem EngineError.code_ne_zero (e : EngineError) : e.code ≠ 0#8 := by
  cases e <;> decide

theorem EngineError.code_eq_one_iff (e : EngineError) : e.code = 0x01#8 ↔ e = .illegalCmd := by
  cases e <;> decide

/-- An error completion writes no output, so what the issue zeroed is still zero (R115, R269); its code is ILLEGAL_CMD exactly
for an illegal word (R119). -/
theorem State.Inv.completeError {s : State} (h : s.Inv) {e : EngineError} (hbusy : s.phase = .busy)
    (hlegal : legalWord s.cmd = false ↔ e = .illegalCmd) : (s.completeError e).Inv := by
  obtain ⟨_, _, _, hzero⟩ := h.busyClear hbusy
  have hz : (s.completeError e).OutputsZero := hzero.congr rfl rfl rfl
  constructor
  case memWf => exact h.memWf
  case memInBuffers => exact h.memInBuffers
  case latchedWhileBusy => exact iff_of_false nofun nofun
  case latchIsCmd => exact nofun
  case busyClear => exact nofun
  case errcodeKnown => exact e.code_toNat_le
  case errHasCode => exact fun _ => e.code_ne_zero
  case errorNoOutput => exact fun _ => hz
  case outTailZero => exact fun i _ hi => hz.out i hi
  case resultLenFits => exact h.resultLenFits
  case b64OnlyVerifier => exact fun _ i hi => hz.b64 i hi
  case illegalReported => exact fun _ => hlegal.trans e.code_eq_one_iff.symm

/-- A successful completion writes OUT_BUF up to RESULT_LEN at most and B64_BUF only for DERIVE_VERIFIER; beyond that the zeros
of the issue stand, and so does ERRCODE 0 (R114). -/
theorem State.Inv.completeOk {s : State} (h : s.Inv) {r : Results} {i : Instr} (hbusy : s.phase = .busy)
    (hcmd : s.cmd = encode i) (hfit : r.Fits i) : (s.completeOk r).Inv := by
  obtain ⟨_, herr, hcode, hzero⟩ := h.busyClear hbusy
  obtain ⟨hout, hlen, hb64, honly⟩ := hfit
  have hout' : r.out.length ≤ Buffer.out.size := hout.trans hlen
  have hresultLen : (s.completeOk r).resultLen.toNat = r.resultLen := by
    have : Buffer.out.size < 2 ^ 32 := by decide
    rw [completeOk_resultLen, BitVec.toNat_ofNat, Nat.mod_eq_of_lt (by omega)]
  constructor
  case memWf => exact Memory.wf_writeOctets _ _ (Memory.wf_writeOctets _ _ h.memWf)
  case memInBuffers =>
    have hfirst := Memory.inBuffers_writeOctets (b := .out) (k := 0) (o := r.out) h.memInBuffers (by omega)
    exact Memory.inBuffers_writeOctets (b := .b64) (k := 0) hfirst (by omega)
  case latchedWhileBusy => exact iff_of_false nofun nofun
  case latchIsCmd => exact nofun
  case busyClear => exact nofun
  case errcodeKnown => exact h.errcodeKnown
  case errHasCode => exact h.errHasCode
  case errorNoOutput => exact fun hc => absurd hcode hc
  case outTailZero =>
    intro k hk hsize
    rw [hresultLen] at hk
    rw [completeOk_outAt_of_le hout' (hout.trans hk) hsize]
    exact hzero.out k hsize
  case resultLenFits => rw [hresultLen]; exact hlen
  case b64OnlyVerifier =>
    intro hne k hk
    have hi : i ≠ .deriveVerifier := by
      rintro rfl
      exact hne hcmd
    rw [completeOk_b64At_of_nil hout' (honly hi)]
    exact hzero.b64 k hk
  case illegalReported =>
    intro _
    rw [completeOk_cmd, completeOk_errcode, hcmd, hcode, legalWord_encode]
    decide

/-! ### Turns -/

theorem State.Inv.serve {s : State} (h : s.Inv) (t : Transaction) : (s.serve t).Inv := by
  rcases s.serve_cases t with ⟨r, n, hs, _⟩ | ⟨hs, _⟩ | ⟨v, _, _, hs, _⟩ | ⟨v, hs, _⟩ | ⟨v, hs, _⟩ | ⟨_, hs, _⟩ |
    ⟨r, v, _, hs, _⟩ | ⟨b, j, v, hidle, hb, hj, hs, _⟩ <;> rw [hs]
  · exact h.withEnv _
  · exact s.inv_resetBlock.respond _ _
  · exact (h.start v).respond _ _
  · exact (h.acknowledge v).respond _ _
  · exact (h.enableIrq v).respond _ _
  · exact h.noteDropped.respond _ _
  · exact (h.storeInput r v).respond _ _
  · exact (h.setBufWord v hidle hb hj).respond _ _

/-- The completion of the command in flight (R113): the latched word is CMD, so how it decodes is whether CMD is legal. -/
theorem State.Inv.engineStep {s t : State} (h : s.Inv) (hbusy : s.phase = .busy) (hstep : engineStep s = .next t) :
    t.Inv := by
  rcases engineStep_cases s with ⟨_, hs⟩ | ⟨w, i, hlatch, hdecode, hs⟩ | ⟨w, e, hlatch, hdecode, hs⟩ <;> rw [hs] at hstep
  · cases hstep
  · have hcmd : s.cmd = encode i := (h.latchIsCmd w hlatch).trans (encode_of_decode hdecode).symm
    rcases exec_cases i s with ⟨r, hfit, hexec⟩ | ⟨e, hlegal, hexec⟩ <;> rw [hexec] at hstep <;> cases hstep
    · exact h.completeOk hbusy hcmd hfit
    · exact h.completeError hbusy (iff_of_false (by simp [hcmd, legalWord_encode]) hlegal)
  · cases hstep
    have hillegal : legalWord s.cmd = false := by
      rw [h.latchIsCmd w hlatch, ← Bool.not_eq_true, ← decode_isOk_iff, hdecode]
      exact nofun
    exact h.completeError hbusy (iff_of_true hillegal rfl)

theorem State.Inv.takeTurn {s t : State} (h : s.Inv) {turn : Turn} (hturn : takeTurn turn s = .next t) : t.Inv := by
  cases turn with
  | host a => cases hturn; exact h.serve a
  | rst => cases hturn; exact s.inv_resetBlock
  | engine =>
    rw [Machine.takeTurn] at hturn
    split at hturn
    · next hbusy => exact h.engineStep (beq_iff_eq.mp hbusy) hturn
    · cases hturn; exact h

/-- Settles O22: a step is a turn, a completion or nothing (`step_cases`), and each keeps the invariant. -/
theorem everyStepKeepsTheInvariant : Obligations.EveryStepKeepsTheInvariant := by
  intro s t h hstep
  rcases step_cases s with ⟨_, _, hs⟩ | ⟨_, hbusy, hs⟩ | ⟨turn, rest, _, hs⟩ <;> rw [hs] at hstep
  · cases hstep; exact h
  · exact h.engineStep hbusy hstep
  · exact (h.withEnv _).takeTurn hstep

end Sys2Proof.Machine
end

section
/-! PROOFS. The commands do not see what a host can still change while BUSY: WBUSY, IRQ_EN and the world around the block
(O28). -/

namespace Sys2Proof.Machine

open Sys2Proof

/-! ### What a host can change while BUSY -/

/-- `s` with another WBUSY, another IRQ_EN and another world: all that transactions other than a soft reset can change while a
command is in flight (R71, R112). -/
def State.withHostSide (s : State) (wbusy : Bool) (irqEn : BitVec 3) (env : World) : State :=
  { s with wbusy := wbusy, irqEn := irqEn, env := env }

/-- The completion keeps the host's side as it is (R113). -/
theorem State.complete_withHostSide (s : State) (wbusy : Bool) (irqEn : BitVec 3) (env : World)
    (o : Except EngineError Results) :
    (s.withHostSide wbusy irqEn env).complete o = (s.complete o).withHostSide wbusy irqEn env := by
  cases o <;> rfl

/-- No command reads the host's side (R96): by its definition each outcome is the same whatever that holds, and the completion
carries it along. -/
theorem exec_withHostSide {i : Instr} {s t : State} (wbusy : Bool) (irqEn : BitVec 3) (env : World)
    (h : exec i s = .next t) : exec i (s.withHostSide wbusy irqEn env) = .next (t.withHostSide wbusy irqEn env) := by
  have lift : ∀ o, exec i s = .next (s.complete o) →
      exec i (s.withHostSide wbusy irqEn env) = .next ((s.withHostSide wbusy irqEn env).complete o) →
      exec i (s.withHostSide wbusy irqEn env) = .next (t.withHostSide wbusy irqEn env) := by
    intro o ho ho'
    rw [h] at ho
    cases ho
    rw [ho', s.complete_withHostSide]
  cases i
  case nop => exact lift (.ok nopResults) rfl rfl
  case deriveVerifier => exact lift (deriveVerifierOutcome s) rfl rfl
  case pbkdf2 => exact lift (pbkdf2Outcome s) rfl rfl
  case scalarMulG => exact lift (scalarMulGOutcome s) rfl rfl
  case pointCheck => exact lift (.ok (pointCheckResults s)) rfl rfl
  case encodeManualCode => exact lift (manualCodeOutcome s) rfl rfl
  case verhoeffCheckDigit => exact lift (verhoeffOutcome s) rfl rfl

/-- With a command latched, the engine's step is a completion (R113, R119). -/
theorem engineStep_next_of_latch {s : State} {w : Word} (hlatch : s.latch = some w) : ∃ t, engineStep s = .next t := by
  rcases engineStep_cases s with ⟨hnone, _⟩ | ⟨_, i, _, _, hs⟩ | ⟨_, _, _, _, hs⟩
  · cases hlatch.symm.trans hnone
  · rcases exec_cases i s with ⟨_, _, hexec⟩ | ⟨_, _, hexec⟩ <;> exact ⟨_, hs.trans hexec⟩
  · exact ⟨_, hs⟩

/-- A latched command's word runs the command (R113, R116). -/
theorem engineStep_of_decode_ok {s : State} {w : Word} {i : Instr} (hlatch : s.latch = some w) (hdecode : decode w = .ok i) :
    engineStep s = exec i s := by
  simp only [engineStep, State.fetch, hlatch, hdecode]

/-- A latched word that is no command completes with ILLEGAL_CMD (R113, R119). -/
theorem engineStep_of_decode_error {s : State} {w : Word} {e : DecodeError} (hlatch : s.latch = some w)
    (hdecode : decode w = .error e) : engineStep s = .next (s.completeError .illegalCmd) := by
  simp only [engineStep, State.fetch, hlatch, hdecode, execIllegal]

/-- The completion in flight is the same whatever the host's side holds (R73). -/
theorem engineStep_withHostSide {s t : State} (wbusy : Bool) (irqEn : BitVec 3) (env : World)
    (h : engineStep s = .next t) :
    engineStep (s.withHostSide wbusy irqEn env) = .next (t.withHostSide wbusy irqEn env) := by
  rcases engineStep_cases s with ⟨_, hs⟩ | ⟨w, i, hlatch, hdecode, hs⟩ | ⟨w, e, hlatch, hdecode, hs⟩ <;> rw [hs] at h
  · cases h
  · rw [engineStep_of_decode_ok (s := s.withHostSide wbusy irqEn env) hlatch hdecode]
    exact exec_withHostSide wbusy irqEn env h
  · cases h
    exact engineStep_of_decode_error hlatch hdecode

/-! ### Transactions while BUSY -/

/-- With DONE and ERR clear, an acknowledgement can clear no more than WBUSY (R28 to R30). -/
theorem State.acknowledge_of_clear {s : State} (hdone : s.done = false) (herr : s.err = false) (v : Word) :
    s.acknowledge v = s.withHostSide (s.wbusy && !v.getLsbD 3) s.irqEn s.env := by
  simp only [acknowledge, withHostSide, hdone, herr, Bool.false_and]

/-- While BUSY nothing but a soft reset reaches past the host's side: inputs are dropped, and the flags a STATUS write could
clear are clear already (R71, R111, R112). -/
theorem State.Inv.serve_of_busy {s : State} (h : s.Inv) (hbusy : s.phase = .busy) {t : Transaction}
    (hreset : softResets t = false) : ∃ wbusy irqEn env, s.serve t = s.withHostSide wbusy irqEn env := by
  obtain ⟨hdone, herr, _, _⟩ := h.busyClear hbusy
  have not_idle : s.phase ≠ .idle := by simp [hbusy]
  rcases s.serve_cases t with ⟨_, _, hs, _⟩ | ⟨_, hsoft⟩ | ⟨_, hidle, _⟩ | ⟨v, hs, _⟩ | ⟨_, hs, _⟩ | ⟨_, hs, _⟩ |
    ⟨_, _, hidle, _⟩ | ⟨_, _, _, hidle, _⟩
  · exact ⟨_, _, _, hs⟩
  · rw [hreset] at hsoft; cases hsoft
  · exact absurd hidle not_idle
  · rw [hs, acknowledge_of_clear hdone herr]
    exact ⟨_, _, _, rfl⟩
  · exact ⟨_, _, _, hs⟩
  · exact ⟨_, _, _, hs⟩
  · exact absurd hidle not_idle
  · exact absurd hidle not_idle

/-- By induction on the sequence: each transaction keeps the invariant and the phase, so the next one is served while BUSY too
(R70, R73). -/
theorem State.Inv.serveAll_of_busy {s : State} (h : s.Inv) (hbusy : s.phase = .busy) {ts : List Transaction}
    (hreset : ∀ t ∈ ts, softResets t = false) : ∃ wbusy irqEn env, s.serveAll ts = s.withHostSide wbusy irqEn env := by
  induction ts generalizing s with
  | nil => exact ⟨s.wbusy, s.irqEn, s.env, rfl⟩
  | cons t ts ih =>
    obtain ⟨wbusy, irqEn, env, ht⟩ := h.serve_of_busy hbusy (hreset t List.mem_cons_self)
    have hbusy' : (s.serve t).phase = .busy := by rw [ht]; exact hbusy
    obtain ⟨wbusy', irqEn', env', hts⟩ := ih (h.serve t) hbusy' fun u hu => hreset u (List.mem_cons_of_mem t hu)
    refine ⟨wbusy', irqEn', env', ?_⟩
    calc s.serveAll (t :: ts)
        = (s.serve t).serveAll ts := rfl
      _ = (s.withHostSide wbusy irqEn env).withHostSide wbusy' irqEn' env' := by rw [hts, ht]
      _ = s.withHostSide wbusy' irqEn' env' := rfl

theorem State.sameInputs_withHostSide (s : State) (wbusy : Bool) (irqEn : BitVec 3) (env : World) :
    SameInputs s (s.withHostSide wbusy irqEn env) :=
  ⟨rfl, rfl, rfl, rfl, rfl, rfl, rfl, rfl, rfl, fun _ _ _ => rfl⟩

theorem State.sameOutputs_withHostSide (s : State) (wbusy : Bool) (irqEn : BitVec 3) (env : World) :
    SameOutputs s (s.withHostSide wbusy irqEn env) :=
  ⟨rfl, rfl, rfl, rfl, rfl, fun _ _ => rfl, fun _ _ => rfl⟩

/-- Settles O28: the transactions change only the host's side, which no command reads and no output shows. -/
theorem busyTransactionsCannotChangeTheResult : Obligations.BusyTransactionsCannotChangeTheResult := by
  intro s ts h hbusy hreset
  obtain ⟨wbusy, irqEn, env, hts⟩ := h.serveAll_of_busy hbusy hreset
  obtain ⟨w, hlatch⟩ := Option.isSome_iff_exists.mp (h.latchedWhileBusy.mp hbusy)
  obtain ⟨t, ht⟩ := engineStep_next_of_latch hlatch
  rw [hts]
  exact ⟨hbusy, rfl, rfl, s.sameInputs_withHostSide wbusy irqEn env, t, _, ht,
    engineStep_withHostSide wbusy irqEn env ht, t.sameOutputs_withHostSide wbusy irqEn env⟩

end Sys2Proof.Machine
end

section
/-! PROOFS. Accesses to the window: which are admitted, what a read leaves, where a word's octets lie, what a write stores
(O7, O8, O11, O12, O60). -/

namespace Sys2Proof.Machine

open Sys2Proof

/-! ### Admission -/

/-- The only access the block admits (R63). -/
theorem transaction_admitted_iff (t : Transaction) :
    t.admitted = true ↔ t.size = .bits32 ∧ t.offset.toNat % 4 = 0 := by
  rw [Transaction.admitted, Bool.and_eq_true, beq_iff_eq, beq_iff_eq]

/-- A refused access (R63, R270). -/
theorem State.serve_of_not_admitted (s : State) {t : Transaction} (h : t.admitted = false) :
    s.serve t = s.answered .busError 0#32 :=
  if_neg (Bool.eq_false_iff.mp h)

theorem State.serve_read_of_admitted (s : State) {o : Offset} {size : AccessSize}
    (h : (Transaction.read o size).admitted = true) : s.serve (.read o size) = s.serveRead (targetAt o.toNat) :=
  if_pos h

theorem State.serve_write_of_admitted (s : State) {o : Offset} {size : AccessSize} {v : Word}
    (h : (Transaction.write o size v).admitted = true) :
    s.serve (.write o size v) = s.serveWrite (targetAt o.toNat) v :=
  if_pos h

/-- An admitted access is answered OKAY, with the data of the target it reads or with 0 for a write (R64). -/
theorem State.serve_response_of_admitted (s : State) {t : Transaction} (h : t.admitted = true) :
    ∃ d : Word, (s.serve t).env.response = some ⟨.okay, d⟩ := by
  cases t with
  | read o _ => exact ⟨s.readTarget (targetAt o.toNat), by rw [s.serve_read_of_admitted h]; rfl⟩
  | write _ _ _ => exact ⟨0#32, by rw [s.serve_write_of_admitted h]; rfl⟩

/-- Settles O7: refused and admitted accesses are told apart by width and alignment, and each is answered in one way. -/
theorem onlyAlignedWordAccessesAreAdmitted : Obligations.OnlyAlignedWordAccessesAreAdmitted := by
  intro s t
  constructor
  · intro hrefused
    refine s.serve_of_not_admitted (Bool.eq_false_of_not_eq_true fun ha => ?_)
    obtain ⟨hsize, halign⟩ := (transaction_admitted_iff t).mp ha
    exact hrefused.elim (absurd hsize) (absurd halign)
  · intro hsize halign
    exact s.serve_response_of_admitted ((transaction_admitted_iff t).mpr ⟨hsize, halign⟩)

/-- Settles O8: a refused read only answers, and an admitted one answers and counts the free draw, if it is one. -/
theorem readsHaveNoSideEffect : Obligations.ReadsHaveNoSideEffect := by
  intro s o size
  cases ha : (Transaction.read o size).admitted with
  | false => exact ⟨⟨.busError, 0#32⟩, s.env.draws, s.serve_of_not_admitted ha⟩
  | true => exact ⟨_, _, s.serve_read_of_admitted ha⟩

/-! ### Octets of a buffer -/

/-- Settles O12: octet `i` is octet `i mod 4` of word `i div 4`. -/
theorem bufferOctetsArePackedLittleEndian : Obligations.BufferOctetsArePackedLittleEndian := by
  intro s b i hi hread
  have hword : 4 * (i / 4) < b.size := by omega
  have hplace : b.base + 4 * (i / 4) + i % 4 = b.base + i := by omega
  exact ⟨s.bufWord b (i / 4), State.readsAs_bufferWord hword hread,
    by rw [s.bufWord_extract b _ (Nat.mod_lt i (by decide)), hplace]⟩

/-! ### Writes -/

/-- The RW input registers (R71). -/
def inputRegisters : List Register :=
  [.passcode, .iterations, .saltLen, .pwdLen, .dkLen, .discriminator, .vid, .pid, .digitsLen]

/-- An RW input register is written by access type RW (R23, R71). -/
theorem State.writeRegister_of_input (s : State) {r : Register} (hr : r ∈ inputRegisters) (v : Word) :
    s.writeRegister r v = s.writeInput r v := by
  cases r
  case id | ctrl | cmd | status | irqEn | result | resultLen => exact absurd hr (by decide)
  all_goals rfl

/-- A dropped write to an RW input register (R71). -/
theorem State.serve_write_input_of_busy {s : State} (hbusy : s.phase = .busy) {r : Register} (hr : r ∈ inputRegisters)
    (v : Word) :
    s.serve (.write (BitVec.ofNat 12 r.offset) .bits32 v) = { s.answered .okay 0#32 with wbusy := true } := by
  rw [s.serve_write_register, s.writeRegister_of_input hr, writeInput, isBusy, hbusy]
  rfl

/-- A stored write to an RW input register (R71). -/
theorem State.serve_write_input_of_idle {s : State} (hidle : s.phase = .idle) {r : Register} (hr : r ∈ inputRegisters)
    (v : Word) :
    s.serve (.write (BitVec.ofNat 12 r.offset) .bits32 v) = (s.storeInput r v).answered .okay 0#32 := by
  rw [s.serve_write_register, s.writeRegister_of_input hr, writeInput, isBusy, hidle]
  rfl

/-- A dropped write to a word of an input buffer (R71). -/
theorem State.serve_write_buffer_of_busy {s : State} (hbusy : s.phase = .busy) {b : Buffer} (hb : b.isOutput = false)
    {j : Nat} (hj : 4 * j < b.size) (v : Word) :
    s.serve (.write (BitVec.ofNat 12 (b.base + 4 * j)) .bits32 v) = { s.answered .okay 0#32 with wbusy := true } := by
  rw [s.serve_write_buffer b j v hj, writeBuffer, hb, isBusy, hbusy]
  rfl

/-- A stored write to a word of an input buffer (R65, R71). -/
theorem State.serve_write_buffer_of_idle {s : State} (hidle : s.phase = .idle) {b : Buffer} (hb : b.isOutput = false)
    {j : Nat} (hj : 4 * j < b.size) (v : Word) :
    s.serve (.write (BitVec.ofNat 12 (b.base + 4 * j)) .bits32 v) = (s.setBufWord b j v).answered .okay 0#32 := by
  rw [s.serve_write_buffer b j v hj, writeBuffer, hb, isBusy, hidle]
  rfl

/-- A write to a word of an output buffer is ignored at any phase (R51, R52). -/
theorem State.serve_write_buffer_of_output (s : State) {b : Buffer} (hb : b.isOutput = true) {j : Nat}
    (hj : 4 * j < b.size) (v : Word) :
    s.serve (.write (BitVec.ofNat 12 (b.base + 4 * j)) .bits32 v) = s.answered .okay 0#32 := by
  rw [s.serve_write_buffer b j v hj, writeBuffer, hb]
  rfl

/-- Octet `k` of a word (R65). -/
theorem octetsOfWord_getD (w : Word) {k : Nat} (hk : k < 4) : (octetsOfWord w).getD k 0#8 = w.extractLsb' (8 * k) 8 := by
  match k, hk with
  | 0, _ | 1, _ | 2, _ | 3, _ => rfl

/-- The word written, octet by octet (R65). -/
theorem State.setBufWord_read_inside (s : State) (b : Buffer) (j : Nat) (v : Word) {k : Nat} (hk : k < 4) :
    Memory.read (s.setBufWord b j v).mem (b.base + 4 * j + k) = v.extractLsb' (8 * k) 8 := by
  rw [setBufWord_mem, Memory.read_writeOctets_inside _ _ _ _ hk, octetsOfWord_getD v hk]

theorem State.setBufWord_read_outside (s : State) (b : Buffer) (j : Nat) (v : Word) {a : Nat}
    (ha : a < b.base + 4 * j ∨ b.base + 4 * j + 4 ≤ a) :
    Memory.read (s.setBufWord b j v).mem a = Memory.read s.mem a := by
  rw [setBufWord_mem, Memory.read_writeOctets_outside _ _ _ _ ha]

/-- Settles O11: a write by the access type of what it names (RW input or RO) and, for an input, by the phase. -/
theorem inputWritesAreStoredOrDropped : Obligations.InputWritesAreStoredOrDropped := by
  intro s v
  have input : ∀ b ∈ [Buffer.salt, .pwd, .scalar, .point, .digit], b.isOutput = false := by decide
  have output : ∀ b ∈ [Buffer.out, .b64], b.isOutput = true := by decide
  refine ⟨fun hbusy => ⟨?droppedRegister, ?droppedWord⟩, fun hidle => ?stored, ?readOnlyRegister, ?readOnlyWord⟩
  case droppedRegister => exact fun r hr => State.serve_write_input_of_busy hbusy hr v
  case droppedWord => exact fun b hb j hj => State.serve_write_buffer_of_busy hbusy (input b hb) hj v
  case stored =>
    have store : ∀ r ∈ inputRegisters,
        s.serve (.write (BitVec.ofNat 12 r.offset) .bits32 v) = (s.storeInput r v).answered .okay 0#32 :=
      fun r hr => State.serve_write_input_of_idle hidle hr v
    have half : v.extractLsb' 0 16 = v.setWidth 16 := BitVec.setWidth_eq_extractLsb' (by decide) |>.symm
    rw [half]
    refine ⟨store .passcode (by decide), store .iterations (by decide), store .saltLen (by decide),
      store .pwdLen (by decide), store .dkLen (by decide), store .discriminator (by decide), store .vid (by decide),
      store .pid (by decide), store .digitsLen (by decide), fun b hb j hj => ?_⟩
    exact ⟨(s.setBufWord b j v).mem, State.serve_write_buffer_of_idle hidle (input b hb) hj v,
      fun k hk => s.setBufWord_read_inside b j v hk, fun a ha => s.setBufWord_read_outside b j v ha⟩
  case readOnlyRegister =>
    have ignored : ∀ r ∈ [Register.id, .result, .resultLen], s.writeRegister r v = s := by
      simp [State.writeRegister]
    exact fun r hr => by rw [s.serve_write_register, ignored r hr]; rfl
  case readOnlyWord => exact fun b hb j hj => s.serve_write_buffer_of_output (output b hb) hj v

/-! ### The window -/

/-- An address maps to an offset exactly when it is BASE plus the offset (R60). -/
theorem windowOffset?_eq_some_iff (addr : Nat) (o : Offset) : windowOffset? addr = some o ↔ addr = busAddress o := by
  have ho := o.isLt
  rw [windowOffset?, busAddress]
  constructor
  · intro h
    split at h
    · next hin =>
      obtain rfl := Option.some.inj h
      rw [BitVec.toNat_ofNat, Nat.mod_eq_of_lt (by omega)]
      omega
    · cases h
  · rintro rfl
    rw [if_pos (by omega), Nat.add_sub_cancel_left, BitVec.ofNat_toNat, BitVec.setWidth_eq]

/-- Settles O60: BASE is a multiple of the page size by definition, and the map is the inverse of `busAddress`. -/
theorem windowIsAnAlignedPage : Obligations.WindowIsAnAlignedPage :=
  ⟨Nat.mul_mod_right 4096 Config.windowPage, fun o => (windowOffset?_eq_some_iff _ o).mpr rfl,
    fun addr o => (windowOffset?_eq_some_iff addr o).mp⟩

end Sys2Proof.Machine
end

section
/-! PROOFS. Command words: decoding, encoding and their octets (O1, O2, O3). -/

namespace Sys2Proof.Machine

open Sys2Proof

/-! ### The decoder and the encoder -/

theorem decode_encode (i : Instr) : decode (encode i) = .ok i := by
  cases i <;> rfl

/-- A word decodes to a command exactly when it is the command's word (R92). -/
theorem decode_eq_ok_iff (w : Word) (i : Instr) : decode w = .ok i ↔ w = encode i := by
  constructor
  · intro h
    exact (encode_of_decode h).symm
  · rintro rfl
    exact decode_encode i

/-- The legal words are the words of the commands (R92). -/
theorem legalWord_iff_exists_encode (w : Word) : legalWord w = true ↔ ∃ i : Instr, encode i = w := by
  rw [← decode_isOk_iff]
  exact exists_congr fun i => (decode_eq_ok_iff w i).trans eq_comm

/-! ### Octets of a word -/

/-- A word is the concatenation of its octets (R65). -/
theorem wordOfOctets_of_extract (w : Word) :
    wordOfOctets (w.extractLsb' 0 8) (w.extractLsb' 8 8) (w.extractLsb' 16 8) (w.extractLsb' 24 8) = w := by
  have join : ∀ m n k : Nat, w.extractLsb' (n + k) m ++ w.extractLsb' n k = w.extractLsb' n (m + k) :=
    fun _ _ _ => BitVec.extractLsb'_append_extractLsb'_eq_extractLsb' rfl
  rw [wordOfOctets, join 8 16 8, join 16 8 8, join 24 0 8]
  exact BitVec.extractLsb'_eq_self

theorem octetsOfWord_wordOfOctets (a b c d : Octet) : octetsOfWord (wordOfOctets a b c d) = [a, b, c, d] := by
  obtain ⟨h0, h1, h2, h3⟩ := wordOfOctets_extract a b c d
  rw [octetsOfWord, h0, h1, h2, h3]

/-- The octets of a word decode as the word does (R95). -/
theorem decodeOctets_octetsOfWord (w : Word) : decodeOctets (octetsOfWord w) = decode w :=
  congrArg decode (wordOfOctets_of_extract w)

/-! ### Words of the opcode table -/

/-- All 32 bits of a command word are table bits (R90). -/
theorem decodeTableWord_32 (n : Nat) : decodeTableWord 32 n = (decode (BitVec.ofNat 32 n)).toOption := by
  have hbits : BitVec.ofNat 32 (n % 2 ^ 32) = BitVec.ofNat 32 n := BitVec.eq_of_toNat_eq (by simp)
  rw [decodeTableWord, decodeOctets_octetsOfWord, hbits]

theorem decodeTableWord_encode (i : Instr) : decodeTableWord 32 (encode i).toNat = some i := by
  rw [decodeTableWord_32, BitVec.ofNat_toNat, BitVec.setWidth_eq, decode_encode]
  rfl

/-- A word with reserved bits or a reserved opcode is no command of the table (R93). -/
theorem decodeTableWord_of_illegal {n : Nat} (h : legalWord (BitVec.ofNat 32 n) = false) :
    decodeTableWord 32 n = none := by
  rw [decodeTableWord_32]
  cases hd : decode (BitVec.ofNat 32 n) with
  | error e => rfl
  | ok i =>
    have hlegal := (decode_isOk_iff _).mp ⟨i, hd⟩
    rw [h] at hlegal
    cases hlegal

/-! ### The obligations -/

/-- Settles O1: each listed word is `encode` of its command. -/
theorem commandWordsAreTheListedOnes : Obligations.CommandWordsAreTheListedOnes := fun w =>
  ⟨decode_eq_ok_iff w .nop, decode_eq_ok_iff w .deriveVerifier, decode_eq_ok_iff w .pbkdf2,
    decode_eq_ok_iff w .scalarMulG, decode_eq_ok_iff w .pointCheck, decode_eq_ok_iff w .encodeManualCode,
    decode_eq_ok_iff w .verhoeffCheckDigit⟩

/-- Settles O2: decoding sees a word's octets only through the word they make up, and it inverts `encode`. -/
theorem decodeAndEncodeAgree : Obligations.DecodeAndEncodeAgree :=
  ⟨fun i => (decodeOctets_octetsOfWord (encode i)).trans (decode_encode i), decodeOctets_octetsOfWord,
    fun _ _ => encode_of_decode, legalWord_iff_exists_encode⟩

/-- Settles O3: seven of the words are `encode` of their commands, and the other three are illegal. -/
theorem sampleTableWordsDecode : Obligations.SampleTableWordsDecode :=
  ⟨decodeTableWord_encode .nop, decodeTableWord_encode .deriveVerifier, decodeTableWord_encode .pbkdf2,
    decodeTableWord_encode .scalarMulG, decodeTableWord_encode .pointCheck, decodeTableWord_encode .encodeManualCode,
    decodeTableWord_encode .verhoeffCheckDigit, decodeTableWord_of_illegal (by decide),
    decodeTableWord_of_illegal (by decide), decodeTableWord_of_illegal (by decide)⟩

end Sys2Proof.Machine
end

section
/-! PROOFS. What a command reports depends on its operands alone (O27): its outcome does, and the completion adds
nothing of the state but the outputs before it. -/

namespace Sys2Proof.Machine

open Sys2Proof

/-! ### The outcome of a command -/

/-- What the command answers, before the completion writes it (R113). -/
def commandOutcome (i : Instr) (s : State) : Except EngineError Results :=
  match i with
  | .nop => .ok nopResults
  | .deriveVerifier => deriveVerifierOutcome s
  | .pbkdf2 => pbkdf2Outcome s
  | .scalarMulG => scalarMulGOutcome s
  | .pointCheck => .ok (pointCheckResults s)
  | .encodeManualCode => manualCodeOutcome s
  | .verhoeffCheckDigit => verhoeffOutcome s

theorem exec_eq_complete (i : Instr) (s : State) : exec i s = .next (s.complete (commandOutcome i s)) := by
  cases i <;> rfl

/-! ### Equal operands -/

theorem SameOctets.bufOctets_eq {b : Buffer} {n : Nat} {s t : State} (h : SameOctets b n s t) :
    t.bufOctets b n = s.bufOctets b n :=
  Memory.readOctets_congr h

/-- An operand of a legal length lies inside the buffer, so D36's cut at `cap` takes nothing off it. -/
theorem SameOctets.operand_eq {b : Buffer} {s t : State} {len len' : Word} {cap : Nat}
    (h : SameOctets b (min len.toNat cap) s t) (hlen : len' = len) (hfit : len.toNat ≤ cap) :
    t.bufOctets b len'.toNat = s.bufOctets b len.toNat := by
  rw [Nat.min_eq_left hfit] at h
  rw [hlen, h.bufOctets_eq]

/-! ### Equal outcomes, command by command -/

/-- With a salt too long the operands are not examined (R204, R268). -/
theorem deriveVerifierOutcome_congr {s t : State} (h : SameReads .deriveVerifier s t) :
    deriveVerifierOutcome t = deriveVerifierOutcome s := by
  obtain ⟨hpasscode, hiterations, hsaltLen, hsalt⟩ := h
  by_cases hlong : s.saltLen.toNat > saltMax
  · rw [deriveVerifierOutcome, deriveVerifierOutcome, hsaltLen, if_pos hlong, if_pos hlong]
  · have hsaltOctets : t.saltOctets = s.saltOctets := hsalt.operand_eq hsaltLen (Nat.not_lt.mp hlong)
    have hdk : verifierDk t = verifierDk s := by
      rw [verifierDk, State.passcodeOctets, hpasscode, hsaltOctets, hiterations, verifierDk, State.passcodeOctets]
    have hw0 : verifierW0 t = verifierW0 s := by rw [verifierW0, hdk, verifierW0]
    have hw1 : verifierW1 t = verifierW1 s := by rw [verifierW1, hdk, verifierW1]
    rw [deriveVerifierOutcome, hsaltLen, hiterations, hw0, hw1, deriveVerifierOutcome]

/-- With a length out of range the operands are not examined (R148, R268). -/
theorem pbkdf2Outcome_congr {s t : State} (h : SameReads .pbkdf2 s t) : pbkdf2Outcome t = pbkdf2Outcome s := by
  obtain ⟨hpwdLen, hpwd, hsaltLen, hsalt, hiterations, hdkLen⟩ := h
  rw [pbkdf2Outcome, hpwdLen, hsaltLen, hdkLen, hiterations, pbkdf2Outcome]
  split
  · rfl
  · next hlegal =>
    simp only [not_or, Nat.not_lt, gt_iff_lt] at hlegal
    obtain ⟨hpwdFit, hsaltFit, _⟩ := hlegal
    have hpwdOctets : t.pwdOctets = s.pwdOctets := hpwd.operand_eq hpwdLen hpwdFit
    have hsaltOctets : t.saltOctets = s.saltOctets := hsalt.operand_eq hsaltLen hsaltFit
    rw [hpwdOctets, hsaltOctets]

theorem scalarMulGOutcome_congr {s t : State} (h : SameReads .scalarMulG s t) :
    scalarMulGOutcome t = scalarMulGOutcome s := by
  have hscalar : SameOctets .scalar 32 s t := h
  rw [scalarMulGOutcome, State.scalarOperand, hscalar.bufOctets_eq, scalarMulGOutcome, State.scalarOperand]

theorem pointCheckResults_congr {s t : State} (h : SameReads .pointCheck s t) :
    pointCheckResults t = pointCheckResults s := by
  have hpoint : SameOctets .point 65 s t := h
  rw [pointCheckResults, State.pointOctets, hpoint.bufOctets_eq, pointCheckResults, State.pointOctets]

theorem manualCodeOutcome_congr {s t : State} (h : SameReads .encodeManualCode s t) :
    manualCodeOutcome t = manualCodeOutcome s := by
  obtain ⟨hdiscriminator, hpasscode, hvid, hpid⟩ := h
  rw [manualCodeOutcome, hdiscriminator, hpasscode, hvid, hpid, manualCodeOutcome]

/-- A string too long is not examined (R244, R268). -/
theorem verhoeffOutcome_congr {s t : State} (h : SameReads .verhoeffCheckDigit s t) :
    verhoeffOutcome t = verhoeffOutcome s := by
  obtain ⟨hlen, hdigits⟩ := h
  rw [verhoeffOutcome, hlen, verhoeffOutcome]
  split
  · rfl
  · next hfit =>
    have hdigitOctets : t.digitOctets = s.digitOctets := hdigits.operand_eq hlen (Nat.not_lt.mp hfit)
    rw [hdigitOctets]

/-- A command's outcome is a function of what R96 lists for it. -/
theorem commandOutcome_congr {i : Instr} {s t : State} (h : SameReads i s t) :
    commandOutcome i t = commandOutcome i s := by
  cases i with
  | nop => rfl
  | deriveVerifier => exact deriveVerifierOutcome_congr h
  | pbkdf2 => exact pbkdf2Outcome_congr h
  | scalarMulG => exact scalarMulGOutcome_congr h
  | pointCheck => exact congrArg Except.ok (pointCheckResults_congr h)
  | encodeManualCode => exact manualCodeOutcome_congr h
  | verhoeffCheckDigit => exact verhoeffOutcome_congr h

/-! ### Equal completions -/

/-- Writing the same octets keeps equal octets equal. -/
theorem Memory.read_writeOctets_congr {m m' : Memory} {a : Nat} (b : Nat) (o : List Octet)
    (h : Memory.read m' a = Memory.read m a) :
    Memory.read (Memory.writeOctets m' b o) a = Memory.read (Memory.writeOctets m b o) a := by
  rw [read_writeOctets, read_writeOctets, h]

/-- The same outcome completes states with the same outputs to states with the same outputs (R113). -/
theorem SameOutputs.complete {s t : State} (h : SameOutputs s t) (o : Except EngineError Results) :
    SameOutputs (s.complete o) (t.complete o) := by
  cases o with
  | error e => exact ⟨rfl, rfl, rfl, h.result, h.resultLen, h.out, h.b64⟩
  | ok r =>
    exact ⟨rfl, h.err, h.errcode, rfl, rfl,
      fun k hk => Memory.read_writeOctets_congr _ _ (Memory.read_writeOctets_congr _ _ (h.out k hk)),
      fun k hk => Memory.read_writeOctets_congr _ _ (Memory.read_writeOctets_congr _ _ (h.b64 k hk))⟩

/-- Settles O27: both states have the same outcome, and completing it keeps the outputs the same. -/
theorem commandsDependOnlyOnTheirOperands : Obligations.CommandsDependOnlyOnTheirOperands := by
  intro i s s' t t' hreads houtputs ht ht'
  rw [exec_eq_complete] at ht
  rw [exec_eq_complete, commandOutcome_congr hreads] at ht'
  cases ht
  cases ht'
  exact houtputs.complete _

end Sys2Proof.Machine
end

section
/-! PROOFS. The transactions of LOADBUF (O59): each stores one word, and together they store the octets of the words in
order. -/

namespace Sys2Proof.Machine

open Sys2Proof

/-! ### The octets of the words -/

theorem octetsOfWords_length (ws : List Word) : (ws.flatMap octetsOfWord).length = 4 * ws.length := by
  simp [List.length_flatMap, Nat.mul_comm]

@[simp] theorem packWords_length (octets : List Octet) : (packWords octets).length = (octets.length + 3) / 4 := by
  simp [packWords]

/-- The numbers below `4 * n`, taken four at a time, are the same numbers in the same order. -/
theorem flatMap_range_four {α : Type} (f : Nat → α) (n : Nat) :
    ((List.range n).flatMap fun j => [f (4 * j), f (4 * j + 1), f (4 * j + 2), f (4 * j + 3)]) =
      (List.range (4 * n)).map f := by
  induction n with
  | zero => rfl
  | succ n ih => simp [List.range_succ, Nat.mul_succ, ih]

/-- The words of LOADBUF hold the octets in order, and 0x00 beyond them (R98). -/
theorem packWords_octets (octets : List Octet) :
    (packWords octets).flatMap octetsOfWord =
      (List.range (4 * ((octets.length + 3) / 4))).map fun i => octets.getD i 0 := by
  rw [packWords, List.flatMap_map, ← flatMap_range_four]
  simp only [octetsOfWord_wordOfOctets]

/-! ### The transactions -/

theorem Memory.writeOctets_append (m : Memory) (a : Nat) (o p : List Octet) :
    Memory.writeOctets m a (o ++ p) = Memory.writeOctets (Memory.writeOctets m a o) (a + o.length) p := by
  induction o generalizing m a with
  | nil => rfl
  | cons x o ih => simp only [List.cons_append, writeOctets, ih, List.length_cons, Nat.add_assoc, Nat.add_comm 1]

/-- The last transaction of a sequence is served after the others (R70). -/
theorem State.serveAll_concat (s : State) (ts : List Transaction) (t : Transaction) :
    s.serveAll (ts ++ [t]) = (s.serveAll ts).serve t :=
  List.foldl_concat State.serve s t ts

/-- Words written one after the other from the start of an input buffer on store their octets and, but for the answers,
nothing else; by induction on the last word (R65, R71). -/
theorem State.serveAll_wrw_of_idle {s : State} (hidle : s.phase = .idle) {b : Buffer} (hb : b.isOutput = false)
    {ws : List Word} (hfit : 4 * ws.length ≤ b.size) :
    ∃ env : World, s.serveAll (ws.mapIdx fun j w => wrwTransaction b j w) =
      { s with mem := Memory.writeOctets s.mem b.base (ws.flatMap octetsOfWord), env := env } := by
  induction ws using List.reverseRecOn with
  | nil => exact ⟨s.env, rfl⟩
  | append_singleton ws w ih =>
    rw [List.length_append, List.length_singleton] at hfit
    obtain ⟨env, hws⟩ := ih (by omega)
    have hidle' : (s.serveAll (ws.mapIdx fun j w => wrwTransaction b j w)).phase = .idle := by rw [hws]; exact hidle
    refine ⟨{ env with response := some ⟨.okay, 0#32⟩ }, ?_⟩
    rw [List.mapIdx_concat, serveAll_concat, wrwTransaction, serve_write_buffer_of_idle hidle' hb (by omega), hws,
      List.flatMap_append, List.flatMap_singleton, Memory.writeOctets_append, octetsOfWords_length]
    rfl

/-- Settles O59: the words of LOADBUF fit the buffer, and the octets they store are those given, then 0x00. -/
theorem loadBufStoresTheOctets : Obligations.LoadBufStoresTheOctets := by
  intro s b octets hidle hb hlen
  have haligned : b.size % 4 = 0 := by cases b <;> rfl
  obtain ⟨env, hload⟩ := State.serveAll_wrw_of_idle hidle hb (ws := packWords octets)
    (by rw [packWords_length]; omega)
  have hstored := octetsOfWords_length (packWords octets)
  rw [packWords_length] at hstored
  refine ⟨Memory.writeOctets s.mem b.base ((packWords octets).flatMap octetsOfWord), ?state,
    fun i hi => ?stored, fun a ha => ?outside⟩
  case state =>
    rw [loadTransactions, hload]
  case stored =>
    rw [Memory.read_writeOctets_inside _ _ _ _ (hstored ▸ hi), packWords_octets]
    simp [List.getD, hi]
  case outside =>
    exact Memory.read_writeOctets_outside _ _ _ _ (hstored ▸ ha)

end Sys2Proof.Machine
end

section
/-! PROOFS. The completion of a command (O26): what it writes and what it leaves as it was. -/

namespace Sys2Proof.Machine

open Sys2Proof

/-! ### Inputs -/

/-- An octet outside a buffer lies below its base or past its end (R62). -/
theorem Buffer.holds_eq_false_iff (b : Buffer) (a : Nat) : b.holds a = false ↔ a < b.base ∨ b.base + b.size ≤ a := by
  rw [Buffer.holds, Bool.and_eq_false_iff, decide_eq_false_iff_not, decide_eq_false_iff_not, Nat.not_le, Nat.not_lt]

theorem SameInputs.trans {s t u : State} (h : SameInputs s t) (h' : SameInputs t u) : SameInputs s u where
  passcode := h'.passcode.trans h.passcode
  iterations := h'.iterations.trans h.iterations
  saltLen := h'.saltLen.trans h.saltLen
  pwdLen := h'.pwdLen.trans h.pwdLen
  dkLen := h'.dkLen.trans h.dkLen
  discriminator := h'.discriminator.trans h.discriminator
  vid := h'.vid.trans h.vid
  pid := h'.pid.trans h.pid
  digitsLen := h'.digitsLen.trans h.digitsLen
  octets a hout hb64 := (h'.octets a hout hb64).trans (h.octets a hout hb64)

/-- The world around the block holds no input of a command. -/
theorem SameInputs.withEnv {s t : State} (h : SameInputs s t) (env : World) : SameInputs s { t with env := env } :=
  h.trans (t.sameInputs_withHostSide t.wbusy t.irqEn env)

/-- An accepted issue zeroes octets of the output buffers only (R111). -/
theorem State.sameInputs_start (s : State) (v : Word) : SameInputs s (s.start v) where
  passcode := rfl
  iterations := rfl
  saltLen := rfl
  pwdLen := rfl
  dkLen := rfl
  discriminator := rfl
  vid := rfl
  pid := rfl
  digitsLen := rfl
  octets a hout hb64 := by rw [s.start_read, if_neg (by simp [hout, hb64])]

/-- A successful completion whose results fit the output buffers writes octets of these only (R114). -/
theorem State.sameInputs_completeOk (s : State) {r : Results} {i : Instr} (hfit : r.Fits i) :
    SameInputs s (s.completeOk r) where
  passcode := rfl
  iterations := rfl
  saltLen := rfl
  pwdLen := rfl
  dkLen := rfl
  discriminator := rfl
  vid := rfl
  pid := rfl
  digitsLen := rfl
  octets a hout hb64 := by
    obtain ⟨hlen, hsize, hb64Length, _⟩ := hfit
    rw [Buffer.holds_eq_false_iff] at hout hb64
    rw [s.completeOk_read r a (hlen.trans hsize), if_neg (by omega), if_neg (by omega)]

/-- An error completion writes no input (R115). -/
theorem State.sameInputs_completeError (s : State) (e : EngineError) : SameInputs s (s.completeError e) :=
  ⟨rfl, rfl, rfl, rfl, rfl, rfl, rfl, rfl, rfl, fun _ _ _ => rfl⟩

/-! ### The engine's step as a completion -/

/-- Where the engine's step answers a next state, that state is a completion (R113, R119). -/
theorem engineStep_eq_complete {s t : State} (h : engineStep s = .next t) : ∃ o, t = s.complete o := by
  rcases engineStep_cases s with ⟨_, hs⟩ | ⟨_, i, _, _, hs⟩ | ⟨_, _, _, _, hs⟩ <;> rw [hs] at h
  · cases h
  · rw [exec_eq_complete] at h
    cases h
    exact ⟨commandOutcome i s, rfl⟩
  · cases h
    exact ⟨.error .illegalCmd, rfl⟩

@[simp] theorem State.complete_phase (s : State) (o : Except EngineError Results) : (s.complete o).phase = .idle := by
  cases o <;> rfl

@[simp] theorem State.complete_env (s : State) (o : Except EngineError Results) : (s.complete o).env = s.env := by
  cases o <;> rfl

/-- Settles O26: a command ends in one of the two completions (`exec_cases`), and each leaves what is listed. -/
theorem everyCommandCompletes : Obligations.EveryCommandCompletes := by
  intro i s
  rcases exec_cases i s with ⟨r, hfit, hexec⟩ | ⟨e, hlegal, hexec⟩
  · exact ⟨s.completeOk r, hexec, rfl, rfl, rfl, s.sameInputs_completeOk hfit, rfl, rfl, rfl, rfl, .inl ⟨rfl, rfl⟩⟩
  · exact ⟨s.completeError e, hexec, rfl, rfl, rfl, s.sameInputs_completeError e, rfl, rfl, rfl, rfl,
      .inr ⟨e, hlegal, s.completeError_eq e⟩⟩

end Sys2Proof.Machine
end

section
/-! PROOFS. A write to CMD and the completion it leads to: the accepted issue, the dropped one, illegal words and NOP (O4, O5,
O6, O29). -/

namespace Sys2Proof.Machine

open Sys2Proof

/-! ### The write -/

/-- An accepted issue (R110, R111). -/
theorem State.serve_write_cmd_of_idle {s : State} (hidle : s.phase = .idle) (v : Word) :
    s.serve (.write 0x008#12 .bits32 v) = (s.start v).answered .okay 0#32 := by
  refine (s.serve_write_register .cmd v).trans ?_
  rw [writeRegister, writeCmd, isBusy, hidle]
  rfl

/-- A dropped issue (R112). -/
theorem State.serve_write_cmd_of_busy {s : State} (hbusy : s.phase = .busy) (v : Word) :
    s.serve (.write 0x008#12 .bits32 v) = { s.answered .okay 0#32 with wbusy := true } := by
  refine (s.serve_write_register .cmd v).trans ?_
  rw [writeRegister, writeCmd, isBusy, hbusy]
  rfl

/-! ### Turns of the engine -/

theorem takeTurn_engine_of_busy {s : State} (hbusy : s.phase = .busy) : takeTurn .engine s = engineStep s :=
  if_pos (beq_iff_eq.mpr hbusy)

/-- The engine has no step while IDLE (R21, log 26). -/
theorem takeTurn_engine_of_idle {s : State} (hidle : s.phase = .idle) : takeTurn .engine s = .next s := by
  rw [takeTurn, State.isBusy, hidle]
  rfl

/-- Every transaction but a CMD write leaves an IDLE block IDLE (R110). -/
theorem State.serve_idle_of_no_issue {s : State} {a : Transaction} (hidle : s.phase = .idle)
    (hissue : ∀ v : Word, a ≠ .write 0x008#12 .bits32 v) : (s.serve a).phase = .idle := by
  rcases s.serve_cases a with ⟨_, _, hs, _⟩ | ⟨hs, _⟩ | ⟨v, _, ha, _⟩ | ⟨_, hs, _⟩ | ⟨_, hs, _⟩ | ⟨_, hs, _⟩ |
    ⟨r, v, _, hs, _⟩ | ⟨_, _, _, _, _, _, hs, _⟩
  · rw [hs]; exact hidle
  · rw [hs]; rfl
  · exact absurd ha (hissue v)
  · rw [hs]; exact hidle
  · rw [hs]; exact hidle
  · rw [hs]; exact hidle
  · obtain ⟨hphase, _⟩ := s.storeInput_frame r v
    rw [hs]; exact hphase.trans hidle
  · rw [hs]; exact hidle

/-- "There is no other way to start a command" (R110): neither the engine's turn nor a reset is one either. -/
theorem takeTurn_busy_only_by_cmd_write {s t : State} {turn : Turn} (hidle : s.phase = .idle)
    (hturn : takeTurn turn s = .next t) (hbusy : t.phase = .busy) :
    ∃ v : Word, turn = .host (.write 0x008#12 .bits32 v) := by
  have not_idle : t.phase ≠ .idle := by simp [hbusy]
  cases turn with
  | host a =>
    cases hturn
    by_contra hissue
    exact not_idle (State.serve_idle_of_no_issue hidle fun v ha => hissue ⟨v, by rw [ha]⟩)
  | engine =>
    rw [takeTurn_engine_of_idle hidle] at hturn
    cases hturn
    exact absurd hidle not_idle
  | rst =>
    cases hturn
    exact absurd rfl not_idle

/-- Settles O4: the CMD write is `State.start`, and no other turn takes an IDLE block to BUSY. -/
theorem acceptedIssueStartsTheCommand : Obligations.AcceptedIssueStartsTheCommand := by
  refine ⟨fun s v hidle => ⟨(s.start v).mem, State.serve_write_cmd_of_idle hidle v, ?out, ?b64, ?others⟩,
    fun s t turn hidle hturn hbusy => takeTurn_busy_only_by_cmd_write hidle hturn hbusy⟩
  case out =>
    intro a hlow hhigh
    obtain ⟨k, rfl⟩ := Nat.exists_eq_add_of_le hlow
    exact (s.start_outputsZero v).out k (Nat.lt_of_add_lt_add_left hhigh)
  case b64 =>
    intro a hlow hhigh
    obtain ⟨k, rfl⟩ := Nat.exists_eq_add_of_le hlow
    exact (s.start_outputsZero v).b64 k (Nat.lt_of_add_lt_add_left hhigh)
  case others =>
    intro a ha
    refine (s.sameInputs_start v).octets a ?_ ?_ <;> rw [Buffer.holds_eq_false_iff, Buffer.base, Buffer.size] <;> omega

/-- Settles O5: the write is the dropped issue. -/
theorem issueWhileBusyIsDropped : Obligations.IssueWhileBusyIsDropped :=
  fun _ v hbusy => State.serve_write_cmd_of_busy hbusy v

/-! ### The completion -/

/-- A word that is not legal does not decode (R93). -/
theorem decode_eq_error_of_illegal {w : Word} (h : legalWord w = false) : ∃ e, decode w = .error e := by
  cases hd : decode w with
  | error e => exact ⟨e, rfl⟩
  | ok i => exact nomatch h.symm.trans ((decode_isOk_iff w).mp ⟨i, hd⟩)

/-- STATUS after a completion, with WBUSY clear: DONE is set, and ERR and ERRCODE tell how the command ended
(R27 to R32, R55). -/
theorem State.readRegister_status_of_completed (s : State) (err : Bool) (code : Octet) (hidle : s.phase = .idle)
    (hdone : s.done = true) (hwbusy : s.wbusy = false) (herr : s.err = err) (hcode : s.errcode = code) :
    s.readRegister .status = 0#16 ++ code ++ 0#4 ++ 0#1 ++ BitVec.ofBool err ++ 1#1 ++ 0#1 := by
  rw [readRegister, statusWord, isBusy, hidle, hdone, hwbusy, herr, hcode]
  rfl

/-- Settles O6: the issue is accepted or dropped as of any word, and what is latched does not decode. -/
theorem illegalWordsCompleteWithIllegalCmd : Obligations.IllegalWordsCompleteWithIllegalCmd := by
  intro s v hv
  have hillegal : legalWord v = false := by
    rw [legalWord, Bool.and_eq_false_iff, beq_eq_false_iff_ne, decide_eq_false_iff_not, Nat.not_lt]
    exact hv
  obtain ⟨e, hdecode⟩ := decode_eq_error_of_illegal hillegal
  refine ⟨fun hidle => ⟨(s.start v).answered .okay 0#32, State.serve_write_cmd_of_idle hidle v, rfl, rfl, rfl,
    engineStep_of_decode_error rfl hdecode, (s.start_outputsZero v).congr rfl rfl rfl, rfl, fun hwbusy => ?status⟩,
    fun hbusy => State.serve_write_cmd_of_busy hbusy v⟩
  case status =>
    exact (State.readRegister_status_of_completed (((s.start v).answered .okay 0#32).afterError 0x01#8) true 0x01#8
      rfl rfl hwbusy rfl rfl).trans (by decide)

/-- Settles O29: NOP completes with the outputs that the issue zeroed. -/
theorem nopClearsTheOutputs : Obligations.NopClearsTheOutputs := by
  refine ⟨fun s => rfl, fun s hidle => ?issued, fun s hbusy => State.serve_write_cmd_of_busy hbusy _⟩
  case issued =>
    rw [State.serve_write_cmd_of_idle hidle]
    refine ⟨((s.start 0#32).answered .okay 0#32).completeOk nopResults,
      engineStep_of_decode_ok rfl (decode_encode .nop), (s.start_outputsZero 0#32).congr rfl rfl rfl,
      ((s.sameInputs_start 0#32).withEnv _).trans (State.sameInputs_completeOk _ nopResults_fits), fun hwbusy => ?_⟩
    exact (State.readRegister_status_of_completed (((s.start 0#32).answered .okay 0#32).completeOk nopResults)
      false 0x00#8 rfl rfl hwbusy rfl rfl).trans (by decide)

end Sys2Proof.Machine
end

section
/-! PROOFS. The step and the run: a step runs the latched command, none stops, and a run ends IDLE (O19, O20, O23, O24, O25). -/

namespace Sys2Proof.Machine

open Sys2Proof

/-! ### Which step it is -/

/-- With no turn left a BUSY engine completes (log 2). -/
theorem step_of_agenda_nil_of_busy {s : State} (hagenda : s.env.agenda = []) (hbusy : s.phase = .busy) :
    step s = engineStep s := by
  rw [step, hagenda]
  exact takeTurn_engine_of_busy hbusy

/-- With no turn left an IDLE block waits (log 3). -/
theorem step_of_agenda_nil_of_idle {s : State} (hagenda : s.env.agenda = []) (hidle : s.phase = .idle) :
    step s = .next s := by
  rw [step, hagenda]
  exact takeTurn_engine_of_idle hidle

/-- With turns to come, the first is taken (log 1). -/
theorem step_of_agenda_cons {s : State} {turn : Turn} {rest : List Turn} (hagenda : s.env.agenda = turn :: rest) :
    step s = takeTurn turn { s with env := { s.env with agenda := rest } } := by
  rw [step, hagenda]

/-- Settles O19: either way the step is the engine's, and that runs the latched command. -/
theorem stepRunsTheDecodedCommand : Obligations.StepRunsTheDecodedCommand := by
  intro s w i hbusy hfetch hdecode _
  constructor
  · intro hagenda
    rw [step_of_agenda_nil_of_busy hagenda hbusy]
    exact engineStep_of_decode_ok hfetch hdecode
  · intro rest hagenda
    rw [step_of_agenda_cons hagenda, takeTurn_engine_of_busy (by exact hbusy),
      engineStep_of_decode_ok (by exact hfetch) hdecode]

/-- With no turn to come, a placed word is an accepted issue (log 9). -/
theorem State.withFetchWord_of_agenda_nil {s : State} (hagenda : s.env.agenda = []) (nbits w : Nat) :
    s.withFetchWord nbits w = s.start (BitVec.ofNat 32 (w % 2 ^ nbits)) := by
  have henv : { s.env with agenda := [] } = s.env := by rw [← hagenda]
  simp only [withFetchWord, start_env, hagenda, List.isEmpty_nil, if_true, henv]
  rfl

/-- With turns to come, a placed word is an accepted issue with the engine's turn before them (log 9). -/
theorem State.withFetchWord_of_agenda_cons {s : State} {turn : Turn} {rest : List Turn}
    (hagenda : s.env.agenda = turn :: rest) (nbits w : Nat) :
    s.withFetchWord nbits w =
      { s.start (BitVec.ofNat 32 (w % 2 ^ nbits)) with
        env := { s.env with agenda := .engine :: s.env.agenda } } := by
  simp only [withFetchWord, start_env, hagenda, List.isEmpty_cons, Bool.false_eq_true, if_false]

/-- The step after a word was placed is the completion of its accepted issue (logs 9 and 2). -/
theorem step_withFetchWord (s : State) (nbits w : Nat) :
    step (s.withFetchWord nbits w) = engineStep (s.start (BitVec.ofNat 32 (w % 2 ^ nbits))) := by
  cases hagenda : s.env.agenda with
  | nil =>
    rw [State.withFetchWord_of_agenda_nil hagenda]
    exact step_of_agenda_nil_of_busy hagenda rfl
  | cons turn rest =>
    rw [State.withFetchWord_of_agenda_cons hagenda]
    exact (step_placedTurn (s.start _) .engine).trans (takeTurn_engine_of_busy rfl)

/-- Settles O20: the next step completes the issue of the placed word, and that word decodes. -/
theorem placedWordRunsNext : Obligations.PlacedWordRunsNext := by
  intro s w i hword
  rw [decodeTableWord_32] at hword
  have hbits : BitVec.ofNat 32 (w % 2 ^ 32) = BitVec.ofNat 32 w := BitVec.eq_of_toNat_eq (by simp)
  have hdecode : decode (BitVec.ofNat 32 w) = .ok i := by
    cases hd : decode (BitVec.ofNat 32 w) <;> rw [hd] at hword <;> cases hword
    rfl
  refine ⟨_, ?_, exec_eq_complete i (s.start (BitVec.ofNat 32 w))⟩
  rw [step_withFetchWord, hbits, engineStep_of_decode_ok rfl hdecode, exec_eq_complete]

/-! ### No step stops -/

/-- While BUSY a command is latched, so the engine completes it (R113). -/
theorem State.Inv.engineStep_next {s : State} (h : s.Inv) (hbusy : s.phase = .busy) :
    ∃ t, Machine.engineStep s = .next t := by
  obtain ⟨w, hlatch⟩ := Option.isSome_iff_exists.mp (h.latchedWhileBusy.mp hbusy)
  exact engineStep_next_of_latch hlatch

theorem State.Inv.takeTurn_next {s : State} (h : s.Inv) (turn : Turn) : ∃ t, Machine.takeTurn turn s = .next t := by
  cases turn with
  | host a => exact ⟨s.serve a, rfl⟩
  | rst => exact ⟨s.resetBlock, rfl⟩
  | engine =>
    cases hphase : s.phase with
    | idle => exact ⟨s, takeTurn_engine_of_idle hphase⟩
    | busy => rw [takeTurn_engine_of_busy hphase]; exact h.engineStep_next hphase

/-- Settles O23: only the engine's step can stop, and under the invariant it has a command to complete. -/
theorem stepNeverStops : Obligations.StepNeverStops := by
  intro s h
  rcases step_cases s with ⟨_, _, hs⟩ | ⟨_, hbusy, hs⟩ | ⟨turn, rest, _, hs⟩ <;> rw [hs]
  · exact ⟨s, rfl⟩
  · exact h.engineStep_next hbusy
  · exact (h.withEnv _).takeTurn_next turn

/-! ### A run ends -/

/-- No transaction adds, drops or reorders a turn (log 1). -/
theorem State.serve_agenda (s : State) (a : Transaction) : (s.serve a).env.agenda = s.env.agenda := by
  rcases s.serve_cases a with ⟨_, _, hs, _⟩ | ⟨hs, _⟩ | ⟨_, _, _, hs, _⟩ | ⟨_, hs, _⟩ | ⟨_, hs, _⟩ | ⟨_, hs, _⟩ |
    ⟨r, v, _, hs, _⟩ | ⟨_, _, _, _, _, _, hs, _⟩
  · rw [hs]
  · rw [hs, respond_env, resetBlock_env]
  · rw [hs, respond_env, start_env]
  · rw [hs, respond_env, acknowledge_env]
  · rw [hs, respond_env, enableIrq_env]
  · rw [hs, respond_env, noteDropped_env]
  · obtain ⟨_, _, _, _, _, _, _, _, _, _, _, henv⟩ := s.storeInput_frame r v
    rw [hs, respond_env, henv]
  · rw [hs, respond_env, setBufWord_env]

/-- Taking a turn leaves the turns after it as they are (log 1). -/
theorem takeTurn_agenda {s t : State} {turn : Turn} (hturn : takeTurn turn s = .next t) :
    t.env.agenda = s.env.agenda := by
  cases turn with
  | host a => cases hturn; exact s.serve_agenda a
  | rst => cases hturn; rfl
  | engine =>
    cases hphase : s.phase with
    | idle => rw [takeTurn_engine_of_idle hphase] at hturn; cases hturn; rfl
    | busy =>
      rw [takeTurn_engine_of_busy hphase] at hturn
      obtain ⟨o, rfl⟩ := engineStep_eq_complete hturn
      rw [s.complete_env]

theorem State.ended_iff (s : State) : s.ended = true ↔ s.env.agenda = [] ∧ s.phase = .idle := by
  rw [ended, Bool.and_eq_true, List.isEmpty_iff, isBusy]
  cases s.phase <;> simp

/-- With no turn left one step ends the run: the block waits, or the command in flight completes (logs 2 and 3). -/
theorem step_ended_of_agenda_nil {s t : State} (hagenda : s.env.agenda = []) (hstep : step s = .next t) :
    t.ended = true := by
  rw [State.ended_iff]
  cases hphase : s.phase with
  | idle =>
    rw [step_of_agenda_nil_of_idle hagenda hphase] at hstep
    cases hstep
    exact ⟨hagenda, hphase⟩
  | busy =>
    rw [step_of_agenda_nil_of_busy hagenda hphase] at hstep
    obtain ⟨o, rfl⟩ := engineStep_eq_complete hstep
    rw [s.complete_env, s.complete_phase]
    exact ⟨hagenda, rfl⟩

theorem core_run_succ {s t : State} (hstep : step s = .next t) (n : Nat) : core.run (n + 1) s = core.run n t := by
  have hcore : core.step s = .next t := hstep
  simp only [Host.Core.run, hcore]

/-- Settles O24, by induction on the agenda: each step takes one turn off it, and with none left one step ends the run. -/
theorem everyRunEndsIdle : Obligations.EveryRunEndsIdle := by
  intro s h
  induction hagenda : s.env.agenda generalizing s with
  | nil =>
    obtain ⟨t, hstep⟩ := stepNeverStops s h
    exact ⟨t, core_run_succ hstep 0, step_ended_of_agenda_nil hagenda hstep⟩
  | cons turn rest ih =>
    obtain ⟨u, hstep⟩ := stepNeverStops s h
    have hrest : u.env.agenda = rest := takeTurn_agenda ((step_of_agenda_cons hagenda).symm.trans hstep)
    obtain ⟨t, hrun, hended⟩ := ih u (everyStepKeepsTheInvariant s u h hstep) hrest
    exact ⟨t, (core_run_succ hstep _).trans hrun, hended⟩

/-! ### From the issue to the completion -/

/-- A CMD write that is next while IDLE is an accepted issue (R110, R111, log 1). -/
theorem step_of_cmd_write_next {s : State} {v : Word} {rest : List Turn} (hidle : s.phase = .idle)
    (hagenda : s.env.agenda = .host (.write 0x008#12 .bits32 v) :: rest) :
    step s = .next { s.start v with env := ⟨rest, some ⟨.okay, 0#32⟩, s.env.draws⟩ } := by
  rw [step_of_agenda_cons hagenda, takeTurn, State.serve_write_cmd_of_idle (by exact hidle)]
  rfl

/-- Settles O25: the first step is the accepted issue, and the second, with no turn left, is the command's completion. -/
theorem issueThenCompletionRunsTheCommand : Obligations.IssueThenCompletionRunsTheCommand := by
  intro s i hidle hagenda
  refine ⟨_, _, step_of_cmd_write_next hidle hagenda, rfl, (s.start_outputsZero (encode i)).congr rfl rfl rfl,
    (s.sameInputs_start (encode i)).withEnv _, exec_eq_complete i _, ?completion⟩
  case completion =>
    rw [step_of_agenda_nil_of_busy rfl rfl, engineStep_of_decode_ok rfl (decode_encode i), exec_eq_complete]

end Sys2Proof.Machine
end

section
/-! PROOFS. The PBKDF2 unit: the padding of SHA-256, the key block of HMAC, the blocks of a derived key, and the command PBKDF2
(O30, O31, O32, O33). -/

namespace Sys2Proof.Machine

open Sys2Proof

/-! ### The padding of SHA-256 -/

/-- 0x80, the zero octets and the 8 octets of the bit length fill the last block (R143). -/
theorem shaPad_length_mod (m : List Octet) : (shaPad m).length % 64 = 0 := by
  simp only [shaPad, List.length_append, List.length_singleton, List.length_replicate, octetsBE_length]
  omega

/-- The last 8 octets of a padded message (R143). -/
theorem shaPad_drop (m : List Octet) : (shaPad m).drop ((shaPad m).length - 8) = octetsBE 8 (8 * m.length) := by
  rw [shaPad]
  apply List.drop_left'
  rw [List.length_append (bs := octetsBE 8 _), octetsBE_length, Nat.add_sub_cancel]

/-- Settles O32: the number of zero octets is the one R143 gives, and below 2^61 octets the bit length fits its 8 octets. -/
theorem shaPaddingFillsWholeBlocks : Obligations.ShaPaddingFillsWholeBlocks := by
  intro m hm
  have hfits : 8 * m.length < 256 ^ 8 := by omega
  refine ⟨(119 - m.length % 64) % 64, rfl, Nat.mod_lt _ (by decide), shaPad_length_mod m, ?_, sha256_length m⟩
  rw [shaPad_drop, intBE_octetsBE hfits]

/-! ### The key block of HMAC -/

theorem hmacKeyBlock_of_le {key : List Octet} (h : key.length ≤ 64) :
    hmacKeyBlock key = key ++ List.replicate (64 - key.length) 0x00#8 := by
  rw [hmacKeyBlock, if_neg (Nat.not_lt.mpr h)]

theorem hmacKeyBlock_of_lt {key : List Octet} (h : 64 < key.length) :
    hmacKeyBlock key = sha256 key ++ List.replicate 32 0x00#8 := by
  rw [hmacKeyBlock, if_pos h, sha256_length]

@[simp] theorem hmacKeyBlock_length (key : List Octet) : (hmacKeyBlock key).length = 64 := by
  rcases Nat.lt_or_ge 64 key.length with h | h
  · simp [hmacKeyBlock_of_lt h]
  · rw [hmacKeyBlock_of_le h, List.length_append, List.length_replicate]
    omega

/-- Zero octets at the end of a short key are octets of its padding (R145). -/
theorem hmacKeyBlock_append_zeros {key : List Octet} {z : Nat} (h : key.length + z ≤ 64) :
    hmacKeyBlock (key ++ List.replicate z 0x00#8) = hmacKeyBlock key := by
  have hlen : (key ++ List.replicate z 0x00#8).length = key.length + z := by simp
  have hzeros : z + (64 - (key.length + z)) = 64 - key.length := by omega
  rw [hmacKeyBlock_of_le (hlen ▸ h), hmacKeyBlock_of_le (by omega), hlen, List.append_assoc,
    List.replicate_append_replicate, hzeros]

/-- Only the key block of a key enters its HMAC (R145). -/
theorem hmac_congr_keyBlock {key key' : List Octet} (h : hmacKeyBlock key' = hmacKeyBlock key) (m : List Octet) :
    hmac key' m = hmac key m := by
  rw [hmac, h, hmac]

theorem xorOctets_replicate (s : List Octet) (o : Octet) :
    xorOctets s (List.replicate s.length o) = s.map (· ^^^ o) := by
  induction s with
  | nil => rfl
  | cons x s ih => exact congrArg ((x ^^^ o) :: ·) ih

theorem xorOctets_hmacKeyBlock (key : List Octet) (o : Octet) :
    xorOctets (hmacKeyBlock key) (List.replicate 64 o) = (hmacKeyBlock key).map (· ^^^ o) := by
  rw [← hmacKeyBlock_length key, xorOctets_replicate]

/-- Settles O33: K0 is the key block, and zero octets at the end of a short key leave it the same. -/
theorem hmacKeysArePaddedWithZeros : Obligations.HmacKeysArePaddedWithZeros := by
  refine ⟨fun key m => ⟨hmacKeyBlock key, hmacKeyBlock_length key, hmacKeyBlock_of_le, hmacKeyBlock_of_lt, ?_⟩,
    fun key m z h => hmac_congr_keyBlock (hmacKeyBlock_append_zeros h) m⟩
  rw [hmac, xorOctets_hmacKeyBlock, xorOctets_hmacKeyBlock]

/-! ### The blocks of a derived key -/

/-- Octet `k` of `F(1) || F(2) || ..` is octet `k mod 32` of block `k div 32 + 1`; by induction on the last block (R147). -/
theorem pbkdf2Blocks_getElem? (p s : List Octet) (c : Nat) {n k : Nat} (hk : k < 32 * n) :
    ((List.range n).flatMap fun j => pbkdf2Block p s c (j + 1))[k]? = (pbkdf2Block p s c (k / 32 + 1))[k % 32]? := by
  induction n with
  | zero => exact absurd hk (Nat.not_lt_zero k)
  | succ n ih =>
    have hlen := pbkdf2Blocks_length p s c n
    rw [List.range_succ, List.flatMap_append, List.flatMap_singleton]
    rcases Nat.lt_or_ge k (32 * n) with hlow | hlast
    · rw [List.getElem?_append_left (hlen ▸ hlow), ih hlow]
    · have hdiv : k / 32 = n := by omega
      have hmod : k % 32 = k - 32 * n := by omega
      rw [List.getElem?_append_right (hlen ▸ hlast), hlen, hdiv, hmod]

/-- Enough blocks are made for the length asked for (R147). -/
@[simp] theorem pbkdf2_length (p s : List Octet) (c n : Nat) : (pbkdf2 p s c n).length = n := by
  rw [pbkdf2, List.length_take, pbkdf2Blocks_length]
  omega

theorem pbkdf2_getElem? (p s : List Octet) (c : Nat) {n k : Nat} (hk : k < n) :
    (pbkdf2 p s c n)[k]? = (pbkdf2Block p s c (k / 32 + 1))[k % 32]? := by
  rw [pbkdf2, List.getElem?_take_of_lt hk, pbkdf2Blocks_getElem? p s c (by omega)]

/-- An octet of a derived key does not depend on the length asked for, so the shorter key starts the longer one (R147). -/
theorem pbkdf2_eq_take (p s : List Octet) (c : Nat) {n m : Nat} (h : n ≤ m) : pbkdf2 p s c n = (pbkdf2 p s c m).take n := by
  refine List.ext_getElem? fun k => ?_
  rcases Nat.lt_or_ge k n with hk | hk
  · rw [List.getElem?_take_of_lt hk, pbkdf2_getElem? p s c hk, pbkdf2_getElem? p s c (hk.trans_le h)]
  · rw [List.getElem?_eq_none (by simpa using hk), List.getElem?_eq_none (by simp [hk])]

/-- `F` with one iteration more: the value U it xors in is HMAC applied `c` times to the first one (R146). -/
theorem pbkdf2Block_succ (p s : List Octet) {c : Nat} (i : Nat) (hc : 1 ≤ c) :
    pbkdf2Block p s (c + 1) i =
      xorOctets (pbkdf2Block p s c i) ((hmac p)^[c] (hmac p (s ++ octetsBE 4 i))) := by
  obtain ⟨d, rfl⟩ := Nat.exists_eq_add_of_le' hc
  exact pbkdf2Iterate_succ d p _ _

/-- Settles O31: R146 by the recursion of `pbkdf2Iterate`, R147 by the octets of the blocks in order. -/
theorem derivedKeyHasTheLengthAskedFor : Obligations.DerivedKeyHasTheLengthAskedFor :=
  ⟨fun _ _ _ => rfl, fun p s _ i hc => pbkdf2Block_succ p s i hc, fun p s c n =>
    ⟨pbkdf2_length p s c n, fun _ hk => pbkdf2_getElem? p s c hk, pbkdf2Block_length p s c,
      fun _ h => pbkdf2_eq_take p s c h⟩⟩

/-! ### The command -/

/-- What PBKDF2 writes on success (R148). -/
def pbkdf2Results (s : State) : Results :=
  ⟨pbkdf2 s.pwdOctets s.saltOctets s.iterations.toNat s.dkLen.toNat, [], 0, s.dkLen.toNat⟩

/-- With legal lengths and an iteration count, PBKDF2 succeeds (R148). -/
theorem pbkdf2Outcome_of_legal {s : State} (hpwd : s.pwdLen.toNat ≤ 64) (hsalt : s.saltLen.toNat ≤ 64)
    (hdk : s.dkLen ≠ 0#32) (hdkMax : s.dkLen.toNat ≤ 256) (hiterations : s.iterations ≠ 0#32) :
    pbkdf2Outcome s = .ok (pbkdf2Results s) := by
  have hlengths : ¬(s.pwdLen.toNat > pwdMax ∨ s.saltLen.toNat > saltMax ∨ s.dkLen = 0#32 ∨ s.dkLen.toNat > dkMax) := by
    rintro (h | h | h | h)
    · exact Nat.not_lt.mpr hpwd h
    · exact Nat.not_lt.mpr hsalt h
    · exact hdk h
    · exact Nat.not_lt.mpr hdkMax h
  rw [pbkdf2Outcome, if_neg hlengths, if_neg hiterations, pbkdf2Results]

/-- Settles O30: the outcome is the derived key, as long as RESULT_LEN says, and its completion writes it to OUT_BUF. -/
theorem pbkdfWritesTheDerivedKey : Obligations.PbkdfWritesTheDerivedKey := by
  intro s hpwd hsalt hdk hdkMax hiterations
  have hlen : (pbkdf2Results s).out.length = s.dkLen.toNat := pbkdf2_length _ _ _ _
  have hfit : (pbkdf2Results s).out.length ≤ Buffer.out.size := hlen.trans_le hdkMax
  refine ⟨(s.completeOk (pbkdf2Results s)).mem, ?exec, ?key, fun a ha => ?others⟩
  case exec =>
    rw [exec_pbkdf2, pbkdf2Outcome_of_legal hpwd hsalt hdk hdkMax hiterations]
    exact congrArg Host.Outcome.next (s.completeOk_afterOk _ rfl (by simp [pbkdf2Results]))
  case key =>
    obtain ⟨hwritten, _⟩ := s.completeOk_outputs (pbkdf2Results s) hfit
    rw [hlen] at hwritten
    exact hwritten
  case others =>
    have hout : ¬(Buffer.out.base ≤ a ∧ a < Buffer.out.base + (pbkdf2Results s).out.length) := by
      rw [hlen, Buffer.base]
      omega
    have hb64 : ¬(Buffer.b64.base ≤ a ∧ a < Buffer.b64.base + (pbkdf2Results s).b64.length) := fun h =>
      Nat.not_lt.mpr h.1 h.2
    rw [s.completeOk_read _ a hfit, if_neg hout, if_neg hb64]

end Sys2Proof.Machine
end

section
/-! PROOFS. The field of p elements and the group of the curve (O36, O37, O38, O39): what `PointRep` carries over from the
group of points of a Weierstrass curve to the block's arithmetic. -/

namespace Sys2Proof.Machine

open Sys2Proof

/-! ### The field -/

theorem fieldP_eq : fieldP = 2 ^ 256 - 2 ^ 224 + 2 ^ 192 + 2 ^ 96 - 1 := by decide

/-- The inverse in the field of p elements, back in the integers (R170). -/
theorem mul_fieldInv_mod {z : Nat} (hz : z % fieldP ≠ 0) : z * fieldInv z % fieldP = 1 := by
  have : Fact (Nat.Prime fieldP) := ⟨prime_fieldP⟩
  have hfield : (z : FieldK) ≠ 0 := fun h => hz ((cast_eq_zero_fieldP z).mp h)
  have hcast : ((z * fieldInv z % fieldP : Nat) : FieldK) = (1 : Nat) := by
    rw [cast_mod_fieldP, Nat.cast_mul, cast_fieldInv, mul_inv_cancel₀ hfield, Nat.cast_one]
  exact (cast_inj_fieldP (Nat.mod_lt _ fieldP_pos) prime_fieldP.one_lt).mp hcast

/-- Settles O36: square and multiply gives the power, and by Fermat's theorem the power is the inverse of the field. -/
theorem fieldInverseInverts : Obligations.FieldInverseInverts :=
  ⟨prime_fieldP, fieldP_eq, fun z => ⟨fieldInv_eq z, mul_fieldInv_mod⟩⟩

/-! ### Addition -/

@[simp] theorem CurvePoint.add_infinity (q : CurvePoint) : q.add .infinity = q := by cases q <;> rfl

@[simp] theorem CurvePoint.infinity_add (q : CurvePoint) : CurvePoint.infinity.add q = q := rfl

/-- Settles O37: each law is that of the group, as both sides represent the same element and an element has one representation. -/
theorem curveAdditionIsAGroupLaw : Obligations.CurveAdditionIsAGroupLaw := by
  have : Fact (Nat.Prime fieldP) := ⟨prime_fieldP⟩
  intro q r t hq hr ht
  obtain ⟨u, hu⟩ := exists_pointRep hq
  obtain ⟨v, hv⟩ := exists_pointRep hr
  obtain ⟨w, hw⟩ := exists_pointRep ht
  refine ⟨(hu.add hv).valid, hu.neg.valid, q.add_infinity, q.infinity_add, ?inverse, ?comm, ?assoc⟩
  case inverse => exact (hu.add hu.neg).infinity_iff.mpr (add_neg_cancel u)
  case comm => exact (hu.add hv).unique (add_comm u v ▸ hv.add hu)
  case assoc => exact ((hu.add hv).add hw).unique (add_assoc u v w ▸ hu.add (hv.add hw))

/-! ### Multiples -/

/-- Double-and-add meets the recursion of R176 at every valid point. -/
theorem scalarMul_succ {q : CurvePoint} (hq : q.valid = true) (k : Nat) : scalarMul (k + 1) q = (scalarMul k q).add q := by
  have : Fact (Nat.Prime fieldP) := ⟨prime_fieldP⟩
  obtain ⟨w, hw⟩ := exists_pointRep hq
  exact (hw.scalarMul (k + 1)).unique (succ_nsmul w k ▸ (hw.scalarMul k).add hw)

theorem scalarMul_zero (q : CurvePoint) : scalarMul 0 q = .infinity := rfl

/-- Settles O38: `(k+1)·P` and `Add(k·P, P)` represent the same element of the group. -/
theorem scalarMulHasTheDefinedValue : Obligations.ScalarMulHasTheDefinedValue := fun q hq =>
  ⟨scalarMul_zero q, scalarMul_succ hq⟩

/-- The block's multiplication is repeated addition: both meet the recursion of R176. -/
theorem scalarMul_eq_repeatedAdd {q : CurvePoint} (hq : q.valid = true) (k : Nat) : scalarMul k q = repeatedAdd k q := by
  induction k with
  | zero => rfl
  | succ k ih => rw [scalarMul_succ hq, ih, repeatedAdd]

theorem repeatedAdd_valid {q : CurvePoint} (hq : q.valid = true) (k : Nat) : (repeatedAdd k q).valid = true := by
  have : Fact (Nat.Prime fieldP) := ⟨prime_fieldP⟩
  obtain ⟨w, hw⟩ := exists_pointRep hq
  exact (hw.repeatedAdd k).valid

/-! ### The base point -/

/-- The group's copy of G is not zero and n times it is, so the prime n is its order (R173). -/
theorem PointRep.addOrderOf_eq_groupN [Fact (Nat.Prime fieldP)] {w : curveW.Point} (h : PointRep basePoint w) :
    addOrderOf w = groupN := by
  have : Fact (Nat.Prime groupN) := ⟨prime_groupN⟩
  exact addOrderOf_eq_prime h.groupN_nsmul (mt h.infinity_iff.mpr basePoint_ne_infinity)

theorem repeatedAdd_basePoint_mod (k : Nat) : repeatedAdd k basePoint = repeatedAdd (k % groupN) basePoint := by
  have : Fact (Nat.Prime fieldP) := ⟨prime_fieldP⟩
  obtain ⟨w, hw⟩ := exists_pointRep basePoint_valid
  exact (hw.repeatedAdd k).unique (nsmul_eq_mod_nsmul k hw.groupN_nsmul ▸ hw.repeatedAdd (k % groupN))

theorem repeatedAdd_basePoint_eq_infinity_iff (k : Nat) : repeatedAdd k basePoint = .infinity ↔ groupN ∣ k := by
  have : Fact (Nat.Prime fieldP) := ⟨prime_fieldP⟩
  obtain ⟨w, hw⟩ := exists_pointRep basePoint_valid
  rw [(hw.repeatedAdd k).infinity_iff, ← addOrderOf_dvd_iff_nsmul_eq_zero, hw.addOrderOf_eq_groupN]

/-- Settles O39: the order of the group's copy of G is n. -/
theorem basePointHasPrimeOrder : Obligations.BasePointHasPrimeOrder :=
  ⟨prime_groupN, basePoint_valid, fun k => ⟨repeatedAdd_basePoint_mod k, repeatedAdd_basePoint_eq_infinity_iff k⟩⟩

theorem onCurve_of_repeatedAdd_basePoint {k x y : Nat} (h : repeatedAdd k basePoint = .affine x y) : onCurve x y = true := by
  have hvalid := repeatedAdd_valid basePoint_valid k
  rwa [h] at hvalid

/-- Only O has no coordinates, and it is the multiples of n that give it (R173, R180). -/
theorem exists_affine_repeatedAdd_basePoint {k : Nat} (hk : k % groupN ≠ 0) :
    ∃ x y, repeatedAdd k basePoint = .affine x y := by
  cases hpoint : repeatedAdd k basePoint with
  | infinity => exact absurd ((repeatedAdd_basePoint_eq_infinity_iff k).mp hpoint) (mt Nat.mod_eq_zero_of_dvd hk)
  | affine x y => exact ⟨x, y, rfl⟩

end Sys2Proof.Machine
end

section
/-! PROOFS. The commands SCALAR_MUL_G and POINT_CHECK and the encodings they read and write (O40, O42, O43, O44). -/

namespace Sys2Proof.Machine

open Sys2Proof

/-! ### Scalars -/

theorem groupN_pos : 0 < groupN := prime_groupN.pos

theorem groupN_lt : groupN < 256 ^ 40 := by decide

/-- Settles O40: a value below n is the remainder of its own encoding in 40 octets. -/
theorem reduceNCoversTheScalars : Obligations.ReduceNCoversTheScalars := by
  refine ⟨fun s => ⟨rfl, Nat.mod_lt _ groupN_pos, fun hlen => ?bound⟩,
    fun w hw => ⟨octetsBE 40 w, octetsBE_length 40 w, ?value⟩⟩
  case bound => calc
    intBE s < 256 ^ s.length := intBE_lt s
    _ = 2 ^ 320 := by rw [hlen, show 256 = 2 ^ 8 from rfl, ← pow_mul]
  case value => rw [reduceN, intBE_octetsBE (hw.trans groupN_lt), Nat.mod_eq_of_lt hw]

/-! ### SCALAR_MUL_G -/

/-- A completion with no octets for B64_BUF leaves every octet but those it writes to OUT_BUF (R114). -/
theorem State.completeOk_read_outside (s : State) {r : Results} {a : Nat} (hout : r.out.length ≤ Buffer.out.size)
    (hb64 : r.b64 = []) (ha : a < Buffer.out.base ∨ Buffer.out.base + r.out.length ≤ a) :
    Memory.read (s.completeOk r).mem a = Memory.read s.mem a := by
  rw [s.completeOk_read r a hout, if_neg (by omega), hb64, List.length_nil, if_neg (by omega)]

/-- What SCALAR_MUL_G answers where the point is (X, Y) (R179, R181). -/
def scalarMulGResults (x y : Nat) : Results := ⟨[0x04#8] ++ octetsBE 32 x ++ octetsBE 32 y, [], 0, 65⟩

theorem scalarMulGResults_out_length (x y : Nat) : (scalarMulGResults x y).out.length = 65 := by
  simp [scalarMulGResults]

theorem scalarMulGOutcome_of_affine {s : State} {x y : Nat} (hk : s.scalarOperand % groupN ≠ 0)
    (hpoint : repeatedAdd (s.scalarOperand % groupN) basePoint = .affine x y) :
    scalarMulGOutcome s = .ok (scalarMulGResults x y) := by
  simp only [scalarMulGOutcome, if_neg hk, scalarMul_eq_repeatedAdd basePoint_valid, hpoint, encPoint, scalarMulGResults]

/-- Settles O42: the point is affine, and the completion writes its encoding to OUT_BUF. -/
theorem scalarMulWritesThePoint : Obligations.ScalarMulWritesThePoint := by
  intro s hk
  obtain ⟨x, y, hpoint⟩ := exists_affine_repeatedAdd_basePoint (Nat.mod_mod _ groupN ▸ hk)
  have hlen := scalarMulGResults_out_length x y
  have hfit : (scalarMulGResults x y).out.length ≤ Buffer.out.size := hlen.trans_le (by decide)
  refine ⟨x, y, (s.completeOk (scalarMulGResults x y)).mem, hpoint, ?exec, ?point, fun a ha => ?others⟩
  case exec =>
    rw [exec_scalarMulG, scalarMulGOutcome_of_affine hk hpoint]
    exact congrArg Host.Outcome.next (s.completeOk_afterOk _ rfl rfl)
  case point =>
    obtain ⟨hwritten, _⟩ := s.completeOk_outputs (scalarMulGResults x y) hfit
    rw [hlen, scalarMulGResults] at hwritten
    exact hwritten
  case others => exact s.completeOk_read_outside hfit rfl (hlen ▸ ha)

/-! ### POINT_CHECK -/

/-- POINT_CHECK writes no octet (R182). -/
theorem exec_pointCheck_eq_afterOk (s : State) :
    exec .pointCheck s = .next (s.afterOk s.mem (if pointOk s.pointOctets then 1#32 else 0#32) 0#32) := by
  have hresult : BitVec.ofNat 32 (pointCheckResults s).result = if pointOk s.pointOctets then 1#32 else 0#32 :=
    apply_ite (BitVec.ofNat 32) _ _ _
  rw [exec_pointCheck, s.completeOk_afterOk _ hresult rfl, State.completeOk_mem]
  rfl

/-- A slice of the octets read is read at its own place. -/
theorem Memory.take_drop_readOctets (m : Memory) (a : Nat) {n i k : Nat} (h : i + k ≤ n) :
    ((Memory.readOctets m a n).drop i).take k = Memory.readOctets m (a + i) k := by
  refine List.ext_getElem (by simp; omega) fun j _ _ => ?_
  simp [Memory.readOctets, Nat.add_assoc]

/-- `OnCurve` as the equation of R177, over the integers. -/
theorem onCurve_iff_int (x y : Nat) :
    onCurve x y = true ↔ x < fieldP ∧ y < fieldP ∧
      ((y : Int) ^ 2 - (x : Int) ^ 3 - (curveA : Int) * (x : Int) - (curveB : Int)) % (fieldP : Int) = 0 := by
  have hequation : y * y % fieldP = (x * x * x + curveA * x + curveB) % fieldP ↔
      ((y : Int) ^ 2 - (x : Int) ^ 3 - (curveA : Int) * (x : Int) - (curveB : Int)) % (fieldP : Int) = 0 := by
    rw [← Int.natCast_inj, Int.natCast_mod, Int.natCast_mod, Int.emod_eq_emod_iff_emod_sub_eq_zero]
    push_cast
    ring_nf
  rw [← hequation]
  simp [onCurve, and_assoc]

/-- What POINT_CHECK tests, on the octets of POINT_BUF where they lie (R182). -/
theorem pointOk_pointOctets_iff (s : State) :
    pointOk s.pointOctets = true ↔
      Memory.read s.mem 0x1C0 = 0x04#8 ∧
      onCurve (intBE (Memory.readOctets s.mem 0x1C1 32)) (intBE (Memory.readOctets s.mem 0x1E1 32)) = true := by
  have hformat : s.pointOctets.getD 0 0 = Memory.read s.mem 0x1C0 :=
    Memory.readOctets_getD s.mem 0x1C0 65 0 (by decide)
  have hx : (s.pointOctets.drop 1).take 32 = Memory.readOctets s.mem 0x1C1 32 :=
    Memory.take_drop_readOctets s.mem 0x1C0 (by decide)
  have hy : (s.pointOctets.drop 33).take 32 = Memory.readOctets s.mem 0x1E1 32 :=
    Memory.take_drop_readOctets s.mem 0x1C0 (by decide)
  rw [pointOk, hformat, hx, hy, Bool.and_eq_true, beq_iff_eq]

/-- Settles O43: RESULT is 1 where the octets pass the test and 0 elsewhere, and the test is the equation of R177. -/
theorem pointCheckTestsTheCurveEquation : Obligations.PointCheckTestsTheCurveEquation := by
  intro s
  refine ⟨_, exec_pointCheck_eq_afterOk s, ?value, ?test⟩
  case value => split <;> simp
  case test =>
    rw [← onCurve_iff_int, ← pointOk_pointOctets_iff]
    simp

/-! ### Encoded points -/

theorem fieldP_lt : fieldP < 256 ^ 32 := by decide

/-- The encoding of a point on the curve passes the test (R180). -/
theorem pointOk_encoding {x y : Nat} (h : onCurve x y = true) :
    pointOk ([0x04#8] ++ octetsBE 32 x ++ octetsBE 32 y) = true := by
  obtain ⟨hx, hy, _⟩ := (onCurve_iff x y).mp h
  have hformat : ([0x04#8] ++ octetsBE 32 x ++ octetsBE 32 y).getD 0 0 = 0x04#8 := by simp
  have hxs : (([0x04#8] ++ octetsBE 32 x ++ octetsBE 32 y).drop 1).take 32 = octetsBE 32 x := by
    rw [List.append_assoc, List.drop_left' List.length_singleton, List.take_left' (octetsBE_length 32 x)]
  have hys : (([0x04#8] ++ octetsBE 32 x ++ octetsBE 32 y).drop 33).take 32 = octetsBE 32 y := by
    rw [List.drop_left' (by simp), List.take_of_length_le (octetsBE_length 32 y).le]
  rw [pointOk, hformat, hxs, hys, intBE_octetsBE (hx.trans fieldP_lt), intBE_octetsBE (hy.trans fieldP_lt), h, Bool.and_true]
  exact beq_self_eq_true 0x04#8

theorem exec_pointCheck_of_encoding {x y : Nat} (h : onCurve x y = true) {u : State}
    (hu : Memory.readOctets u.mem 0x1C0 65 = [0x04#8] ++ octetsBE 32 x ++ octetsBE 32 y) :
    exec .pointCheck u = .next (u.afterOk u.mem 1#32 0#32) := by
  rw [exec_pointCheck_eq_afterOk, u.pointOctets_eq, hu, if_pos (pointOk_encoding h)]

/-- Settles O44: a multiple of G that is not O is on the curve, and what SCALAR_MUL_G writes is the encoding of one (O42). -/
theorem encodedPointsPassThePointCheck : Obligations.EncodedPointsPassThePointCheck := by
  refine ⟨fun k hk => ?multiple, fun s hs => ?written⟩
  case multiple =>
    obtain ⟨x, y, hpoint⟩ := exists_affine_repeatedAdd_basePoint hk
    have hcurve := onCurve_of_repeatedAdd_basePoint hpoint
    exact ⟨x, y, hpoint, hcurve, fun u hu => exec_pointCheck_of_encoding hcurve hu⟩
  case written =>
    obtain ⟨x, y, m, hpoint, hexec, hout, _⟩ := scalarMulWritesThePoint s hs
    have hcurve := onCurve_of_repeatedAdd_basePoint hpoint
    exact ⟨_, hexec, fun u hu => exec_pointCheck_of_encoding hcurve (hu.trans hout)⟩

end Sys2Proof.Machine
end

section
/-! PROOFS. Base64 and the command DERIVE_VERIFIER (O46, O47, O48). -/

namespace Sys2Proof.Machine

open Sys2Proof

/-! ### The base64 alphabet -/

/-- The octet is a character of the standard base64 alphabet (R202). -/
def IsBase64Char (c : Octet) : Prop :=
  (0x41 ≤ c.toNat ∧ c.toNat ≤ 0x5A) ∨ (0x61 ≤ c.toNat ∧ c.toNat ≤ 0x7A) ∨ (0x30 ≤ c.toNat ∧ c.toNat ≤ 0x39) ∨
    c = 0x2B#8 ∨ c = 0x2F#8

theorem isBase64Char_base64Char (v : Nat) : IsBase64Char (base64Char v) := by
  unfold base64Char
  split
  · exact .inl (by rw [BitVec.toNat_ofNat]; omega)
  split
  · exact .inr (.inl (by rw [BitVec.toNat_ofNat]; omega))
  split
  · exact .inr (.inr (.inl (by rw [BitVec.toNat_ofNat]; omega)))
  split
  · exact .inr (.inr (.inr (.inl rfl)))
  · exact .inr (.inr (.inr (.inr rfl)))

theorem base64Value_base64Char : ∀ {v : Nat}, v < 64 → base64Value (base64Char v) = v := by decide

theorem base64Char_ne_base64Pad : ∀ {v : Nat}, v < 64 → base64Char v ≠ base64Pad := by decide

/-! ### Groups of four characters -/

/-- Four base-64 digits hold the value of three octets (R203). -/
theorem base64Digits_lt (a b c : Octet) :
    intBE [a, b, c] / 2 ^ 18 < 64 ∧ intBE [a, b, c] / 2 ^ 12 % 64 < 64 ∧ intBE [a, b, c] / 2 ^ 6 % 64 < 64 ∧
      intBE [a, b, c] % 64 < 64 := by
  have hlt : intBE [a, b, c] < 256 ^ 3 := intBE_lt [a, b, c]
  omega

theorem base64Digits_sum (v : Nat) :
    v / 2 ^ 18 * 2 ^ 18 + v / 2 ^ 12 % 64 * 2 ^ 12 + v / 2 ^ 6 % 64 * 2 ^ 6 + v % 64 = v := by
  omega

/-- A full group decodes to its three octets. -/
theorem base64Decode_group (a b c : Octet) (text : List Octet) :
    base64Decode (base64Group a b c ++ text) = [a, b, c] ++ base64Decode text := by
  obtain ⟨h3, h2, h1, h0⟩ := base64Digits_lt a b c
  simp only [base64Group, List.cons_append, List.nil_append, base64Decode, if_neg (base64Char_ne_base64Pad h1),
    if_neg (base64Char_ne_base64Pad h0), base64Value_base64Char h3, base64Value_base64Char h2,
    base64Value_base64Char h1, base64Value_base64Char h0, base64Digits_sum]
  exact congrArg (· ++ base64Decode text) (octetsBE_intBE [a, b, c])

/-- One octet fills two digits: the two that the pad characters stand for are 0. -/
theorem base64Decode_one (a : Octet) : base64Decode (base64 [a]) = [a] := by
  obtain ⟨h3, h2, _, _⟩ := base64Digits_lt a 0#8 0#8
  have hvalue : intBE [a, 0#8, 0#8] / 2 ^ 18 * 2 ^ 18 + intBE [a, 0#8, 0#8] / 2 ^ 12 % 64 * 2 ^ 12 =
      intBE [a, 0#8, 0#8] := by
    simp only [intBE, List.foldl_cons, List.foldl_nil, BitVec.toNat_ofNat]
    omega
  simp only [base64, base64Group, List.take_succ_cons, List.take_zero, List.cons_append, List.nil_append, base64Decode,
    if_true, base64Value_base64Char h3, base64Value_base64Char h2, hvalue, List.append_nil]
  exact congrArg (List.take 1) (octetsBE_intBE [a, 0#8, 0#8])

/-- Two octets fill three digits: the one that the pad character stands for is 0. -/
theorem base64Decode_two (a b : Octet) : base64Decode (base64 [a, b]) = [a, b] := by
  obtain ⟨h3, h2, h1, _⟩ := base64Digits_lt a b 0#8
  have hvalue : intBE [a, b, 0#8] / 2 ^ 18 * 2 ^ 18 + intBE [a, b, 0#8] / 2 ^ 12 % 64 * 2 ^ 12 +
      intBE [a, b, 0#8] / 2 ^ 6 % 64 * 2 ^ 6 = intBE [a, b, 0#8] := by
    simp only [intBE, List.foldl_cons, List.foldl_nil, BitVec.toNat_ofNat]
    omega
  simp only [base64, base64Group, List.take_succ_cons, List.take_zero, List.cons_append, List.nil_append, base64Decode,
    if_neg (base64Char_ne_base64Pad h1), if_true, base64Value_base64Char h3, base64Value_base64Char h2,
    base64Value_base64Char h1, hvalue, List.append_nil]
  exact congrArg (List.take 2) (octetsBE_intBE [a, b, 0#8])

theorem isBase64Char_of_mem_base64Group {a b c o : Octet} (h : o ∈ base64Group a b c) : IsBase64Char o := by
  simp only [base64Group, List.mem_cons, List.not_mem_nil, or_false] at h
  rcases h with rfl | rfl | rfl | rfl <;> exact isBase64Char_base64Char _

/-! ### Whole texts -/

/-- Three octets on, four characters on (R203). -/
theorem base64_cons₃ (a b c : Octet) (rest : List Octet) :
    base64 (a :: b :: c :: rest) = base64Group a b c ++ base64 rest := by rw [base64]

/-- 4 characters for every 3 octets begun (R203). -/
theorem base64_length (s : List Octet) : (base64 s).length = 4 * ((s.length + 2) / 3) := by
  induction s using base64.induct with
  | case1 => rfl
  | case2 a => simp [base64]
  | case3 a b => simp [base64]
  | case4 a b c rest ih =>
    rw [base64_cons₃, List.length_append, base64Group_length, ih]
    simp only [List.length_cons]
    omega

theorem base64Decode_base64 (s : List Octet) : base64Decode (base64 s) = s := by
  induction s using base64.induct with
  | case1 => rfl
  | case2 a => exact base64Decode_one a
  | case3 a b => exact base64Decode_two a b
  | case4 a b c rest ih =>
    rw [base64_cons₃, base64Decode_group, ih]
    rfl

/-- A text holds characters of the alphabet and the pad character (R202). -/
theorem isBase64Char_or_pad_of_mem_base64 {s : List Octet} {o : Octet} (h : o ∈ base64 s) :
    IsBase64Char o ∨ o = base64Pad := by
  induction s using base64.induct with
  | case1 => cases h
  | case2 a =>
    rcases List.mem_append.mp h with h | h
    · exact .inl (isBase64Char_of_mem_base64Group (List.mem_of_mem_take h))
    · exact .inr (by simpa using h)
  | case3 a b =>
    rcases List.mem_append.mp h with h | h
    · exact .inl (isBase64Char_of_mem_base64Group (List.mem_of_mem_take h))
    · exact .inr (List.mem_singleton.mp h)
  | case4 a b c rest ih =>
    rw [base64_cons₃] at h
    rcases List.mem_append.mp h with h | h
    · exact .inl (isBase64Char_of_mem_base64Group h)
    · exact ih h

/-- One octet after the whole groups ends the text with `==` (R203). -/
theorem base64_pads_suffix {s : List Octet} (h : s.length % 3 = 1) : [base64Pad, base64Pad] <:+ base64 s := by
  induction s using base64.induct with
  | case1 => cases h
  | case2 a => exact List.suffix_append _ _
  | case3 a b => cases h
  | case4 a b c rest ih =>
    have hrest : rest.length % 3 = 1 := by
      simp only [List.length_cons] at h
      omega
    rw [base64_cons₃]
    exact (ih hrest).trans (List.suffix_append _ _)

/-- Settles O48: length, decoding and alphabet, each by the groups of the text. -/
theorem baseSixtyFourRoundTrip : Obligations.BaseSixtyFourRoundTrip := by
  refine fun s => ⟨base64_length s, base64Decode_base64 s, fun c hc => ?_⟩
  rcases isBase64Char_or_pad_of_mem_base64 hc with (h | h | h | h | h) | h <;> simp [h, base64Pad]

/-! ### DERIVE_VERIFIER -/

/-- `be_32(w0) || EncPoint(X, Y)` (R204). -/
def verifierOctets (w0 x y : Nat) : List Octet := octetsBE 32 w0 ++ ([0x04#8] ++ octetsBE 32 x ++ octetsBE 32 y)

@[simp] theorem verifierOctets_length (w0 x y : Nat) : (verifierOctets w0 x y).length = 97 := by simp [verifierOctets]

theorem verifierOctets_eq (w0 x y : Nat) :
    verifierOctets w0 x y = octetsBE 32 w0 ++ [0x04#8] ++ octetsBE 32 x ++ octetsBE 32 y := by
  simp only [verifierOctets, List.append_assoc]

/-- The encoded point stands behind the 32 octets of w0 (R204). -/
theorem verifierOctets_drop (w0 x y : Nat) :
    (verifierOctets w0 x y).drop 32 = [0x04#8] ++ octetsBE 32 x ++ octetsBE 32 y :=
  List.drop_left' (octetsBE_length 32 w0)

/-- The completion that writes the octets of a verifier and their text (R204). -/
def verifierResults (raw : List Octet) : Results := ⟨raw, base64 raw, 132, 97⟩

@[simp] theorem verifierResults_out (raw : List Octet) : (verifierResults raw).out = raw := rfl

@[simp] theorem verifierResults_b64 (raw : List Octet) : (verifierResults raw).b64 = base64 raw := rfl

/-- The completion writes 97 octets to OUT_BUF, their 132 characters to B64_BUF and no other octet (R114, R204). -/
theorem State.completeOk_verifierResults (s : State) {raw : List Octet} (hlen : raw.length = 97) :
    Memory.readOctets (s.completeOk (verifierResults raw)).mem 0x300 97 = raw ∧
    Memory.readOctets (s.completeOk (verifierResults raw)).mem 0x400 132 = base64 raw ∧
    ∀ a, a < 0x300 ∨ (0x361 ≤ a ∧ a < 0x400) ∨ 0x484 ≤ a →
      Memory.read (s.completeOk (verifierResults raw)).mem a = Memory.read s.mem a := by
  have htextLen : (base64 raw).length = 132 := by rw [base64_length, hlen]
  have hfit : (verifierResults raw).out.length ≤ Buffer.out.size := hlen.trans_le (by decide)
  obtain ⟨hout, htext⟩ := s.completeOk_outputs (verifierResults raw) hfit
  rw [verifierResults_out, hlen] at hout
  rw [verifierResults_b64, htextLen] at htext
  refine ⟨hout, htext, fun a ha => ?others⟩
  case others =>
    rw [s.completeOk_read _ a hfit, verifierResults_out, verifierResults_b64, hlen, htextLen, Buffer.base, Buffer.base,
      if_neg (by omega), if_neg (by omega)]

/-- With a legal salt length, an iteration count and an affine point, DERIVE_VERIFIER succeeds (R204). -/
theorem deriveVerifierOutcome_of_affine {s : State} {x y : Nat} (hsalt : s.saltLen.toNat ≤ 64)
    (hiterations : s.iterations ≠ 0#32) (hw1 : verifierW1 s ≠ 0)
    (hpoint : repeatedAdd (verifierW1 s) basePoint = .affine x y) :
    deriveVerifierOutcome s = .ok (verifierResults (verifierOctets (verifierW0 s) x y)) := by
  simp only [deriveVerifierOutcome, if_neg (show ¬s.saltLen.toNat > saltMax from Nat.not_lt.mpr hsalt),
    if_neg hiterations, if_neg hw1, scalarMul_eq_repeatedAdd basePoint_valid, hpoint, encPoint, verifierResults,
    verifierOctets]

/-- w1 is below n, so it is a multiple of n only when it is 0 (R178). -/
theorem verifierW1_mod (s : State) : verifierW1 s % groupN = verifierW1 s := Nat.mod_mod _ groupN

/-- With legal inputs and w1 ≠ 0 the point is affine, and the completion writes the verifier to OUT_BUF and its text to B64_BUF
(R204). -/
theorem exec_deriveVerifier_of_legal {s : State} (hsalt : s.saltLen.toNat ≤ 64) (hiterations : s.iterations ≠ 0#32)
    (hw1 : verifierW1 s ≠ 0) :
    ∃ (x y : Nat) (m : Memory),
      repeatedAdd (verifierW1 s) basePoint = .affine x y ∧
      exec .deriveVerifier s = .next (s.afterOk m 132#32 97#32) ∧
      Memory.readOctets m 0x300 97 = verifierOctets (verifierW0 s) x y ∧
      Memory.readOctets m 0x400 132 = base64 (verifierOctets (verifierW0 s) x y) ∧
      (∀ a, a < 0x300 ∨ (0x361 ≤ a ∧ a < 0x400) ∨ 0x484 ≤ a → Memory.read m a = Memory.read s.mem a) := by
  obtain ⟨x, y, hpoint⟩ := exists_affine_repeatedAdd_basePoint ((verifierW1_mod s).symm ▸ hw1)
  refine ⟨x, y, _, hpoint, ?_, s.completeOk_verifierResults (verifierOctets_length (verifierW0 s) x y)⟩
  rw [exec_deriveVerifier, deriveVerifierOutcome_of_affine hsalt hiterations hw1 hpoint]
  exact congrArg Host.Outcome.next (s.completeOk_afterOk _ rfl rfl)

/-- Settles O46: what the completion writes, with the scalars written out. -/
theorem deriveVerifierWritesTheVerifier : Obligations.DeriveVerifierWritesTheVerifier := by
  intro s hsalt hiterations dk hw1
  obtain ⟨x, y, m, hpoint, hexec, hout, htext, hothers⟩ := exec_deriveVerifier_of_legal hsalt hiterations hw1
  refine ⟨x, y, m, hpoint, hexec, ?_, htext.trans (congrArg base64 hout.symm), hothers⟩
  rw [hout, verifierOctets_eq]
  rfl

/-- Settles O47: the text decodes by the round trip (O48) and ends with `==` as 97 octets are one past whole groups, and the
point is a multiple of G (R180). -/
theorem verifierTextDecodesToTheVerifier : Obligations.VerifierTextDecodesToTheVerifier := by
  intro s hsalt hiterations hw1
  obtain ⟨x, y, m, hpoint, hexec, hout, htext, _⟩ := exec_deriveVerifier_of_legal hsalt hiterations hw1
  have hencoding : Memory.readOctets m 0x320 65 = [0x04#8] ++ octetsBE 32 x ++ octetsBE 32 y := by
    rw [← Memory.take_drop_readOctets m 0x300 (i := 32) (k := 65) (n := 97) (by decide), hout, verifierOctets_drop]
    exact List.take_of_length_le (by simp)
  obtain ⟨text, hpads⟩ : [base64Pad, base64Pad] <:+ Memory.readOctets m 0x400 132 :=
    htext ▸ base64_pads_suffix (by rw [verifierOctets_length])
  have htextLen : text.length = 130 := by simpa using congrArg List.length hpads
  refine ⟨_, hexec, rfl, rfl, ?decodes, ?format, ?pad, ?lastPad, fun u hu => ?check⟩
  case decodes => exact (congrArg base64Decode htext).trans ((base64Decode_base64 _).trans hout.symm)
  case format =>
    refine (Memory.readOctets_getD m 0x320 65 0 (by decide)).symm.trans ?_
    rw [hencoding]
    rfl
  case pad =>
    refine (Memory.readOctets_getD m 0x400 132 130 (by decide)).symm.trans ?_
    simp [← hpads, htextLen, base64Pad]
  case lastPad =>
    refine (Memory.readOctets_getD m 0x400 132 131 (by decide)).symm.trans ?_
    simp [← hpads, htextLen, base64Pad]
  case check => exact exec_pointCheck_of_encoding (onCurve_of_repeatedAdd_basePoint hpoint) (hu.trans hencoding)

end Sys2Proof.Machine
end

section
/-! PROOFS. The decimal digits of a number: the digit at each index, the value they read back as, and that each is an ASCII
digit (O52). -/

namespace Sys2Proof.Machine

open Sys2Proof

theorem asciiDigit_toNat {d : Nat} (hd : d < 10) : (asciiDigit d).toNat = 0x30 + d :=
  Nat.mod_eq_of_lt (by omega)

@[simp] theorem isAsciiDigit_asciiDigit {d : Nat} (hd : d < 10) : isAsciiDigit (asciiDigit d) = true := by
  rw [isAsciiDigit, asciiDigit_toNat hd, Bool.and_eq_true, decide_eq_true_eq, decide_eq_true_eq]
  omega

/-- The digit an ASCII digit stands for (R8, R243). -/
theorem digitOf_asciiDigit (d : Digit) : digitOf (asciiDigit d.val) = d := by
  rw [digitOf, asciiDigit_toNat d.isLt, Nat.add_sub_cancel_left]
  exact Fin.ofNat_val_eq_self d

theorem decDigits_all_isAsciiDigit (v w : Nat) : (decDigits v w).all isAsciiDigit = true := by
  induction w generalizing v with
  | zero => rfl
  | succ w ih => simp [decDigits, ih, Nat.mod_lt]

/-- Every value, in range or not: the digit at index `i` is that of the power `10^(w-1-i)` (R226, log 25). -/
theorem decDigits_getElem? (v : Nat) {w i : Nat} (hi : i < w) :
    (decDigits v w)[i]? = some (asciiDigit (v / 10 ^ (w - 1 - i) % 10)) := by
  induction w generalizing v with
  | zero => exact absurd hi (Nat.not_lt_zero i)
  | succ w ih =>
    rw [decDigits]
    rcases Nat.lt_or_ge i w with hfirst | hlast
    · have hexp : w + 1 - 1 - i = (w - 1 - i) + 1 := by omega
      rw [List.getElem?_append_left (by simpa using hfirst), ih _ hfirst, Nat.div_div_eq_div_mul, hexp, pow_succ']
    · obtain rfl : i = w := by omega
      simp

/-- The number a string of ASCII digits reads as, most significant digit first. -/
def decimalValue (s : List Octet) : Nat := s.foldl (fun n o => 10 * n + (o.toNat - 0x30)) 0

/-- The last digit is the least significant one. -/
theorem decimalValue_concat (s : List Octet) (o : Octet) :
    decimalValue (s ++ [o]) = 10 * decimalValue s + (o.toNat - 0x30) := by
  simp [decimalValue]

/-- Every value, in range or not: the digits read as the low `w` digits of `v` (R226, log 25). -/
theorem decimalValue_decDigits_mod (v w : Nat) : decimalValue (decDigits v w) = v % 10 ^ w := by
  induction w generalizing v with
  | zero => exact (Nat.mod_one v).symm
  | succ w ih =>
    rw [decDigits, decimalValue_concat, ih, asciiDigit_toNat (Nat.mod_lt v (by decide)), Nat.add_sub_cancel_left,
      pow_succ', Nat.mod_mul, Nat.add_comm]

/-- Settles O52: length, digits and value, each by induction on the number of digits. -/
theorem decimalDigitsAreZeroPadded : Obligations.DecimalDigitsAreZeroPadded := fun v w =>
  ⟨decDigits_length v w, fun _ hi => decDigits_getElem? v hi, fun hv =>
    (decimalValue_decDigits_mod v w).trans (Nat.mod_eq_of_lt hv)⟩

end Sys2Proof.Machine
end

section
/-! PROOFS. The check digit: D5 is a group, so a string with its check digit validates, and the command VERHOEFF_CHECK_DIGIT
on a string of digits (R240 to R245). -/

namespace Sys2Proof.Machine

open Sys2Proof

/-! ### The group and the fold -/

theorem verhoeffD_zero_left : ∀ k : Digit, verhoeffD 0 k = k := by decide

theorem verhoeffD_zero_right : ∀ j : Digit, verhoeffD j 0 = j := by decide

/-- The table `d` is the multiplication of a group (R240). -/
theorem verhoeffD_assoc : ∀ j k l : Digit, verhoeffD (verhoeffD j k) l = verhoeffD j (verhoeffD k l) := by decide

theorem verhoeffD_inv_left : ∀ j : Digit, verhoeffD (verhoeffInv j) j = 0 := by decide

/-- Row 0 of `p` changes no digit (R241). -/
theorem verhoeffP_zero : ∀ k : Digit, verhoeffP 0 k = k := by decide

/-- The accumulator a fold starts from multiplies its result from the left (R240, R243). -/
theorem verhoeffFold_eq_verhoeffD (shift i : Nat) (c : Digit) (rev : List Octet) :
    verhoeffFold shift i c rev = verhoeffD c (verhoeffFold shift i 0 rev) := by
  induction rev generalizing i c with
  | nil => exact (verhoeffD_zero_right c).symm
  | cons o rev ih => rw [verhoeffFold, verhoeffFold, ih, ih (i + 1) (verhoeffD 0 _), verhoeffD_zero_left, verhoeffD_assoc]

/-- A digit stands one position further left once its check digit is appended (R243, R245). -/
theorem verhoeffFold_succ (shift i : Nat) (c : Digit) (rev : List Octet) :
    verhoeffFold shift (i + 1) c rev = verhoeffFold (shift + 1) i c rev := by
  induction rev generalizing i c with
  | nil => rfl
  | cons o rev ih => rw [verhoeffFold, verhoeffFold, ih, Nat.add_right_comm, Nat.add_assoc]

/-- What the validation of a string with one more digit computes: that digit times the accumulator behind the check digit
(R243, R245). -/
theorem verhoeffFold_concat (s : List Octet) (d : Digit) :
    verhoeffFold 0 0 0 (s ++ [asciiDigit d.val]).reverse = verhoeffD d (verhoeffFold 1 0 0 s.reverse) := by
  rw [List.reverse_concat, verhoeffFold, digitOf_asciiDigit, verhoeffP_zero, verhoeffD_zero_left, verhoeffFold_succ,
    verhoeffFold_eq_verhoeffD]

/-- A string followed by its check digit validates (R245). -/
theorem verhoeffValid_concat_checkDigit (s : List Octet) :
    verhoeffValid (s ++ [asciiDigit (checkDigit s).val]) = true := by
  rw [verhoeffValid, verhoeffFold_concat, checkDigit, verhoeffD_inv_left, beq_self_eq_true]

/-! ### The command -/

/-- What VERHOEFF_CHECK_DIGIT answers on a string of digits (R244). -/
def verhoeffResults (digits : List Octet) : Results :=
  ⟨[asciiDigit (checkDigit digits).val], [], (checkDigit digits).val, 1⟩

/-- On at most 64 octets that are all ASCII digits, VERHOEFF_CHECK_DIGIT succeeds (R244). -/
theorem exec_verhoeffCheckDigit_of_digits {s : State} (hlen : s.digitsLen.toNat ≤ 64)
    (hdigits : s.digitOctets.all isAsciiDigit = true) :
    exec .verhoeffCheckDigit s = .next (s.completeOk (verhoeffResults s.digitOctets)) := by
  rw [exec_verhoeffCheckDigit, verhoeffOutcome, if_neg (show ¬s.digitsLen.toNat > digitsMax from Nat.not_lt.mpr hlen),
    if_pos hdigits]
  rfl

/-- The digit the completion leaves in OUT_BUF[0] (R114, R244). -/
theorem State.completeOk_verhoeffResults_read (s : State) (digits : List Octet) :
    Memory.read (s.completeOk (verhoeffResults digits)).mem 0x300 = asciiDigit (checkDigit digits).val := by
  rw [s.completeOk_read (verhoeffResults digits) 0x300 (by decide : 1 ≤ Buffer.out.size)]
  rfl

end Sys2Proof.Machine
end

section
/-! PROOFS. The command ENCODE_MANUAL_CODE: its chunks as arithmetic, the completion on legal inputs, and what of the inputs
reaches the code (O49, O50, O58). -/

namespace Sys2Proof.Machine

open Sys2Proof

/-! ### The chunks -/

theorem shortDiscriminator_eq (disc : Nat) : shortDiscriminator disc = disc / 256 := Nat.shiftRight_eq_div_pow disc 8

/-- The flag bit and a field of at most three bits, of which bit 2 merges with the flag (R222, R231). -/
theorem four_or : ∀ {x : Nat}, x < 8 → 4 ||| x = 4 + x % 4 := by decide

/-- Chunk 1 of a discriminator of at most 13 bits (R222, R231). -/
theorem chunk1_eq {disc : Nat} (hdisc : disc < 8192) : chunk1 disc = 4 + disc / 1024 % 4 := calc
  chunk1 disc = 4 ||| disc / 256 / 4 := by
    rw [chunk1, shortDiscriminator_eq, Nat.shiftRight_eq_div_pow]
    rfl
  _ = 4 ||| disc / 1024 := by rw [Nat.div_div_eq_div_mul]
  _ = 4 + disc / 1024 % 4 := four_or (by omega)

/-- Chunk 2: the two fields do not overlap (R223). -/
theorem chunk2_eq (disc pc : Nat) : chunk2 disc pc = disc / 256 % 4 * 16384 + pc % 16384 := by
  have hlow : pc % 2 ^ 14 < 2 ^ 14 := Nat.mod_lt _ (by decide)
  rw [chunk2, shortDiscriminator_eq, Nat.and_two_pow_sub_one_eq_mod (disc / 256) 2,
    Nat.and_two_pow_sub_one_eq_mod pc 14, ← Nat.shiftLeft_add_eq_or_of_lt hlow, Nat.shiftLeft_eq]
  rfl

/-- Chunk 3 is what the low 14 bits of the passcode leave (R224). -/
theorem chunk3_eq (pc : Nat) : chunk3 pc = pc / 16384 := Nat.shiftRight_eq_div_pow pc 14

/-- Legal inputs fit their digit groups (R226, R265). -/
theorem chunkOverflow_eq_false {disc pc : Nat} (hdisc : disc < 8192) (hpc : pc < 163840000) :
    chunkOverflow disc pc = false := by
  rw [chunkOverflow, chunk1_eq hdisc, chunk3_eq, Bool.or_eq_false_iff, decide_eq_false_iff_not, decide_eq_false_iff_not]
  omega

/-! ### The code -/

/-- The payload is made of ASCII digits (R227). -/
theorem codePayload_all_isAsciiDigit (disc pc vid pid : Nat) : (codePayload disc pc vid pid).all isAsciiDigit = true := by
  simp only [codePayload, List.all_append, decDigits_all_isAsciiDigit, Bool.and_self]

/-- The first 20 digits of the code are the payload (R227). -/
theorem manualCode_take (disc pc vid pid : Nat) : (manualCode disc pc vid pid).take 20 = codePayload disc pc vid pid :=
  List.take_left' (codePayload_length disc pc vid pid)

/-- The last digit of the code is the payload's check digit (R227). -/
theorem manualCode_getD (disc pc vid pid : Nat) :
    (manualCode disc pc vid pid).getD 20 0#8 = asciiDigit (checkDigit (codePayload disc pc vid pid)).val := by
  simp [manualCode]

/-- Of a discriminator of at most 13 bits, bits [11:8] alone reach the code (R231). -/
theorem manualCode_congr {disc disc' : Nat} (pc vid pid : Nat) (hdisc : disc < 8192) (hdisc' : disc' < 8192)
    (hbits : disc / 256 % 16 = disc' / 256 % 16) : manualCode disc pc vid pid = manualCode disc' pc vid pid := by
  have h1 : chunk1 disc = chunk1 disc' := by
    rw [chunk1_eq hdisc, chunk1_eq hdisc']
    omega
  have h2 : chunk2 disc pc = chunk2 disc' pc := by
    rw [chunk2_eq, chunk2_eq]
    omega
  rw [manualCode, manualCode, codePayload, codePayload, h1, h2]

/-- The digits of c1 and c2 stand before those of c3, and the digits of VID and PID behind them (R227). -/
theorem codePayload_take_drop (disc pc vid pid : Nat) :
    (codePayload disc pc vid pid).take 6 = decDigits (chunk1 disc) 1 ++ decDigits (chunk2 disc pc) 5 ∧
    (codePayload disc pc vid pid).drop 10 = decDigits vid 5 ++ decDigits pid 5 := by
  have hgroups : codePayload disc pc vid pid =
      (decDigits (chunk1 disc) 1 ++ decDigits (chunk2 disc pc) 5) ++
        (decDigits (chunk3 pc) 4 ++ (decDigits vid 5 ++ decDigits pid 5)) := by
    simp only [codePayload, List.append_assoc]
  constructor
  · rw [hgroups, List.take_left' (by simp)]
  · rw [hgroups, ← List.append_assoc, List.drop_left' (by simp)]

/-! ### The command -/

/-- What ENCODE_MANUAL_CODE answers on legal inputs (R228). -/
def manualCodeResults (s : State) : Results :=
  ⟨manualCode s.discriminator.toNat s.passcode.toNat s.vid.toNat s.pid.toNat, [],
    (checkDigit (codePayload s.discriminator.toNat s.passcode.toNat s.vid.toNat s.pid.toNat)).val, 21⟩

theorem manualCodeResults_out_length (s : State) : (manualCodeResults s).out.length = 21 := manualCode_length _ _ _ _

theorem manualCodeResults_fits (s : State) : (manualCodeResults s).out.length ≤ Buffer.out.size :=
  (manualCodeResults_out_length s).trans_le (by decide)

/-- On legal inputs ENCODE_MANUAL_CODE succeeds (R228). -/
theorem exec_encodeManualCode_of_legal {s : State} (hdisc : s.discriminator.toNat < 8192)
    (hpc : s.passcode.toNat < 163840000) : exec .encodeManualCode s = .next (s.completeOk (manualCodeResults s)) := by
  simp only [exec_encodeManualCode, manualCodeOutcome, chunkOverflow_eq_false hdisc hpc, Bool.false_eq_true, if_false,
    State.complete_ok, manualCodeResults]

/-- The code the completion leaves in OUT_BUF[0..20] (R114, R228). -/
theorem State.completeOk_manualCodeResults_out (s : State) :
    Memory.readOctets (s.completeOk (manualCodeResults s)).mem 0x300 21 =
      manualCode s.discriminator.toNat s.passcode.toNat s.vid.toNat s.pid.toNat := by
  obtain ⟨hout, _⟩ := s.completeOk_outputs (manualCodeResults s) (manualCodeResults_fits s)
  rw [manualCodeResults_out_length] at hout
  exact hout

/-- Settles O49: the chunks are the arithmetic of the statement, and the completion writes their code to OUT_BUF. -/
theorem manualCodeWritesTwentyOneDigits : Obligations.ManualCodeWritesTwentyOneDigits := by
  intro s hdisc hpc payload
  have hpayload : codePayload s.discriminator.toNat s.passcode.toNat s.vid.toNat s.pid.toNat = payload := by
    rw [codePayload, chunk1_eq hdisc, chunk2_eq, chunk3_eq]
  refine ⟨(s.completeOk (manualCodeResults s)).mem, ?exec, ?length, ?code, fun a ha => ?others⟩
  case exec =>
    have hresult : (manualCodeResults s).result = (checkDigit payload).val := by rw [← hpayload, manualCodeResults]
    rw [exec_encodeManualCode_of_legal hdisc hpc]
    exact congrArg Host.Outcome.next (s.completeOk_afterOk _ (congrArg (BitVec.ofNat 32) hresult) rfl)
  case length => rw [← hpayload, codePayload_length]
  case code => rw [s.completeOk_manualCodeResults_out, manualCode, hpayload]
  case others =>
    exact s.completeOk_read_outside (manualCodeResults_fits s) rfl (by rw [manualCodeResults_out_length]; exact ha)

/-- A passcode a host may assume valid has at most 27 bits (R230). -/
theorem le_of_validPasscode {pc : Nat} (h : validPasscode pc = true) : pc ≤ 99999998 := by
  rw [validPasscode, Bool.and_eq_true, Bool.and_eq_true, decide_eq_true_eq, decide_eq_true_eq] at h
  obtain ⟨⟨_, hle⟩, _⟩ := h
  exact hle

/-- Settles O50: bit 4 of the short discriminator merges with the flag, bits [11:8] alone reach the code, and only c3 sees a
passcode above its low 14 bits. -/
theorem manualCodeWrapsAround : Obligations.ManualCodeWrapsAround := by
  refine ⟨fun disc pc vid pid hlow hhigh => ?merges, fun disc pc vid pid hdisc => ?bits,
    fun disc pc vid pid k => ?passcode, fun s hdisc hpc => ?succeeds⟩
  case merges =>
    have hfield : disc / 256 / 4 < 8 := by omega
    rw [shortDiscriminator_eq, shortDiscriminator_eq]
    refine ⟨by omega, by omega, ?_, by omega, manualCode_congr pc vid pid (by omega) (by omega) (by omega)⟩
    rw [four_or hfield, four_or (by omega), Nat.mod_mod]
  case bits => exact manualCode_congr pc vid pid (by omega) (by omega) (by omega)
  case passcode =>
    obtain ⟨htake, hdrop⟩ := codePayload_take_drop disc pc vid pid
    obtain ⟨htake', hdrop'⟩ := codePayload_take_drop disc (pc + 16384 * k) vid pid
    have h2 : chunk2 disc (pc + 16384 * k) = chunk2 disc pc := by
      rw [chunk2_eq, chunk2_eq, Nat.add_mul_mod_self_left]
    refine ⟨by rw [htake', htake, h2], hdrop'.trans hdrop.symm, ?_⟩
    rw [chunk3_eq, chunk3_eq, Nat.add_mul_div_left _ _ (by decide)]
  case succeeds =>
    have hle := le_of_validPasscode hpc
    exact ⟨_, exec_encodeManualCode_of_legal (by omega) (by omega), rfl, rfl, rfl⟩

/-- Settles O58: the code is a digit string with its check digit, so it validates; and the digits copied to DIGIT_BUF are the
payload, of which both commands give the check digit. -/
theorem manualCodeCheckDigitIsReproduced : Obligations.ManualCodeCheckDigitIsReproduced := by
  intro s hdisc hpc
  have hcode := s.completeOk_manualCodeResults_out
  refine ⟨_, exec_encodeManualCode_of_legal hdisc hpc, ?valid, fun u hlen hcopy => ?reproduced⟩
  case valid =>
    rw [hcode]
    exact verhoeffValid_concat_checkDigit _
  case reproduced =>
    have hdigits : u.digitOctets = codePayload s.discriminator.toNat s.passcode.toNat s.vid.toNat s.pid.toNat := by
      rw [State.digitOctets_eq, hlen, ← manualCode_take, ← hcode]
      exact hcopy.trans (Memory.take_drop_readOctets _ 0x300 (n := 21) (i := 0) (by decide)).symm
    refine ⟨_, exec_verhoeffCheckDigit_of_digits (by rw [hlen]; decide) ?digits, ?result, ?last⟩
    case digits => rw [hdigits, codePayload_all_isAsciiDigit]
    case result => rw [hdigits]; rfl
    case last =>
      rw [u.completeOk_verhoeffResults_read, hdigits, ← manualCode_getD, ← hcode]
      exact Memory.readOctets_getD _ 0x300 21 20 (by decide)

end Sys2Proof.Machine
end

section
/-! PROOFS. The Verhoeff checksum on every digit string: the rows of `p` are the powers of row 1, D5 cancels on either side, so
the check digit is unique and a changed digit changes the accumulator; and the command VERHOEFF_CHECK_DIGIT (O53, O55 to O57). -/

namespace Sys2Proof.Machine

open Sys2Proof

/-! ### The tables -/

/-- The position counts modulo 8 (R241). -/
theorem verhoeffP_add_eight (r : Nat) (k : Digit) : verhoeffP (r + 8) k = verhoeffP r k := by
  rw [verhoeffP, Nat.add_mod_right, verhoeffP]

theorem verhoeffP_mod (r : Nat) (k : Digit) : verhoeffP (r % 8) k = verhoeffP r k := by
  rw [verhoeffP, Nat.mod_mod, verhoeffP]

theorem verhoeffP_mod_succ (r : Nat) (k : Digit) : verhoeffP (r % 8 + 1) k = verhoeffP (r + 1) k := by
  rw [verhoeffP, Nat.mod_add_mod, verhoeffP]

/-- The eight rows of the table, of which the last leads back to the first (R241). -/
theorem verhoeffP_succ_of_lt : ∀ r < 8, ∀ k : Digit, verhoeffP (r + 1) k = verhoeffP 1 (verhoeffP r k) := by decide

/-- Each row of `p` is row 1 after the row before (R241). -/
theorem verhoeffP_succ (r : Nat) (k : Digit) : verhoeffP (r + 1) k = verhoeffP 1 (verhoeffP r k) := by
  rw [← verhoeffP_mod_succ, verhoeffP_succ_of_lt (r % 8) (Nat.mod_lt r (by decide)), verhoeffP_mod]

theorem verhoeffD_inv_right : ∀ j : Digit, verhoeffD j (verhoeffInv j) = 0 := by decide

/-- Settles O55: row r is one of eight rows, and the table has an inverse for each of the ten digits. -/
theorem verhoeffTablesAreConsistent : Obligations.VerhoeffTablesAreConsistent :=
  ⟨verhoeffP_zero, verhoeffP_succ, verhoeffP_add_eight, verhoeffD_inv_right⟩

/-! ### Cancellation -/

theorem verhoeffP_one_injective : Function.Injective (verhoeffP 1) := by decide

/-- Each row of `p` is a permutation, as a power of row 1 (R241). -/
theorem verhoeffP_injective (r : Nat) : Function.Injective (verhoeffP r) := by
  induction r with
  | zero => exact fun j k h => by rwa [verhoeffP_zero, verhoeffP_zero] at h
  | succ r ih =>
    intro j k h
    rw [verhoeffP_succ r j, verhoeffP_succ r k] at h
    exact ih (verhoeffP_one_injective h)

theorem verhoeffD_left_cancel {j k l : Digit} (h : verhoeffD j k = verhoeffD j l) : k = l := by
  have h' := congrArg (verhoeffD (verhoeffInv j)) h
  rwa [← verhoeffD_assoc, ← verhoeffD_assoc, verhoeffD_inv_left, verhoeffD_zero_left, verhoeffD_zero_left] at h'

theorem verhoeffD_right_cancel {j k l : Digit} (h : verhoeffD j l = verhoeffD k l) : j = k := by
  have h' := congrArg (verhoeffD · (verhoeffInv l)) h
  simpa only [verhoeffD_assoc, verhoeffD_inv_right, verhoeffD_zero_right] using h'

/-- The digits still to come do not merge two accumulators (R243). -/
theorem verhoeffFold_cancel {shift i : Nat} {c c' : Digit} {rev : List Octet}
    (h : verhoeffFold shift i c rev = verhoeffFold shift i c' rev) : c = c' := by
  rw [verhoeffFold_eq_verhoeffD, verhoeffFold_eq_verhoeffD shift i c'] at h
  exact verhoeffD_right_cancel h

/-- Two strings that differ in one octet and give the same accumulator have the same digit there (R243, R245). -/
theorem digitOf_eq_of_verhoeffFold_eq {shift i : Nat} {c : Digit} {before after : List Octet} {o o' : Octet}
    (h : verhoeffFold shift i c (before ++ o :: after) = verhoeffFold shift i c (before ++ o' :: after)) :
    digitOf o = digitOf o' := by
  induction before generalizing i c with
  | nil => exact verhoeffP_injective _ (verhoeffD_left_cancel (verhoeffFold_cancel h))
  | cons _ _ ih => exact ih h

/-! ### ASCII digits -/

theorem isAsciiDigit_iff {o : Octet} : isAsciiDigit o = true ↔ 0x30 ≤ o.toNat ∧ o.toNat ≤ 0x39 := by
  rw [isAsciiDigit, Bool.and_eq_true, decide_eq_true_eq, decide_eq_true_eq]

/-- An ASCII digit is the octet of the digit it stands for (R243, R244). -/
theorem asciiDigit_digitOf {o : Octet} (h : isAsciiDigit o = true) : asciiDigit (digitOf o).val = o := by
  obtain ⟨hlow, hhigh⟩ := isAsciiDigit_iff.mp h
  have hval : (digitOf o).val = o.toNat - 0x30 := Nat.mod_eq_of_lt (by omega)
  apply BitVec.eq_of_toNat_eq
  rw [asciiDigit_toNat (digitOf o).isLt, hval, Nat.add_sub_cancel' hlow]

theorem eq_of_digitOf_eq {o o' : Octet} (ho : isAsciiDigit o = true) (ho' : isAsciiDigit o' = true)
    (h : digitOf o = digitOf o') : o = o' := by
  rw [← asciiDigit_digitOf ho, h, asciiDigit_digitOf ho']

/-! ### Validation -/

theorem verhoeffValid_iff {t : List Octet} : verhoeffValid t = true ↔ verhoeffFold 0 0 0 t.reverse = 0 := by
  rw [verhoeffValid, beq_iff_eq]

/-- The check digit is the only digit a string validates with: it and the digit are both inverse to the accumulator (R245). -/
theorem eq_checkDigit_of_verhoeffValid {s : List Octet} {d : Digit} (h : verhoeffValid (s ++ [asciiDigit d.val]) = true) :
    d = checkDigit s := by
  rw [verhoeffValid_iff, verhoeffFold_concat] at h
  exact verhoeffD_right_cancel (h.trans (verhoeffD_inv_left _).symm)

/-- Settles O56: the accumulator has one inverse in D5. -/
theorem checkDigitValidates : Obligations.CheckDigitValidates := fun s _ =>
  ⟨verhoeffValid_concat_checkDigit s, fun d hd hvalid =>
    congrArg Fin.val (eq_checkDigit_of_verhoeffValid (d := ⟨d, hd⟩) hvalid)⟩

/-- Settles O57: were both strings valid, their accumulators would agree, and so would the replaced digits. -/
theorem singleDigitErrorsAreDetected : Obligations.SingleDigitErrorsAreDetected := by
  intro s t o o' hdigits ho' hne hvalid
  have ho : isAsciiDigit o = true := List.all_eq_true.mp hdigits o (by simp)
  refine Bool.eq_false_iff.mpr fun hvalid' => hne (eq_of_digitOf_eq ho ho' ?_)
  rw [verhoeffValid_iff, List.reverse_append, List.reverse_cons, List.append_assoc] at hvalid hvalid'
  exact digitOf_eq_of_verhoeffFold_eq (hvalid.trans hvalid'.symm)

/-! ### The command -/

/-- Settles O53: the completion writes the one octet of the check digit to OUT_BUF. -/
theorem verhoeffWritesTheCheckDigit : Obligations.VerhoeffWritesTheCheckDigit := by
  intro s hlen hoctets
  have hdigits : s.digitOctets.all isAsciiDigit = true :=
    List.all_eq_true.mpr fun o ho => isAsciiDigit_iff.mpr (hoctets o ho)
  refine ⟨(s.completeOk (verhoeffResults s.digitOctets)).mem, (checkDigit s.digitOctets).val, ?exec, rfl,
    (checkDigit s.digitOctets).isLt, fun hempty => ?empty, s.completeOk_verhoeffResults_read _, fun a ha => ?others⟩
  case exec =>
    rw [exec_verhoeffCheckDigit_of_digits hlen hdigits]
    exact congrArg Host.Outcome.next (s.completeOk_afterOk _ rfl rfl)
  case empty =>
    rw [State.digitOctets_eq, hempty]
    rfl
  case others =>
    have hone : (verhoeffResults s.digitOctets).out.length = 1 := rfl
    exact s.completeOk_read_outside (by rw [hone]; decide) rfl (by rw [hone]; exact Nat.lt_or_gt_of_ne ha)

end Sys2Proof.Machine
end

section
/-! PROOFS. The errors of the commands (O34, O35, O45, O51, O54): the table of R262 to R266 says exactly which error a command
ends with, and in which states. -/

namespace Sys2Proof.Machine

open Sys2Proof

/-! ### The table -/

/-- The command `i` raises the error `e` in the state `s`: one row for each command and code of R262 to R266, with the conditions
of the codes before it ruled out (R268). -/
def Raises (i : Instr) (e : EngineError) (s : State) : Prop :=
  match i, e with
  | .pbkdf2, .badLength => s.pwdLen.toNat > 64 ∨ s.saltLen.toNat > 64 ∨ s.dkLen = 0#32 ∨ s.dkLen.toNat > 256
  | .pbkdf2, .badIterations =>
    s.pwdLen.toNat ≤ 64 ∧ s.saltLen.toNat ≤ 64 ∧ s.dkLen ≠ 0#32 ∧ s.dkLen.toNat ≤ 256 ∧ s.iterations = 0#32
  | .deriveVerifier, .badLength => s.saltLen.toNat > 64
  | .deriveVerifier, .badIterations => s.saltLen.toNat ≤ 64 ∧ s.iterations = 0#32
  | .deriveVerifier, .pointAtInfinity => s.saltLen.toNat ≤ 64 ∧ s.iterations ≠ 0#32 ∧ verifierW1 s = 0
  | .scalarMulG, .pointAtInfinity => s.scalarOperand % groupN = 0
  | .encodeManualCode, .fieldOverflow => 8192 ≤ s.discriminator.toNat ∨ 163840000 ≤ s.passcode.toNat
  | .verhoeffCheckDigit, .badLength => s.digitsLen.toNat > 64
  | .verhoeffCheckDigit, .badDigit =>
    s.digitsLen.toNat ≤ 64 ∧ ∃ j < s.digitsLen.toNat,
      (Memory.read s.mem (0x240 + j)).toNat < 0x30 ∨ 0x39 < (Memory.read s.mem (0x240 + j)).toNat
  | _, _ => False

/-! ### What a command checks -/

/-- The flag bit with a field of four bits or more is no decimal digit (R222, R226). -/
theorem nine_lt_four_or {x : Nat} (hx : 8 ≤ x) : 9 < 4 ||| x := by
  obtain rfl | rfl | hx : x = 8 ∨ x = 9 ∨ 9 < x := by omega
  · decide
  · decide
  · exact hx.trans_le Nat.right_le_or

/-- The chunks overflow on the inputs R265 lists and on no other. -/
theorem chunkOverflow_iff {disc pc : Nat} : chunkOverflow disc pc = true ↔ 8192 ≤ disc ∨ 163840000 ≤ pc := by
  constructor
  · intro h
    by_contra hlegal
    rw [chunkOverflow_eq_false (by omega) (by omega)] at h
    exact Bool.false_ne_true h
  · rw [chunkOverflow, Bool.or_eq_true, decide_eq_true_eq, decide_eq_true_eq, chunk3_eq]
    rintro (hdisc | hpc)
    · have hchunk : chunk1 disc = 4 ||| disc / 256 / 4 := by
        rw [chunk1, shortDiscriminator_eq, Nat.shiftRight_eq_div_pow]
        rfl
      exact .inl (hchunk ▸ nine_lt_four_or (by omega))
    · exact .inr (by omega)

/-- Some octet of the string is no ASCII digit (R264). -/
theorem digitOctets_all_eq_false_iff (s : State) :
    s.digitOctets.all isAsciiDigit = false ↔ ∃ j < s.digitsLen.toNat,
      (Memory.read s.mem (0x240 + j)).toNat < 0x30 ∨ 0x39 < (Memory.read s.mem (0x240 + j)).toNat := by
  have hdigit (o : Octet) : isAsciiDigit o = false ↔ o.toNat < 0x30 ∨ 0x39 < o.toNat := by
    rw [← Bool.not_eq_true, isAsciiDigit_iff]
    omega
  simp only [State.digitOctets_eq, Memory.readOctets, List.all_map, List.all_eq_false, List.mem_range, Function.comp_apply,
    Bool.not_eq_true, hdigit]

/-! ### Each command raises what its rows say -/

theorem pbkdf2Outcome_eq_error_iff {s : State} {e : EngineError} : pbkdf2Outcome s = .error e ↔ Raises .pbkdf2 e s := by
  constructor
  · intro h
    obtain ⟨rfl, hlengths⟩ | ⟨rfl, hrow⟩ := pbkdf2Outcome_error h
    · exact hlengths
    · exact hrow
  · cases e with
    | badLength => exact fun hlengths => if_pos hlengths
    | badIterations =>
      rintro ⟨hpwd, hsalt, hdk, hdkMax, hiterations⟩
      have hlengths : ¬(s.pwdLen.toNat > pwdMax ∨ s.saltLen.toNat > saltMax ∨ s.dkLen = 0#32 ∨ s.dkLen.toNat > dkMax) := by
        simp only [pwdMax, saltMax, dkMax, not_or, gt_iff_lt, Nat.not_lt]
        exact ⟨hpwd, hsalt, hdk, hdkMax⟩
      rw [pbkdf2Outcome, if_neg hlengths, if_pos hiterations]
    | illegalCmd | badDigit | fieldOverflow | pointAtInfinity => exact False.elim

/-- Past the salt length and the iteration count, what is left to fail is the encoding of w1·G, and only w1 = 0 gives O
(R173, R266). -/
theorem deriveVerifierOutcome_eq_error_iff {s : State} {e : EngineError} :
    deriveVerifierOutcome s = .error e ↔ Raises .deriveVerifier e s := by
  constructor
  · intro h
    obtain ⟨rfl, hsalt⟩ | ⟨rfl, hrow⟩ | ⟨rfl, hsalt, hiterations⟩ := deriveVerifierOutcome_error h
    · exact hsalt
    · exact hrow
    · refine ⟨hsalt, hiterations, by_contra fun hw1 => ?_⟩
      obtain ⟨x, y, hpoint⟩ := exists_affine_repeatedAdd_basePoint ((verifierW1_mod s).symm ▸ hw1)
      rw [deriveVerifierOutcome_of_affine hsalt hiterations hw1 hpoint] at h
      cases h
  · cases e with
    | badLength => exact fun hsalt => if_pos hsalt
    | badIterations =>
      rintro ⟨hsalt, hiterations⟩
      have hfits : ¬s.saltLen.toNat > saltMax := Nat.not_lt.mpr hsalt
      rw [deriveVerifierOutcome, if_neg hfits, if_pos hiterations]
    | pointAtInfinity =>
      rintro ⟨hsalt, hiterations, hw1⟩
      have hfits : ¬s.saltLen.toNat > saltMax := Nat.not_lt.mpr hsalt
      rw [deriveVerifierOutcome, if_neg hfits, if_neg hiterations, if_pos hw1]
    | illegalCmd | badDigit | fieldOverflow => exact False.elim

/-- Only a multiple of n gives O (R173, R266). -/
theorem scalarMulGOutcome_eq_error_iff {s : State} {e : EngineError} :
    scalarMulGOutcome s = .error e ↔ Raises .scalarMulG e s := by
  constructor
  · intro h
    obtain rfl := scalarMulGOutcome_error h
    refine by_contra fun (hk : s.scalarOperand % groupN ≠ 0) => ?_
    obtain ⟨x, y, hpoint⟩ := exists_affine_repeatedAdd_basePoint (Nat.mod_mod _ groupN ▸ hk)
    rw [scalarMulGOutcome_of_affine hk hpoint] at h
    cases h
  · cases e with
    | pointAtInfinity => exact fun hk => if_pos hk
    | illegalCmd | badLength | badIterations | badDigit | fieldOverflow => exact False.elim

theorem manualCodeOutcome_eq_error_iff {s : State} {e : EngineError} :
    manualCodeOutcome s = .error e ↔ Raises .encodeManualCode e s := by
  constructor
  · intro h
    obtain ⟨rfl, hoverflow⟩ := manualCodeOutcome_error h
    exact chunkOverflow_iff.mp hoverflow
  · cases e with
    | fieldOverflow => exact fun hinputs => if_pos (chunkOverflow_iff.mpr hinputs)
    | illegalCmd | badLength | badIterations | badDigit | pointAtInfinity => exact False.elim

theorem verhoeffOutcome_eq_error_iff {s : State} {e : EngineError} :
    verhoeffOutcome s = .error e ↔ Raises .verhoeffCheckDigit e s := by
  constructor
  · intro h
    obtain ⟨rfl, hlen⟩ | ⟨rfl, hlen, hdigits⟩ := verhoeffOutcome_error h
    · exact hlen
    · exact ⟨hlen, (digitOctets_all_eq_false_iff s).mp hdigits⟩
  · cases e with
    | badLength => exact fun hlen => if_pos hlen
    | badDigit =>
      rintro ⟨hlen, hoctet⟩
      have hfits : ¬s.digitsLen.toNat > digitsMax := Nat.not_lt.mpr hlen
      rw [verhoeffOutcome, if_neg hfits, if_neg (Bool.eq_false_iff.mp ((digitOctets_all_eq_false_iff s).mpr hoctet))]
    | illegalCmd | badIterations | fieldOverflow | pointAtInfinity => exact False.elim

/-- The table is exact: a command answers an error where it has a row whose condition holds, and in no other case. -/
theorem commandOutcome_eq_error_iff {i : Instr} {s : State} {e : EngineError} :
    commandOutcome i s = .error e ↔ Raises i e s := by
  cases i with
  | deriveVerifier => exact deriveVerifierOutcome_eq_error_iff
  | pbkdf2 => exact pbkdf2Outcome_eq_error_iff
  | scalarMulG => exact scalarMulGOutcome_eq_error_iff
  | encodeManualCode => exact manualCodeOutcome_eq_error_iff
  | verhoeffCheckDigit => exact verhoeffOutcome_eq_error_iff
  | nop | pointCheck => exact iff_of_false nofun id

/-! ### The code a command ends with -/

/-- The errors in the order of their codes, which begin at 0x01 (R260). -/
def EngineError.inCodeOrder : List EngineError :=
  [.illegalCmd, .badLength, .badIterations, .badDigit, .fieldOverflow, .pointAtInfinity]

theorem EngineError.inCodeOrder_code (e : EngineError) : inCodeOrder[e.code.toNat - 1]? = some e := by cases e <;> rfl

/-- No two errors share a code (R260). -/
theorem EngineError.code_injective : Function.Injective EngineError.code := fun e e' h =>
  Option.some.inj (by rw [← inCodeOrder_code e, h, inCodeOrder_code])

/-- A raised error is the completion's, which changes nothing else (R115, R269). -/
theorem exec_of_raises {i : Instr} {e : EngineError} {s : State} (h : Raises i e s) :
    exec i s = .next (s.afterError e.code) := by
  rw [exec_eq_complete, commandOutcome_eq_error_iff.mpr h, State.complete_error, State.completeError_eq]

/-- From ERRCODE 0 a code stands in STATUS only because its error was raised (R114, R115). -/
theorem raises_of_errcode {i : Instr} {e : EngineError} {s t : State} (h0 : s.errcode = 0x00#8) (h : exec i s = .next t)
    (ht : t.errcode = e.code) : Raises i e s := by
  rw [exec_eq_complete] at h
  cases h
  obtain ⟨r, _, hok⟩ | ⟨e', herror, hcomplete⟩ := s.complete_cases (commandOutcome i s)
  · rw [hok, State.completeOk_errcode, h0] at ht
    exact absurd ht.symm e.code_ne_zero
  · rw [hcomplete] at ht
    exact commandOutcome_eq_error_iff.mp (EngineError.code_injective ht ▸ herror)

/-- From ERRCODE 0 a command ends with the completion of an error exactly where it raises that error. -/
theorem exec_eq_afterError_iff {s : State} (h0 : s.errcode = 0x00#8) (i : Instr) (e : EngineError) :
    ∃ t : State, exec i s = .next t ∧ (t = s.afterError e.code ↔ Raises i e s) := by
  have hexec := exec_eq_complete i s
  refine ⟨_, hexec, fun ht => raises_of_errcode h0 hexec (congrArg State.errcode ht), fun hraises => ?_⟩
  exact Host.Outcome.next.inj (hexec.symm.trans (exec_of_raises hraises))

/-! ### The obligations: the rows of one code -/

/-- Settles O34: three commands have a row for BAD_LENGTH. -/
theorem badLengthIsReported : Obligations.BadLengthIsReported := by
  intro s
  refine ⟨fun h => exec_of_raises (i := .pbkdf2) (e := .badLength) h,
    fun h => exec_of_raises (i := .deriveVerifier) (e := .badLength) h,
    fun h => exec_of_raises (i := .verhoeffCheckDigit) (e := .badLength) h, fun i t h0 hexec ht => ?_⟩
  have hraises : Raises i .badLength s := raises_of_errcode h0 hexec ht
  cases i with
  | pbkdf2 => exact .inl ⟨rfl, hraises⟩
  | deriveVerifier => exact .inr (.inl ⟨rfl, hraises⟩)
  | verhoeffCheckDigit => exact .inr (.inr ⟨rfl, hraises⟩)
  | nop | scalarMulG | pointCheck | encodeManualCode => exact hraises.elim

/-- Settles O35: PBKDF2 and DERIVE_VERIFIER have a row for BAD_ITERATIONS. -/
theorem zeroIterationsAreReported : Obligations.ZeroIterationsAreReported := by
  refine ⟨fun s hiterations hsalt => ⟨fun hpwd hdk hdkMax => ?pbkdf2, ?deriveVerifier⟩, fun i s t h0 hexec ht => ?converse⟩
  case pbkdf2 => exact exec_of_raises (i := .pbkdf2) (e := .badIterations) ⟨hpwd, hsalt, hdk, hdkMax, hiterations⟩
  case deriveVerifier => exact exec_of_raises (i := .deriveVerifier) (e := .badIterations) ⟨hsalt, hiterations⟩
  case converse =>
    have hraises : Raises i .badIterations s := raises_of_errcode h0 hexec ht
    cases i with
    | pbkdf2 =>
      obtain ⟨hpwd, hsalt, hdk, hdkMax, hiterations⟩ := hraises
      exact ⟨hiterations, hsalt, .inl ⟨rfl, hpwd, hdk, hdkMax⟩⟩
    | deriveVerifier =>
      obtain ⟨hsalt, hiterations⟩ := hraises
      exact ⟨hiterations, hsalt, .inr rfl⟩
    | nop | scalarMulG | pointCheck | encodeManualCode | verhoeffCheckDigit => exact hraises.elim

/-- Settles O45: SCALAR_MUL_G and DERIVE_VERIFIER have a row for POINT_AT_INFINITY. -/
theorem pointAtInfinityIsReported : Obligations.PointAtInfinityIsReported := by
  refine ⟨fun s h0 => ⟨exec_eq_afterError_iff h0 .scalarMulG .pointAtInfinity, fun hsalt hiterations => ?deriveVerifier⟩,
    fun i s t h0 hexec ht => ?converse⟩
  case deriveVerifier =>
    obtain ⟨t, hexec, hiff⟩ := exec_eq_afterError_iff h0 .deriveVerifier .pointAtInfinity
    exact ⟨t, hexec, hiff.trans ⟨fun ⟨_, _, hw1⟩ => hw1, fun hw1 => ⟨hsalt, hiterations, hw1⟩⟩⟩
  case converse =>
    have hraises : Raises i .pointAtInfinity s := raises_of_errcode h0 hexec ht
    cases i with
    | scalarMulG => exact .inl ⟨rfl, hraises⟩
    | deriveVerifier => exact .inr ⟨rfl, hraises⟩
    | nop | pbkdf2 | pointCheck | encodeManualCode | verhoeffCheckDigit => exact hraises.elim

/-- Settles O51: ENCODE_MANUAL_CODE alone has a row for FIELD_OVERFLOW. -/
theorem fieldOverflowIsReportedExactly : Obligations.FieldOverflowIsReportedExactly := by
  intro s
  refine ⟨fun h => exec_of_raises (i := .encodeManualCode) (e := .fieldOverflow) h, fun i t h0 hexec ht => ?_⟩
  have hraises : Raises i .fieldOverflow s := raises_of_errcode h0 hexec ht
  cases i with
  | encodeManualCode => exact ⟨rfl, hraises⟩
  | nop | deriveVerifier | pbkdf2 | scalarMulG | pointCheck | verhoeffCheckDigit => exact hraises.elim

/-- Settles O54: VERHOEFF_CHECK_DIGIT alone has a row for BAD_DIGIT. -/
theorem badDigitIsReported : Obligations.BadDigitIsReported := by
  refine ⟨fun s j hlen hj hoctet => ?_, fun i s t h0 hexec ht => ?_⟩
  · exact exec_of_raises (i := .verhoeffCheckDigit) (e := .badDigit) ⟨hlen, j, hj, hoctet⟩
  · have hraises : Raises i .badDigit s := raises_of_errcode h0 hexec ht
    cases i with
    | verhoeffCheckDigit => exact ⟨rfl, hraises⟩
    | nop | deriveVerifier | pbkdf2 | scalarMulG | pointCheck | encodeManualCode => exact hraises.elim

end Sys2Proof.Machine
end

section
/-! PROOFS. The two resets (R290 to R293): what the reset state reads, the soft reset, and the ways out of BUSY (O16, O17, O18,
O21). -/

namespace Sys2Proof.Machine

open Sys2Proof

/-! ### A write to CTRL -/

/-- A CTRL write with bit 0 set: only the response is not the reset's (R293). -/
theorem State.serve_write_ctrl_of_set (s : State) {v : Word} (hv : v.getLsbD 0 = true) :
    s.serve (.write 0x004#12 .bits32 v) = s.resetBlock.respond .okay 0#32 := by
  refine (s.serve_write_register .ctrl v).trans ?_
  rw [writeRegister, writeCtrl, if_pos hv]

/-- A CTRL write with bit 0 clear (R25, R293). -/
theorem State.serve_write_ctrl_of_clear (s : State) {v : Word} (hv : v.getLsbD 0 = false) :
    s.serve (.write 0x004#12 .bits32 v) = s.respond .okay 0#32 := by
  refine (s.serve_write_register .ctrl v).trans ?_
  rw [writeRegister, writeCtrl, if_neg (Bool.eq_false_iff.mp hv)]

/-- The one form of a soft reset (R63, R293). -/
theorem softResets_iff (a : Transaction) :
    softResets a = true ↔ ∃ v : Word, a = .write 0x004#12 .bits32 v ∧ v.getLsbD 0 = true := by
  constructor
  · intro h
    cases a with
    | read o size => cases h
    | write o size v =>
      simp only [softResets, Bool.and_eq_true, beq_iff_eq] at h
      obtain ⟨⟨hadmitted, hoffset⟩, hv⟩ := h
      obtain ⟨hsize, _⟩ := (transaction_admitted_iff _).mp hadmitted
      have ho : o = 0x004#12 := BitVec.eq_of_toNat_eq hoffset
      exact ⟨v, by rw [ho, ← hsize]; rfl, hv⟩
  · rintro ⟨v, rfl, hv⟩
    have halign : (0x004#12).toNat % 4 = 0 := by decide
    have hadmitted : (Transaction.write 0x004#12 .bits32 v).admitted = true :=
      (transaction_admitted_iff _).mpr ⟨rfl, halign⟩
    rw [softResets, hadmitted, hv]
    rfl

/-! ### Turns of a BUSY block -/

/-- Whatever a transaction changes while BUSY, the command in flight stays, unless it is a soft reset (R71, R112, R292).
Unlike `State.Inv.serve_of_busy` this asks for no invariant: the flags an acknowledgement clears are no part of the claim. -/
theorem State.serve_keeps_command_of_busy {s : State} (hbusy : s.phase = .busy) {a : Transaction}
    (hreset : softResets a = false) :
    (s.serve a).phase = .busy ∧ (s.serve a).latch = s.latch ∧ (s.serve a).cmd = s.cmd := by
  have not_idle : s.phase ≠ .idle := by simp [hbusy]
  rcases s.serve_cases a with ⟨_, _, hs, _⟩ | ⟨_, hsoft⟩ | ⟨_, hidle, _⟩ | ⟨_, hs, _⟩ | ⟨_, hs, _⟩ | ⟨_, hs, _⟩ |
    ⟨_, _, hidle, _⟩ | ⟨_, _, _, hidle, _⟩
  · rw [hs]; exact ⟨hbusy, rfl, rfl⟩
  · rw [hreset] at hsoft; cases hsoft
  · exact absurd hidle not_idle
  · rw [hs]; exact ⟨hbusy, rfl, rfl⟩
  · rw [hs]; exact ⟨hbusy, rfl, rfl⟩
  · rw [hs]; exact ⟨hbusy, rfl, rfl⟩
  · exact absurd hidle not_idle
  · exact absurd hidle not_idle

/-- What both completions leave (R53, R113 to R115). -/
theorem State.complete_finishes (s : State) (o : Except EngineError Results) :
    (s.complete o).phase = .idle ∧ (s.complete o).latch = none ∧ (s.complete o).done = true ∧
      (s.complete o).cmd = s.cmd := by
  cases o <;> exact ⟨rfl, rfl, rfl, rfl⟩

/-! ### The obligations -/

/-- Settles O18: a turn of a BUSY block is the reset, a soft reset, a transaction that keeps the command in flight, or the
completion (`engineStep_eq_complete`). -/
theorem onlyAResetAbortsACommand : Obligations.OnlyAResetAbortsACommand := by
  intro s t turn hbusy hturn
  refine ⟨?rst, ?softReset, ?otherTransaction, ?engine⟩
  case rst =>
    rintro rfl
    cases hturn
    rfl
  case softReset =>
    rintro a rfl hreset
    obtain ⟨v, rfl, hv⟩ := (softResets_iff a).mp hreset
    cases hturn
    rw [s.serve_write_ctrl_of_set hv]
    rfl
  case otherTransaction =>
    rintro a rfl hreset
    cases hturn
    exact State.serve_keeps_command_of_busy hbusy hreset
  case engine =>
    rintro rfl
    rw [takeTurn_engine_of_busy hbusy] at hturn
    obtain ⟨o, rfl⟩ := engineStep_eq_complete hturn
    exact s.complete_finishes o

/-- Settles O16: ID is the one register whose reset value is not 0, and the memory lists no octet. -/
theorem resetStateReadsAsListed : Obligations.ResetStateReadsAsListed := by
  refine ⟨rfl, rfl, rfl, rfl, fun r hr => ?registers, Memory.read_nil⟩
  cases r with
  | id => exact absurd rfl hr
  | status => decide
  | ctrl | cmd | irqEn | result | resultLen | passcode | iterations | saltLen | pwdLen | dkLen | discriminator | vid | pid
  | digitsLen => rfl

/-- Settles O17, by the two cases of bit 0. -/
theorem softResetIsAFullReset : Obligations.SoftResetIsAFullReset := fun s _ =>
  ⟨s.serve_write_ctrl_of_set, s.serve_write_ctrl_of_clear⟩

/-- Settles O21: a reset of any state meets the invariant, and one of the reset state changes nothing. -/
theorem invariantHoldsAtReset : Obligations.InvariantHoldsAtReset := State.inv_resetBlock State.reset

end Sys2Proof.Machine
end
